-- ==== Sys2Proof/Word.lean ====
section
/-! DEFINITION. Word.lean: the widths of spec/00_scope.md R5, R6: byte, word, doubleword, and the two values of an operand-size or
address-size attribute. -/

namespace Sys2Proof

/-- 8 bits (R6). -/
abbrev Byte := BitVec 8

/-- 16 bits (R6). -/
abbrev Word := BitVec 16

/-- 32 bits (R6). -/
abbrev Dword := BitVec 32

/-- The two values of the operand-size attribute `W` and of the address-size attribute `A` (R4, R10). -/
inductive Size
  | w16
  | w32
  deriving DecidableEq, Repr

/-- `W` or `A` as a number of bits. -/
def Size.bits : Size → Nat
  | .w16 => 16
  | .w32 => 32

/-- `n = W/8`, the bytes of one operand (R10). -/
def Size.bytes : Size → Nat
  | .w16 => 2
  | .w32 => 4

/-- The other of {16, 32}: `48 - W` (30_encoding.md R92). -/
def Size.other : Size → Size
  | .w16 => .w32
  | .w32 => .w16

end Sys2Proof
end

