-- ==== Sys2Proof/Config.lean ====
section
/-! DEFINITION. Config.lean: the free values, which the spec leaves open and of which nothing can be proved, and the two
fixed bounds of the spec that several files use. -/

namespace Sys2Proof

/-- FREE VALUE: the `n`-th draw of `UndefDraw` (00_scope.md R4), as a pattern of `w` bits: "a draw under no law". BSF and BSR of a
zero source take one (41_bit_scan.md R153), and so does every unlisted flag under `FLAGS_UNLISTED = draw` (10_state.md R27).
No body: no proof can see a value of it. notes/assumptions/6.md. -/
opaque Config.undefDraw (w n : Nat) : BitVec w

/-- FREE VALUE: what the byte at a physical address holds at launch when the state lists no byte there: "every memory byte ...
unspecified" (10_state.md R34). No body. notes/assumptions/10.md. -/
opaque Config.launchByte (address : Nat) : Byte

/-- The largest offset of the effective address space "from 0 to 0FFFFH" of Real Address Mode (20_memory.md R55). -/
def Config.lastOffset16 : Nat := 0xFFFF

/-- The largest 32-bit offset, `2^32 - 1` (20_memory.md R54, 10_state.md R25). -/
def Config.lastOffset32 : Nat := 0xFFFFFFFF

/-- The longest admitted instruction, in bytes (30_encoding.md R103). -/
def Config.maxLength : Nat := 12

end Sys2Proof
end

