-- ==== Sys2Proof/Syntax.lean ====
section
/-! DEFINITION. Syntax.lean: the instructions of spec/30_encoding.md R94: one constructor of `Instr` per row of
spec/opcode_table.json (22), with every ModRM addressing form its operand classes allow (00_scope.md R2). -/

namespace Sys2Proof

/-- The eight general registers (10_state.md R21). At W = 16 the same names stand for the aliases AX ... DI (R22). -/
inductive Reg
  | eax
  | ecx
  | edx
  | ebx
  | esp
  | ebp
  | esi
  | edi
  deriving DecidableEq, Repr

/-- The six segment registers (10_state.md R29). -/
inductive Seg
  | es
  | cs
  | ss
  | ds
  | fs
  | gs
  deriving DecidableEq, Repr

/-- The admitted prefix bytes (30_encoding.md R91). -/
inductive Prefix
  /-- `66`: W is the other of {16, 32}. -/
  | opSize
  /-- `67`: A is the other of {16, 32}. -/
  | addrSize
  /-- `26 2E 36 3E 64 65`: the memory operand is in this segment. -/
  | seg (s : Seg)
  deriving DecidableEq, Repr

/-- The two default attributes under which bytes are read: `DEFAULT_OPSIZE` and `DEFAULT_ADDRSIZE` (00_scope.md R4). -/
structure Defaults where
  opSize   : Size
  addrSize : Size
  deriving DecidableEq, Repr

/-- The register sums of the 16-bit addressing table (30_encoding.md R99), in the order of `r/m`. -/
inductive Base16
  | bxSi
  | bxDi
  | bpSi
  | bpDi
  | si
  | di
  | bp
  | bx
  deriving DecidableEq, Repr

/-- The displacement of a 16-bit form: `mod` = 0, 1, 2 (30_encoding.md R99, R101). -/
inductive Disp16
  | none
  | d8 (d : Byte)
  | d16 (d : Word)
  deriving DecidableEq, Repr

/-- The displacement of a 32-bit form: `mod` = 0, 1, 2 (30_encoding.md R97, R101). -/
inductive Disp32
  | none
  | d8 (d : Byte)
  | d32 (d : Dword)
  deriving DecidableEq, Repr

/-- A memory operand as ModRM, SIB and displacement name it (30_encoding.md R97 to R99). -/
inductive MemOp
  /-- A = 16, register sum and displacement (R99). -/
  | base16 (b : Base16) (d : Disp16)
  /-- A = 16, `mod` = 0, `r/m` = 6: `disp16`, no register (R99). -/
  | abs16 (d : Word)
  /-- A = 32, one register and displacement (R97). -/
  | base32 (b : Reg) (d : Disp32)
  /-- A = 32, `mod` = 0, `r/m` = 5: `disp32`, no register (R97). -/
  | abs32 (d : Dword)
  /-- A = 32, SIB with a base register (R98). `index` = ESP stands for index field 4: no index register, `scale` ignored. -/
  | sib (scale : BitVec 2) (index base : Reg) (d : Disp32)
  /-- A = 32, SIB with `base` = 5 and `mod` = 0: `disp32` and no base register (R98). -/
  | sibAbs (scale : BitVec 2) (index : Reg) (d : Dword)
  deriving DecidableEq, Repr

/-- The register-or-memory operand: `mod` = 3, or not (30_encoding.md R95). -/
inductive RM
  | reg (r : Reg)
  | mem (m : MemOp)
  deriving DecidableEq, Repr

/-- The 22 rows of 30_encoding.md R94. `pre` holds the prefix bytes in the order they stand in memory; they fix, with the default
sizes, W and A (R92, R93) and the segment (R100), and they count in the length (R103). -/
inductive Instr
  /-- `BOUND r16,m16&16` (row 1). A register `rm` is the form that raises UD (R104). -/
  | bound16 (pre : List Prefix) (reg : Reg) (rm : RM)
  /-- `BOUND r32,m32&32` (row 2). -/
  | bound32 (pre : List Prefix) (reg : Reg) (rm : RM)
  /-- `BSF r16,r/m16` (row 3). -/
  | bsf16 (pre : List Prefix) (reg : Reg) (rm : RM)
  /-- `BSF r32,r/m32` (row 4). -/
  | bsf32 (pre : List Prefix) (reg : Reg) (rm : RM)
  /-- `BSR r16,r/m16` (row 5). -/
  | bsr16 (pre : List Prefix) (reg : Reg) (rm : RM)
  /-- `BSR r32,r/m32` (row 6). -/
  | bsr32 (pre : List Prefix) (reg : Reg) (rm : RM)
  /-- `BT r/m16,r16` (row 7). -/
  | btReg16 (pre : List Prefix) (rm : RM) (reg : Reg)
  /-- `BT r/m32,r32` (row 8). -/
  | btReg32 (pre : List Prefix) (rm : RM) (reg : Reg)
  /-- `BT r/m16,imm8` (row 9). -/
  | btImm16 (pre : List Prefix) (rm : RM) (imm : Byte)
  /-- `BT r/m32,imm8` (row 10). -/
  | btImm32 (pre : List Prefix) (rm : RM) (imm : Byte)
  /-- `BTC r/m16,r16` (row 11). -/
  | btcReg16 (pre : List Prefix) (rm : RM) (reg : Reg)
  /-- `BTC r/m32,r32` (row 12). -/
  | btcReg32 (pre : List Prefix) (rm : RM) (reg : Reg)
  /-- `BTC r/m16,imm8` (row 13). -/
  | btcImm16 (pre : List Prefix) (rm : RM) (imm : Byte)
  /-- `BTC r/m32,imm8` (row 14). -/
  | btcImm32 (pre : List Prefix) (rm : RM) (imm : Byte)
  /-- `BTR r/m16,r16` (row 15). -/
  | btrReg16 (pre : List Prefix) (rm : RM) (reg : Reg)
  /-- `BTR r/m32,r32` (row 16). -/
  | btrReg32 (pre : List Prefix) (rm : RM) (reg : Reg)
  /-- `BTR r/m16,imm8` (row 17). -/
  | btrImm16 (pre : List Prefix) (rm : RM) (imm : Byte)
  /-- `BTR r/m32,imm8` (row 18). -/
  | btrImm32 (pre : List Prefix) (rm : RM) (imm : Byte)
  /-- `BTS r/m16,r16` (row 19). -/
  | btsReg16 (pre : List Prefix) (rm : RM) (reg : Reg)
  /-- `BTS r/m32,r32` (row 20). -/
  | btsReg32 (pre : List Prefix) (rm : RM) (reg : Reg)
  /-- `BTS r/m16,imm8` (row 21). -/
  | btsImm16 (pre : List Prefix) (rm : RM) (imm : Byte)
  /-- `BTS r/m32,imm8` (row 22). -/
  | btsImm32 (pre : List Prefix) (rm : RM) (imm : Byte)
  deriving DecidableEq, Repr

/-- The prefixes of an instruction. -/
def Instr.prefixes : Instr → List Prefix
  | .bound16 p _ _ | .bound32 p _ _ | .bsf16 p _ _ | .bsf32 p _ _ | .bsr16 p _ _ | .bsr32 p _ _
  | .btReg16 p _ _ | .btReg32 p _ _ | .btImm16 p _ _ | .btImm32 p _ _
  | .btcReg16 p _ _ | .btcReg32 p _ _ | .btcImm16 p _ _ | .btcImm32 p _ _
  | .btrReg16 p _ _ | .btrReg32 p _ _ | .btrImm16 p _ _ | .btrImm32 p _ _
  | .btsReg16 p _ _ | .btsReg32 p _ _ | .btsImm16 p _ _ | .btsImm32 p _ _ => p

/-- The register-or-memory operand of an instruction. -/
def Instr.rm : Instr → RM
  | .bound16 _ _ m | .bound32 _ _ m | .bsf16 _ _ m | .bsf32 _ _ m | .bsr16 _ _ m | .bsr32 _ _ m => m
  | .btReg16 _ m _ | .btReg32 _ m _ | .btImm16 _ m _ | .btImm32 _ m _
  | .btcReg16 _ m _ | .btcReg32 _ m _ | .btcImm16 _ m _ | .btcImm32 _ m _
  | .btrReg16 _ m _ | .btrReg32 _ m _ | .btrImm16 _ m _ | .btrImm32 _ m _
  | .btsReg16 _ m _ | .btsReg32 _ m _ | .btsImm16 _ m _ | .btsImm32 _ m _ => m

/-- The operand-size attribute of an instruction's row (30_encoding.md R94, column W). -/
def Instr.width : Instr → Size
  | .bound16 .. | .bsf16 .. | .bsr16 .. | .btReg16 .. | .btImm16 .. | .btcReg16 .. | .btcImm16 ..
  | .btrReg16 .. | .btrImm16 .. | .btsReg16 .. | .btsImm16 .. => .w16
  | .bound32 .. | .bsf32 .. | .bsr32 .. | .btReg32 .. | .btImm32 .. | .btcReg32 .. | .btcImm32 ..
  | .btrReg32 .. | .btrImm32 .. | .btsReg32 .. | .btsImm32 .. => .w32

/-- The row's spelling in the source's Instruction column (30_encoding.md R94, R107). -/
def Instr.spelling : Instr → String
  | .bound16 .. => "BOUND r16,m16&16"
  | .bound32 .. => "BOUND r32,m32&32"
  | .bsf16 .. => "BSF r16,r/m16"
  | .bsf32 .. => "BSF r32,r/m32"
  | .bsr16 .. => "BSR r16,r/m16"
  | .bsr32 .. => "BSR r32,r/m32"
  | .btReg16 .. => "BT r/m16,r16"
  | .btReg32 .. => "BT r/m32,r32"
  | .btImm16 .. => "BT r/m16,imm8"
  | .btImm32 .. => "BT r/m32,imm8"
  | .btcReg16 .. => "BTC r/m16,r16"
  | .btcReg32 .. => "BTC r/m32,r32"
  | .btcImm16 .. => "BTC r/m16,imm8"
  | .btcImm32 .. => "BTC r/m32,imm8"
  | .btrReg16 .. => "BTR r/m16,r16"
  | .btrReg32 .. => "BTR r/m32,r32"
  | .btrImm16 .. => "BTR r/m16,imm8"
  | .btrImm32 .. => "BTR r/m32,imm8"
  | .btsReg16 .. => "BTS r/m16,r16"
  | .btsReg32 .. => "BTS r/m32,r32"
  | .btsImm16 .. => "BTS r/m16,imm8"
  | .btsImm32 .. => "BTS r/m32,imm8"

end Sys2Proof
end

