-- ==== Sys2Proof/Machine/Prefixes.lean ====
section
/-! DEFINITION. Machine/Prefixes.lean: what the prefix bytes of an instruction decide (spec/30_encoding.md R91 to R93, R100). -/

namespace Sys2Proof

/-- A second prefix of the same class is not admitted: a second `66`, a second `67`, a second segment override (R91). -/
def Prefix.sameClass : Prefix → Prefix → Bool
  | .opSize, .opSize => true
  | .addrSize, .addrSize => true
  | .seg _, .seg _ => true
  | _, _ => false

/-- The operand-size attribute `W`: the default, or the other value under `66` (R92). -/
def opSizeOf (default : Size) (pre : List Prefix) : Size :=
  if pre.contains .opSize then default.other else default

/-- The address-size attribute `A`: the default, or the other value under `67` (R93). -/
def addrSizeOf (default : Size) (pre : List Prefix) : Size :=
  if pre.contains .addrSize then default.other else default

/-- The segment a segment-override prefix names, if there is one (R100). -/
def segOverride : List Prefix → Option Seg
  | [] => none
  | .seg s :: _ => some s
  | _ :: pre => segOverride pre

end Sys2Proof
end

