-- ==== Sys2Proof/WellFormed.lean ====
section
/-! DEFINITION. WellFormed.lean: which terms of `Instr` some bytes encode under given default sizes (spec/30_encoding.md R91 to
R99). A `Bool`, so that `decide` runs on it. -/

namespace Sys2Proof

/-- At most one prefix of each class (R91). -/
def prefixesOk : List Prefix → Bool
  | [] => true
  | p :: ps => ps.all (fun q => !p.sameClass q) && prefixesOk ps

/-- The memory operand is one the addressing table of `A` has: `BP` alone (`mod` = 0, `r/m` = 6) is `disp16` (R99), ESP as `r/m`
is the SIB escape and EBP with `mod` = 0 is `disp32`, as `r/m` (R97) and as SIB base (R98). -/
def memOpOk (a : Size) : MemOp → Bool
  | .base16 .bp .none => false
  | .base16 _ _ => a == .w16
  | .abs16 _ => a == .w16
  | .base32 .esp _ => false
  | .base32 .ebp .none => false
  | .base32 _ _ => a == .w32
  | .abs32 _ => a == .w32
  | .sib _ _ .ebp .none => false
  | .sib _ _ _ _ => a == .w32
  | .sibAbs _ _ _ => a == .w32

/-- A register operand is well formed under either address size (R95). -/
def rmOk (a : Size) : RM → Bool
  | .reg _ => true
  | .mem m => memOpOk a m

/-- The prefixes are admitted, they select the row's operand size (R92), and the operand is in the table of the address size they
select (R93). -/
def wellFormed (d : Defaults) (i : Instr) : Bool :=
  prefixesOk i.prefixes && opSizeOf d.opSize i.prefixes == i.width && rmOk (addrSizeOf d.addrSize i.prefixes) i.rm

end Sys2Proof
end

