-- ==== Sys2Proof/Decode.lean ====
section
/-! DEFINITION. Decode.lean: the decoder of spec/30_encoding.md R106, total on any list of bytes; after it the encoder, written from
the same tables (R90 to R102), the length (R103), the opcode table's windows (R109), and `decodeTableWord`. -/

namespace Sys2Proof

/-! ## Fields -/

/-- `reg`, `r/m`, `base` and `index` fields hold a register number (10_state.md R21). -/
def Reg.ofBits (b : BitVec 3) : Reg :=
  if b = 0 then .eax else if b = 1 then .ecx else if b = 2 then .edx else if b = 3 then .ebx
  else if b = 4 then .esp else if b = 5 then .ebp else if b = 6 then .esi else .edi

/-- The number of a register (10_state.md R21). -/
def Reg.toBits : Reg → BitVec 3
  | .eax => 0
  | .ecx => 1
  | .edx => 2
  | .ebx => 3
  | .esp => 4
  | .ebp => 5
  | .esi => 6
  | .edi => 7

/-- The register sum an `r/m` field names at A = 16 (R99). -/
def Base16.ofBits (b : BitVec 3) : Base16 :=
  if b = 0 then .bxSi else if b = 1 then .bxDi else if b = 2 then .bpSi else if b = 3 then .bpDi
  else if b = 4 then .si else if b = 5 then .di else if b = 6 then .bp else .bx

/-- The `r/m` field of a register sum at A = 16 (R99). -/
def Base16.toBits : Base16 → BitVec 3
  | .bxSi => 0
  | .bxDi => 1
  | .bpSi => 2
  | .bpDi => 3
  | .si => 4
  | .di => 5
  | .bp => 6
  | .bx => 7

/-- Bits 7:6: `mod` of ModRM (R95), `scale` of SIB (R98). -/
def hiField (b : Byte) : BitVec 2 := b.extractLsb' 6 2

/-- Bits 5:3: `reg` of ModRM (R95), `index` of SIB (R98). -/
def midField (b : Byte) : BitVec 3 := b.extractLsb' 3 3

/-- Bits 2:0: `r/m` of ModRM (R95), `base` of SIB (R98). -/
def lowField (b : Byte) : BitVec 3 := b.extractLsb' 0 3

/-- A ModRM or SIB byte from its three fields (R95, R98). -/
def fieldByte (hi : BitVec 2) (mid low : BitVec 3) : Byte := hi ++ mid ++ low

/-- Two bytes, little-endian (R101). -/
def word2 (b0 b1 : Byte) : Word := b1 ++ b0

/-- Four bytes, little-endian (R101). -/
def dword4 (b0 b1 b2 b3 : Byte) : Dword := b3 ++ b2 ++ b1 ++ b0

/-- The two bytes of a 16-bit displacement, lowest address first (R101). -/
def wordBytes (w : Word) : List Byte := [w.extractLsb' 0 8, w.extractLsb' 8 8]

/-- The four bytes of a 32-bit displacement, lowest address first (R101). -/
def dwordBytes (w : Dword) : List Byte :=
  [w.extractLsb' 0 8, w.extractLsb' 8 8, w.extractLsb' 16 8, w.extractLsb' 24 8]

/-- The byte a prefix stands for (R91). -/
def Prefix.byte : Prefix → Byte
  | .opSize => 0x66
  | .addrSize => 0x67
  | .seg .es => 0x26
  | .seg .cs => 0x2E
  | .seg .ss => 0x36
  | .seg .ds => 0x3E
  | .seg .fs => 0x64
  | .seg .gs => 0x65

/-- The admitted prefix a byte is (R91). -/
def Prefix.ofByte (b : Byte) : Option Prefix :=
  if b = 0x66 then some .opSize
  else if b = 0x67 then some .addrSize
  else if b = 0x26 then some (.seg .es)
  else if b = 0x2E then some (.seg .cs)
  else if b = 0x36 then some (.seg .ss)
  else if b = 0x3E then some (.seg .ds)
  else if b = 0x64 then some (.seg .fs)
  else if b = 0x65 then some (.seg .gs)
  else none

/-! ## The decoder -/

/-- Why bytes are no instruction of the spec (00_scope.md R12): its two refusals of a decoder. -/
inductive DecodeError
  /-- LOCK, REP, REPNE, or a repeated prefix (R91). -/
  | prefixNotAdmitted
  /-- Bytes that are none of the 22 forms (R105). -/
  | notInSpec
  deriving DecidableEq, Repr

/-- The decoder's answer on the bytes read so far. -/
inductive Decoded
  /-- The next byte is needed (20_memory.md R69: bytes are asked for one at a time). -/
  | more
  /-- An instruction, and the bytes after it. -/
  | done (i : Instr) (rest : List Byte)
  /-- No instruction, whatever follows. -/
  | reject (e : DecodeError)
  deriving DecidableEq, Repr

/-- Take one byte. -/
def need8 (bs : List Byte) (k : Byte → List Byte → Decoded) : Decoded :=
  match bs with
  | b :: rest => k b rest
  | [] => .more

/-- Take a 16-bit little-endian displacement. -/
def need16 (bs : List Byte) (k : Word → List Byte → Decoded) : Decoded :=
  match bs with
  | b0 :: b1 :: rest => k (word2 b0 b1) rest
  | _ => .more

/-- Take a 32-bit little-endian displacement. -/
def need32 (bs : List Byte) (k : Dword → List Byte → Decoded) : Decoded :=
  match bs with
  | b0 :: b1 :: b2 :: b3 :: rest => k (dword4 b0 b1 b2 b3) rest
  | _ => .more

/-- The displacement of a 16-bit form by `mod` = 0, 1, 2 (R99). -/
def decodeDisp16 (mod : BitVec 2) (bs : List Byte) (k : Disp16 → List Byte → Decoded) : Decoded :=
  if mod = 0 then k .none bs
  else if mod = 1 then need8 bs fun d => k (.d8 d)
  else need16 bs fun d => k (.d16 d)

/-- The displacement of a 32-bit form by `mod` = 0, 1, 2 (R97). -/
def decodeDisp32 (mod : BitVec 2) (bs : List Byte) (k : Disp32 → List Byte → Decoded) : Decoded :=
  if mod = 0 then k .none bs
  else if mod = 1 then need8 bs fun d => k (.d8 d)
  else need32 bs fun d => k (.d32 d)

/-- A memory operand at A = 16 (R99). -/
def decodeMem16 (mod : BitVec 2) (rm : BitVec 3) (bs : List Byte) (k : MemOp → List Byte → Decoded) : Decoded :=
  if mod = 0 ∧ rm = 6 then need16 bs fun d => k (.abs16 d)
  else decodeDisp16 mod bs fun d => k (.base16 (Base16.ofBits rm) d)

/-- A SIB byte and what follows it (R98). -/
def decodeSib (mod : BitVec 2) (sib : Byte) (bs : List Byte) (k : MemOp → List Byte → Decoded) : Decoded :=
  if mod = 0 ∧ lowField sib = 5 then need32 bs fun d => k (.sibAbs (hiField sib) (Reg.ofBits (midField sib)) d)
  else decodeDisp32 mod bs fun d => k (.sib (hiField sib) (Reg.ofBits (midField sib)) (Reg.ofBits (lowField sib)) d)

/-- A memory operand at A = 32 (R97, R98). -/
def decodeMem32 (mod : BitVec 2) (rm : BitVec 3) (bs : List Byte) (k : MemOp → List Byte → Decoded) : Decoded :=
  if rm = 4 then need8 bs fun sib rest => decodeSib mod sib rest k
  else if mod = 0 ∧ rm = 5 then need32 bs fun d => k (.abs32 d)
  else decodeDisp32 mod bs fun d => k (.base32 (Reg.ofBits rm) d)

/-- The register-or-memory operand of a ModRM byte (R95). -/
def decodeRM (a : Size) (mod : BitVec 2) (rm : BitVec 3) (bs : List Byte) (k : RM → List Byte → Decoded) : Decoded :=
  if mod = 3 then k (.reg (Reg.ofBits rm)) bs
  else match a with
    | .w16 => decodeMem16 mod rm bs fun m => k (.mem m)
    | .w32 => decodeMem32 mod rm bs fun m => k (.mem m)

/-- The `/r` rows by the byte after `0F` (R94, R106). -/
def regRow (w : Size) (c : Byte) : Option (List Prefix → Reg → RM → Instr) :=
  if c = 0xBC then some fun p r m => match w with | .w16 => .bsf16 p r m | .w32 => .bsf32 p r m
  else if c = 0xBD then some fun p r m => match w with | .w16 => .bsr16 p r m | .w32 => .bsr32 p r m
  else if c = 0xA3 then some fun p r m => match w with | .w16 => .btReg16 p m r | .w32 => .btReg32 p m r
  else if c = 0xAB then some fun p r m => match w with | .w16 => .btsReg16 p m r | .w32 => .btsReg32 p m r
  else if c = 0xB3 then some fun p r m => match w with | .w16 => .btrReg16 p m r | .w32 => .btrReg32 p m r
  else if c = 0xBB then some fun p r m => match w with | .w16 => .btcReg16 p m r | .w32 => .btcReg32 p m r
  else none

/-- The `0F BA /digit ib` rows by the digit (R94, R106). -/
def groupRow (w : Size) (digit : BitVec 3) : Option (List Prefix → RM → Byte → Instr) :=
  if digit = 4 then some fun p m b => match w with | .w16 => .btImm16 p m b | .w32 => .btImm32 p m b
  else if digit = 5 then some fun p m b => match w with | .w16 => .btsImm16 p m b | .w32 => .btsImm32 p m b
  else if digit = 6 then some fun p m b => match w with | .w16 => .btrImm16 p m b | .w32 => .btrImm32 p m b
  else if digit = 7 then some fun p m b => match w with | .w16 => .btcImm16 p m b | .w32 => .btcImm32 p m b
  else none

/-- BOUND, `62 /r` (R94 rows 1, 2). -/
def boundRow (w : Size) (p : List Prefix) (r : Reg) (m : RM) : Instr :=
  match w with
  | .w16 => .bound16 p r m
  | .w32 => .bound32 p r m

/-- The opcode and what follows it, after the prefixes `pre` (R106). `b` is the first byte that is no admitted prefix. -/
def decodeOpcode (w a : Size) (pre : List Prefix) (b : Byte) (bs : List Byte) : Decoded :=
  if b = 0x62 then
    need8 bs fun m bs =>
      decodeRM a (hiField m) (lowField m) bs fun rm => .done (boundRow w pre (Reg.ofBits (midField m)) rm)
  else if b = 0x0F then
    need8 bs fun c bs =>
      if c = 0xBA then
        need8 bs fun m bs =>
          match groupRow w (midField m) with
          | none => .reject .notInSpec
          | some mk => decodeRM a (hiField m) (lowField m) bs fun rm bs => need8 bs fun imm => .done (mk pre rm imm)
      else
        match regRow w c with
        | none => .reject .notInSpec
        | some mk =>
          need8 bs fun m bs => decodeRM a (hiField m) (lowField m) bs fun rm => .done (mk pre (Reg.ofBits (midField m)) rm)
  else .reject .notInSpec

/-- The prefix loop of R106. `pre` holds the prefixes read so far, in order. -/
def decodeFrom (d : Defaults) (pre : List Prefix) : List Byte → Decoded
  | [] => .more
  | b :: bs =>
    match Prefix.ofByte b with
    | some p => if pre.any p.sameClass then .reject .prefixNotAdmitted else decodeFrom d (pre ++ [p]) bs
    | none =>
      if b = 0xF0 ∨ b = 0xF2 ∨ b = 0xF3 then .reject .prefixNotAdmitted
      else decodeOpcode (opSizeOf d.opSize pre) (addrSizeOf d.addrSize pre) pre b bs

/-- Decode the instruction at the head of a list of bytes (R106), under the default sizes. -/
def decode (d : Defaults) (bs : List Byte) : Decoded := decodeFrom d [] bs

/-! ## The encoder -/

/-- The `mod` field of a 16-bit displacement form (R99). -/
def Disp16.mod : Disp16 → BitVec 2
  | .none => 0
  | .d8 _ => 1
  | .d16 _ => 2

/-- Its displacement bytes (R101). -/
def Disp16.bytes : Disp16 → List Byte
  | .none => []
  | .d8 d => [d]
  | .d16 d => wordBytes d

/-- The `mod` field of a 32-bit displacement form (R97). -/
def Disp32.mod : Disp32 → BitVec 2
  | .none => 0
  | .d8 _ => 1
  | .d32 _ => 2

/-- Its displacement bytes (R101). -/
def Disp32.bytes : Disp32 → List Byte
  | .none => []
  | .d8 d => [d]
  | .d32 d => dwordBytes d

/-- ModRM, with `reg` field `r`, SIB and displacement of an operand (R95, R97 to R99). -/
def encodeRM (r : BitVec 3) : RM → List Byte
  | .reg x => [fieldByte 3 r x.toBits]
  | .mem (.base16 b d) => fieldByte d.mod r b.toBits :: d.bytes
  | .mem (.abs16 d) => fieldByte 0 r 6 :: wordBytes d
  | .mem (.base32 b d) => fieldByte d.mod r b.toBits :: d.bytes
  | .mem (.abs32 d) => fieldByte 0 r 5 :: dwordBytes d
  | .mem (.sib s x b d) => fieldByte d.mod r 4 :: fieldByte s x.toBits b.toBits :: d.bytes
  | .mem (.sibAbs s x d) => fieldByte 0 r 4 :: fieldByte s x.toBits 5 :: dwordBytes d

/-- The opcode bytes of a row (R94). -/
def Instr.opcode : Instr → List Byte
  | .bound16 .. | .bound32 .. => [0x62]
  | .bsf16 .. | .bsf32 .. => [0x0F, 0xBC]
  | .bsr16 .. | .bsr32 .. => [0x0F, 0xBD]
  | .btReg16 .. | .btReg32 .. => [0x0F, 0xA3]
  | .btcReg16 .. | .btcReg32 .. => [0x0F, 0xBB]
  | .btrReg16 .. | .btrReg32 .. => [0x0F, 0xB3]
  | .btsReg16 .. | .btsReg32 .. => [0x0F, 0xAB]
  | .btImm16 .. | .btImm32 .. | .btcImm16 .. | .btcImm32 .. | .btrImm16 .. | .btrImm32 ..
  | .btsImm16 .. | .btsImm32 .. => [0x0F, 0xBA]

/-- What the ModRM `reg` field holds: a register number or the row's digit (R94, R96). -/
def Instr.regField : Instr → BitVec 3
  | .bound16 _ r _ | .bound32 _ r _ | .bsf16 _ r _ | .bsf32 _ r _ | .bsr16 _ r _ | .bsr32 _ r _ => r.toBits
  | .btReg16 _ _ r | .btReg32 _ _ r | .btcReg16 _ _ r | .btcReg32 _ _ r
  | .btrReg16 _ _ r | .btrReg32 _ _ r | .btsReg16 _ _ r | .btsReg32 _ _ r => r.toBits
  | .btImm16 .. | .btImm32 .. => 4
  | .btsImm16 .. | .btsImm32 .. => 5
  | .btrImm16 .. | .btrImm32 .. => 6
  | .btcImm16 .. | .btcImm32 .. => 7

/-- The immediate byte of the `ib` rows (R102). -/
def Instr.immBytes : Instr → List Byte
  | .btImm16 _ _ b | .btImm32 _ _ b | .btcImm16 _ _ b | .btcImm32 _ _ b
  | .btrImm16 _ _ b | .btrImm32 _ _ b | .btsImm16 _ _ b | .btsImm32 _ _ b => [b]
  | .bound16 .. | .bound32 .. | .bsf16 .. | .bsf32 .. | .bsr16 .. | .bsr32 ..
  | .btReg16 .. | .btReg32 .. | .btcReg16 .. | .btcReg32 .. | .btrReg16 .. | .btrReg32 ..
  | .btsReg16 .. | .btsReg32 .. => []

/-- The bytes of an instruction, lowest address first (R90). -/
def encode (i : Instr) : List Byte :=
  i.prefixes.map Prefix.byte ++ i.opcode ++ encodeRM i.regField i.rm ++ i.immBytes

/-! ## The length -/

/-- Displacement bytes of a 16-bit form (R103). -/
def Disp16.length : Disp16 → Nat
  | .none => 0
  | .d8 _ => 1
  | .d16 _ => 2

/-- Displacement bytes of a 32-bit form (R103). -/
def Disp32.length : Disp32 → Nat
  | .none => 0
  | .d8 _ => 1
  | .d32 _ => 4

/-- ModRM, SIB and displacement bytes of an operand (R103). -/
def RM.length : RM → Nat
  | .reg _ => 1
  | .mem (.base16 _ d) => 1 + d.length
  | .mem (.abs16 _) => 1 + 2
  | .mem (.base32 _ d) => 1 + d.length
  | .mem (.abs32 _) => 1 + 4
  | .mem (.sib _ _ _ d) => 1 + 1 + d.length
  | .mem (.sibAbs _ _ _) => 1 + 1 + 4

/-- `len` of a `62 /r` row (R103). -/
def lenOp1 (pre : List Prefix) (rm : RM) : Nat := pre.length + 1 + rm.length

/-- `len` of a `0F xx /r` row (R103). -/
def lenOp2 (pre : List Prefix) (rm : RM) : Nat := pre.length + 2 + rm.length

/-- `len` of a `0F BA /digit ib` row (R103). -/
def lenOp2Imm (pre : List Prefix) (rm : RM) : Nat := pre.length + 2 + rm.length + 1

/-- `len`, the number of bytes of an instruction, prefixes included (R103). -/
def Instr.length : Instr → Nat
  | .bound16 p _ m | .bound32 p _ m => lenOp1 p m
  | .bsf16 p _ m | .bsf32 p _ m | .bsr16 p _ m | .bsr32 p _ m => lenOp2 p m
  | .btReg16 p m _ | .btReg32 p m _ | .btcReg16 p m _ | .btcReg32 p m _
  | .btrReg16 p m _ | .btrReg32 p m _ | .btsReg16 p m _ | .btsReg32 p m _ => lenOp2 p m
  | .btImm16 p m _ | .btImm32 p m _ | .btcImm16 p m _ | .btcImm32 p m _
  | .btrImm16 p m _ | .btrImm32 p m _ | .btsImm16 p m _ | .btsImm32 p m _ => lenOp2Imm p m

/-! ## The machine-readable table -/

/-- One row of spec/opcode_table.json as R109 reads it: a mask and a pattern over the opcode window. -/
structure TableRow where
  spelling : String
  /-- Bytes of the window: 2 for `OP1_MODRM`, 3 for the other two formats. -/
  windowBytes : Nat
  mask : BitVec 24
  pattern : BitVec 24
  width : Size
  deriving DecidableEq, Repr

/-- The 22 rows, in the table's order (R94, R109). -/
def opcodeTable : List TableRow :=
  [⟨"BOUND r16,m16&16", 2, 0xFF00, 0x6200, .w16⟩, ⟨"BOUND r32,m32&32", 2, 0xFF00, 0x6200, .w32⟩,
   ⟨"BSF r16,r/m16", 3, 0xFFFF00, 0x0FBC00, .w16⟩, ⟨"BSF r32,r/m32", 3, 0xFFFF00, 0x0FBC00, .w32⟩,
   ⟨"BSR r16,r/m16", 3, 0xFFFF00, 0x0FBD00, .w16⟩, ⟨"BSR r32,r/m32", 3, 0xFFFF00, 0x0FBD00, .w32⟩,
   ⟨"BT r/m16,r16", 3, 0xFFFF00, 0x0FA300, .w16⟩, ⟨"BT r/m32,r32", 3, 0xFFFF00, 0x0FA300, .w32⟩,
   ⟨"BT r/m16,imm8", 3, 0xFFFF38, 0x0FBA20, .w16⟩, ⟨"BT r/m32,imm8", 3, 0xFFFF38, 0x0FBA20, .w32⟩] ++
  [⟨"BTC r/m16,r16", 3, 0xFFFF00, 0x0FBB00, .w16⟩, ⟨"BTC r/m32,r32", 3, 0xFFFF00, 0x0FBB00, .w32⟩,
   ⟨"BTC r/m16,imm8", 3, 0xFFFF38, 0x0FBA38, .w16⟩, ⟨"BTC r/m32,imm8", 3, 0xFFFF38, 0x0FBA38, .w32⟩,
   ⟨"BTR r/m16,r16", 3, 0xFFFF00, 0x0FB300, .w16⟩, ⟨"BTR r/m32,r32", 3, 0xFFFF00, 0x0FB300, .w32⟩,
   ⟨"BTR r/m16,imm8", 3, 0xFFFF38, 0x0FBA30, .w16⟩, ⟨"BTR r/m32,imm8", 3, 0xFFFF38, 0x0FBA30, .w32⟩,
   ⟨"BTS r/m16,r16", 3, 0xFFFF00, 0x0FAB00, .w16⟩, ⟨"BTS r/m32,r32", 3, 0xFFFF00, 0x0FAB00, .w32⟩,
   ⟨"BTS r/m16,imm8", 3, 0xFFFF38, 0x0FBA28, .w16⟩, ⟨"BTS r/m32,imm8", 3, 0xFFFF38, 0x0FBA28, .w32⟩]

/-- The opcode window of an instruction's bytes: from the opcode up to and including the ModRM byte (R109). -/
def Instr.windowBytes (i : Instr) : List Byte := i.opcode ++ (encodeRM i.regField i.rm).take 1

/-- A window read as one big-endian number (R109). -/
def windowNumber (bs : List Byte) : BitVec 24 :=
  bs.foldl (fun n b => (n <<< (8 : Nat)) ||| b.setWidth 24) 0

/-- A window selects a row when `w AND mask = match` and the operand size is the row's (R109). -/
def TableRow.selects (r : TableRow) (w : Size) (window : List Byte) : Bool :=
  window.length == r.windowBytes && windowNumber window &&& r.mask == r.pattern && w == r.width

/-! ## The host's question about a table word -/

/-- `k` bytes of a number, the least significant first. -/
def leBytes : Nat → Nat → List Byte
  | 0, _ => []
  | k + 1, v => BitVec.ofNat 8 v :: leBytes k (v / 256)

/-- Whether an instruction was decoded. -/
def Decoded.instr? : Decoded → Option Instr
  | .done i _ => some i
  | .more => none
  | .reject _ => none

/-- Whether a number is the opcode window of a row, most significant byte first (R109). A window of two bytes may have one more bit
above it, the row's `W` entry in the table's `fields`. -/
def TableRow.ofWindow (r : TableRow) (w : Nat) : Bool :=
  BitVec.ofNat 24 (w % 256 ^ r.windowBytes) &&& r.mask == r.pattern && decide (w / 256 ^ r.windowBytes ≤ 1)

/-- The bytes of a table word, padded with zero bytes up to the longest instruction (R103). A number that is an opcode window of R109
gives its bytes in the order R109 reads them; any other has the byte at the lowest address in bits 7:0, the next in bits 15:8, and so
on. notes/assumptions/12.md. -/
def tableBytes (nbits w : Nat) : List Byte :=
  let bs :=
    match opcodeTable.find? fun r => r.ofWindow w with
    | some r => (leBytes r.windowBytes w).reverse
    | none => leBytes ((nbits + 7) / 8) w
  bs ++ List.replicate (Config.maxLength - bs.length) 0

/-- The default sizes the machine has at reset: 16 and 16 (notes/assumptions/8.md). -/
def resetDefaults : Defaults := ⟨.w16, .w16⟩

/-- The instruction the decoder reads from a table word, under the default sizes of reset. -/
def decodeTableWord (nbits w : Nat) : Option Instr :=
  (decode resetDefaults (tableBytes nbits w)).instr?

end Sys2Proof
end

