-- ==== Sys2Proof/Machine/State.lean ====
section
/-! DEFINITION. Machine/State.lean: the state of the machine (spec/10_state.md R20, with the parameters of 00_scope.md R4, which no
step changes), the exceptions, faults and refusals, and the state after reset. Plain data throughout. -/

namespace Sys2Proof.Machine

/-- The eight general registers, 32 bits each (10_state.md R21). -/
structure Regs where
  eax : Dword
  ecx : Dword
  edx : Dword
  ebx : Dword
  esp : Dword
  ebp : Dword
  esi : Dword
  edi : Dword
  deriving DecidableEq, Repr

/-- The known bits of EFLAGS, each its own (10_state.md R26, R27). Bit 1 reads as 1 and the others as 0: `Flags.word`. -/
structure Flags where
  CF : Bool
  PF : Bool
  AF : Bool
  ZF : Bool
  SF : Bool
  TF : Bool
  IF : Bool
  DF : Bool
  OF : Bool
  IOPL : BitVec 2
  NT : Bool
  RF : Bool
  VM : Bool
  deriving DecidableEq, Repr

/-- The access kinds of `Translate` (20_memory.md R64). -/
inductive AccessKind
  | fetch
  | read
  | write
  | rmw
  deriving DecidableEq, Repr

/-- The three processor modes (00_scope.md R4, 60_exceptions.md R212). -/
inductive Mode
  | protectedMode
  | realAddress
  | virtual8086
  deriving DecidableEq, Repr

/-- Offsets `lo` to `hi` of a segment are legal for the kinds set: an access is legal when some window of its segment holds all of
it and admits its kind. Part of the parameter `Translate` (20_memory.md R64); read in Protected Mode only. notes/assumptions/2.md. -/
structure Window where
  lo : Nat
  hi : Nat
  fetch : Bool
  read : Bool
  write : Bool
  rmw : Bool
  deriving DecidableEq, Repr

/-- The accesses of one kind at offsets `lo` to `hi` and of `least` to `most` bytes. notes/assumptions/3.md. -/
structure AccessBox where
  kind : AccessKind
  lo : Nat
  hi : Nat
  least : Nat
  most : Nat
  deriving DecidableEq, Repr

/-- A segment register: an opaque input of `Translate` (10_state.md R29). `selector` is what software would load; the rest is the
segment's part of `Translate` (20_memory.md R64): what a byte's offset is added to where no page run maps it, which accesses are legal in
Protected Mode, whether the segment is writable, and the accesses of which, where they are both illegal and a write to a nonwritable
segment, `GP(0)` is reported first (notes/assumptions/3.md). No instruction writes a segment register. -/
structure SegReg where
  selector : Word
  base : Nat
  windows : List Window
  writable : Bool
  rightsFirst : List AccessBox
  deriving DecidableEq, Repr

/-- The six segment registers (10_state.md R29). -/
structure SegRegs where
  es : SegReg
  cs : SegReg
  ss : SegReg
  ds : SegReg
  fs : SegReg
  gs : SegReg
  deriving DecidableEq, Repr

/-- Where accesses find their bytes (20_memory.md R64): offsets `lo` to `lo + len - 1` of a segment are at `phys` onward, for the kind
given; a run of kind `rmw` serves reads and writes alike. notes/assumptions/2.md. -/
structure PageRun where
  seg : Seg
  kind : AccessKind
  lo : Nat
  len : Nat
  phys : Nat
  deriving DecidableEq, Repr

/-- A page fault of `Translate` (20_memory.md R64): a byte at offsets `lo` to `hi` of a segment has a page fault with this `fault-code`, an
opaque number (60_exceptions.md R205), in every access of the kind that reaches at least `before` bytes below it and `after` bytes above
it. With 0 and 0 it is a fault of the byte in every access. notes/assumptions/2.md. -/
structure PageFault where
  seg : Seg
  kind : AccessKind
  lo : Nat
  hi : Nat
  before : Nat
  after : Nat
  code : Nat
  deriving DecidableEq, Repr

/-- Physical byte addresses `lo` to `hi`, both in. -/
structure AddrRange where
  lo : Nat
  hi : Nat
  deriving DecidableEq, Repr

/-- `FLAGS_UNLISTED` (00_scope.md R4, 10_state.md R27). -/
inductive FlagPolicy
  | preserve
  | draw
  deriving DecidableEq, Repr

/-- The parameters of 00_scope.md R4 that are constant during a run: `MODE`, the default sizes, the page part of `Translate` (its
segment part is in the segment registers), `RAM`, the addresses of `CODE` (its bytes are memory's), `FLAGS_UNLISTED`. `splitFault` is the
`fault-code` of a read-modify-write of a byte whose read and write addresses differ. notes/assumptions/1.md, 2.md. -/
structure Params where
  mode : Mode
  defaults : Defaults
  pages : List PageRun
  pageFaults : List PageFault
  splitFault : Nat
  ram : List AddrRange
  code : List AddrRange
  flagsUnlisted : FlagPolicy
  deriving DecidableEq, Repr

/-- Memory: the bytes that are known, by physical address (10_state.md R30). Canonical form: `Memory.wf`. -/
abbrev Memory := List Host.Cell

/-- The state of the machine (10_state.md R20). -/
structure State where
  regs : Regs
  eip : Dword
  flags : Flags
  segs : SegRegs
  mem : Memory
  params : Params
  /-- The model's own field: how many undefined values have been drawn (notes/assumptions/6.md). -/
  draws : Nat
  deriving DecidableEq, Repr

/-- The exceptions of 60_exceptions.md R200, by name, before they are taken. -/
inductive Exc
  | interrupt5
  | ud
  | gp0
  | ss0
  | pf (code : Nat)
  | interrupt13
  deriving DecidableEq, Repr

/-- What the outcome `Trap(vector, error_code, return_eip, state)` of 00_scope.md R12 carries. -/
structure TrapRecord where
  vector : Nat
  errorCode : Option Nat
  returnEip : Dword
  /-- The state before the instruction, unchanged. -/
  state : State
  deriving DecidableEq, Repr

/-- The outcome `Trap` (00_scope.md R12), one constructor per exception of 60_exceptions.md R200. The spec describes no entry into a
handler: a trap ends the run (R208). Each is safe: the model has no run that continues after it, so it errs toward unprovable. -/
inductive Fault
  /-- BOUND, index out of bounds, every mode (R201). Safe. -/
  | interrupt5 (t : TrapRecord)
  /-- BOUND with a register second operand, every mode (R202). Safe. -/
  | ud (t : TrapRecord)
  /-- A memory operand or a fetch, Protected Mode: illegal address outside SS, or a write to a nonwritable segment (R203). Safe. -/
  | gp0 (t : TrapRecord)
  /-- A memory operand, Protected Mode: illegal address in SS (R204). Safe. -/
  | ss0 (t : TrapRecord)
  /-- A memory operand or a fetch, Protected or Virtual 8086 Mode: page fault (R205). Safe. -/
  | pf (t : TrapRecord)
  /-- A memory operand or a fetch, Real Address or Virtual 8086 Mode: a byte beyond offset 0FFFFH (R203). Safe. -/
  | interrupt13 (t : TrapRecord)
  deriving DecidableEq, Repr

/-- The outcome `Refuse(reason)` (00_scope.md R12): the spec gives the bytes or the situation no meaning. Each is safe: nothing can
be proved of a run that meets it. -/
inductive Refusal
  /-- An instruction whose meaning has not been written; raised by the dispatch only. Safe. -/
  | notModelled (mnemonic : String)
  /-- The fetch: bytes that are none of the 22 forms, or a fetch outside `CODE` (30_encoding.md R105, 20_memory.md R69). Safe. -/
  | notInSpec
  /-- The fetch: LOCK, REP, REPNE or a repeated prefix (30_encoding.md R91). Safe. -/
  | prefixNotAdmitted
  /-- A memory bit base whose address sum leaves 0 to 2^A - 1 (42_bit_test.md R186), or EIP past the top of its space on completion of
  any instruction (10_state.md R25). Safe. -/
  | addressArithmeticOverflow
  /-- A memory operand or a fetch with a byte outside `RAM` (20_memory.md R62). Safe. -/
  | notRAM
  /-- BTC, BTR, BTS on memory with a byte in `CODE` (20_memory.md R68). Safe. -/
  | codeOverwrite
  deriving DecidableEq, Repr

/-- Why an operation gives no value: it raises an exception, or the spec refuses the situation (00_scope.md R10). -/
inductive Stop
  | raise (e : Exc)
  | refuse (r : Refusal)
  deriving DecidableEq, Repr

/-- A segment register in Real Address Mode after RESET: limit FFFFH, writable (10_state.md R33; notes/assumptions/8.md). -/
def SegReg.atReset (selector : Word) (base : Nat) : SegReg where
  selector := selector
  base := base
  windows := [⟨0, 0xFFFF, true, true, true, true⟩]
  writable := true
  rightsFirst := []

/-- The machine right after reset. The spec states no reset value (10_state.md R34); the values of R33, the family's, are taken where
R33 has one, and zero elsewhere (notes/assumptions/8.md, 9.md); memory lists nothing and no program is loaded (11.md, 12.md). -/
def State.reset : State where
  regs := ⟨0, 0, 0x300, 0, 0, 0, 0, 0⟩
  eip := 0x0000FFF0
  flags := ⟨false, false, false, false, false, false, false, false, false, 0, false, false, false⟩
  segs :=
    { es := .atReset 0 0
      cs := .atReset 0xF000 0xFFFF0000
      ss := .atReset 0 0
      ds := .atReset 0 0
      fs := .atReset 0 0
      gs := .atReset 0 0 }
  mem := []
  params :=
    { mode := .realAddress
      defaults := resetDefaults
      pages := []
      pageFaults := []
      splitFault := 0
      ram := [⟨0, 0xFFFFFFFF⟩]
      code := []
      flagsUnlisted := .preserve }
  draws := 0

end Sys2Proof.Machine
end

