-- ==== Sys2Proof/Machine/Ops.lean ====
section
/-! DEFINITION. Machine/Ops.lean: the named operations over registers, memory and EIP: register access (spec/10_state.md R21, R22),
memory cells, `Translate` (20_memory.md R64), the access primitives (R53), taking an exception (60_exceptions.md R208) and completing
an instruction (10_state.md R25). -/

namespace Sys2Proof.Machine

/-! ## Registers -/

/-- The whole 32-bit register, `x32[i]` (00_scope.md R10). -/
def Regs.get (g : Regs) : Reg → Dword
  | .eax => g.eax
  | .ecx => g.ecx
  | .edx => g.edx
  | .ebx => g.ebx
  | .esp => g.esp
  | .ebp => g.ebp
  | .esi => g.esi
  | .edi => g.edi

/-- Write a whole 32-bit register. -/
def Regs.set (g : Regs) (r : Reg) (v : Dword) : Regs :=
  match r with
  | .eax => { g with eax := v }
  | .ecx => { g with ecx := v }
  | .edx => { g with edx := v }
  | .ebx => { g with ebx := v }
  | .esp => { g with esp := v }
  | .ebp => { g with ebp := v }
  | .esi => { g with esi := v }
  | .edi => { g with edi := v }

/-- `x[i]` at width `w`: bits `w-1:0` of the register (10_state.md R22). -/
def readReg (w : Size) (r : Reg) (s : State) : BitVec w.bits := (s.regs.get r).setWidth w.bits

/-- The bits of a 32-bit register that width `w` covers: 15:0 or 31:0 (10_state.md R22). -/
def widthMask (w : Size) : Dword := (BitVec.allOnes w.bits).setWidth 32

/-- The register value after a write of `v` at width `w`: the bits above the width keep their value (10_state.md R22). -/
def mergeLow (w : Size) (old : Dword) (v : BitVec w.bits) : Dword := (old &&& ~~~widthMask w) ||| v.setWidth 32

/-! ## Named updates of the state -/

/-- `x[i] <- v` at width `w` (10_state.md R22). -/
def State.setReg (s : State) (w : Size) (r : Reg) (v : BitVec w.bits) : State :=
  { s with regs := s.regs.set r (mergeLow w (s.regs.get r) v) }

/-- `CF <- b`. -/
def State.setCF (s : State) (b : Bool) : State := { s with flags := { s.flags with CF := b } }

/-- `ZF <- b`. -/
def State.setZF (s : State) (b : Bool) : State := { s with flags := { s.flags with ZF := b } }

/-- Replace memory. -/
def State.setMem (s : State) (m : Memory) : State := { s with mem := m }

/-- `pc <- e`. -/
def State.setEip (s : State) (e : Dword) : State := { s with eip := e }

/-- `k` more undefined values have been drawn. -/
def State.addDraws (s : State) (k : Nat) : State := { s with draws := s.draws + k }

/-! ## Memory -/

/-- The byte listed at an address, if one is. -/
def Memory.get : Memory → Nat → Option Byte
  | [], _ => none
  | (x, b) :: m, a => if x = a then some b else Memory.get m a

/-- List a byte at an address, keeping the addresses strictly rising. -/
def Memory.set : Memory → Nat → Byte → Memory
  | [], a, b => [(a, b)]
  | (x, c) :: m, a, b =>
    if a < x then (a, b) :: (x, c) :: m
    else if a = x then (a, b) :: m
    else (x, c) :: Memory.set m a b

/-- The canonical form: addresses strictly rising. What an unlisted address reads as is no value of the list's (`Memory.get` answers
`none`), so no entry can equal it. notes/assumptions/10.md. -/
def Memory.wf : Memory → Bool
  | [] => true
  | c :: m => m.all (fun d => c.1 < d.1) && Memory.wf m

/-- The byte at a physical address: the one listed, and where none is the launch value, which is free (10_state.md R34, 20_memory.md
R65 point 3). -/
def readByte (s : State) (a : Nat) : Byte := (Memory.get s.mem a).getD (Config.launchByte a)

/-- The bytes at a list of physical addresses. -/
def loadBytes (s : State) (ps : List Nat) : List Byte := ps.map (readByte s)

/-- Store bytes at a list of physical addresses, in order (20_memory.md R53). -/
def Memory.setBytes : Memory → List Nat → List Byte → Memory
  | m, p :: ps, b :: bs => Memory.setBytes (Memory.set m p b) ps bs
  | m, _, _ => m

/-- The value of bytes, little-endian (20_memory.md R52). -/
def leValue : List Byte → Nat
  | [] => 0
  | b :: bs => b.toNat + 256 * leValue bs

/-- Whether a set of physical addresses holds one. -/
def inRanges (rs : List AddrRange) (a : Nat) : Bool := rs.any fun r => r.lo ≤ a && a ≤ r.hi

/-! ## Translate (20_memory.md R64) -/

/-- The segment register of a segment. -/
def SegRegs.get (g : SegRegs) : Seg → SegReg
  | .es => g.es
  | .cs => g.cs
  | .ss => g.ss
  | .ds => g.ds
  | .fs => g.fs
  | .gs => g.gs

/-- Whether a window admits a kind; `rmw` asks for `read` and `write` too (R64 point 5). -/
def Window.admits (x : Window) : AccessKind → Bool
  | .fetch => x.fetch
  | .read => x.read
  | .write => x.write
  | .rmw => x.rmw && x.read && x.write

/-- Whether `k` bytes at offset `off` are a legal access of this kind in Protected Mode: none lies beyond offset 2^32 - 1 (R54) and
some window holds them all. -/
def SegReg.legal (g : SegReg) (off k : Nat) (kind : AccessKind) : Bool :=
  off + k - 1 ≤ Config.lastOffset32 &&
    g.windows.any fun x => x.lo ≤ off && off + k - 1 ≤ x.hi && x.admits kind

/-- Whether an access is a write to a nonwritable segment (R56). -/
def SegReg.writeBarred (g : SegReg) : AccessKind → Bool
  | .fetch | .read => false
  | .write | .rmw => !g.writable

/-- The fault of an illegal address: `SS(0)` in SS, `GP(0)` in the other five (R56). -/
def illegalAddress : Seg → Exc
  | .ss => .ss0
  | .es | .cs | .ds | .fs | .gs => .gp0

/-- Whether a box holds an access. -/
def AccessBox.holds (x : AccessBox) (off k : Nat) (kind : AccessKind) : Bool :=
  x.kind == kind && x.lo ≤ off && off ≤ x.hi && x.least ≤ k && k ≤ x.most

/-- The fault of an access of Protected Mode whose address is illegal: that of the illegal address, or, where the access is a write to a
nonwritable segment too, `GP(0)` if the segment lists the access among those whose rights come first (R56; notes/assumptions/3.md). -/
def illegalFault (s : State) (seg : Seg) (off k : Nat) (kind : AccessKind) : Exc :=
  let g := s.segs.get seg
  if g.writeBarred kind && g.rightsFirst.any fun x => x.holds off k kind then .gp0 else illegalAddress seg

/-- The segment-level fault of an access, if it has one (R55 to R57, R64 points 1 to 3). -/
def segFault (s : State) (seg : Seg) (off k : Nat) (kind : AccessKind) : Option Exc :=
  match s.params.mode with
  | .realAddress | .virtual8086 => if off + k - 1 > Config.lastOffset16 then some .interrupt13 else none
  | .protectedMode =>
    let g := s.segs.get seg
    if !g.legal off k kind then some (illegalFault s seg off k kind)
    else if g.writeBarred kind then some .gp0
    else none

/-- Whether a run serves an access of a kind: a read-modify-write is served as a read is. -/
def PageRun.serves (r : PageRun) : AccessKind → Bool
  | .fetch => r.kind == .fetch
  | .read | .rmw => r.kind == .read || r.kind == .rmw
  | .write => r.kind == .write || r.kind == .rmw

/-- Where the byte at an offset of a segment is for a kind: in the first run that holds it, else at the segment's base plus the offset. -/
def mappedByte (s : State) (seg : Seg) (kind : AccessKind) (off : Nat) : Nat :=
  match s.params.pages.find? fun r => r.seg == seg && r.serves kind && r.lo ≤ off && off < r.lo + r.len with
  | some r => r.phys + (off - r.lo)
  | none => (s.segs.get seg).base + off

/-- The physical address of the byte at an offset of a segment for an access of a kind. In Real Address Mode, where a read-modify-write
has no fault but `Interrupt13` (R64 point 1), writes are where reads are (R64 point 5). -/
def byteAddr (s : State) (seg : Seg) (kind : AccessKind) (off : Nat) : Nat :=
  match s.params.mode, kind with
  | .realAddress, .write => mappedByte s seg .read off
  | _, _ => mappedByte s seg kind off

/-- Whether a page fault concerns an access of a kind: one of a read or of a write concerns a read-modify-write too (R64 point 5). -/
def PageFault.concerns (f : PageFault) : AccessKind → Bool
  | .fetch => f.kind == .fetch
  | .read => f.kind == .read
  | .write => f.kind == .write
  | .rmw => f.kind == .rmw || f.kind == .read || f.kind == .write

/-- Whether a page fault is one of byte `j` of an access of `k` bytes. -/
def PageFault.strikes (f : PageFault) (seg : Seg) (off k : Nat) (kind : AccessKind) (j : Nat) : Bool :=
  f.seg == seg && f.concerns kind && f.lo ≤ off + j && off + j ≤ f.hi && f.before ≤ j && j + f.after < k

/-- The `fault-code` of byte `j` of an access, if the byte has a page fault. Real Address Mode has none (R64 point 1); a
read-modify-write of a byte whose read and write addresses differ is one (R64 point 5). -/
def byteFault (s : State) (seg : Seg) (off k : Nat) (kind : AccessKind) (j : Nat) : Option Nat :=
  match s.params.mode with
  | .realAddress => none
  | .protectedMode | .virtual8086 =>
    match s.params.pageFaults.find? fun f => f.strikes seg off k kind j with
    | some f => some f.code
    | none =>
      if kind == .rmw && byteAddr s seg .read (off + j) != byteAddr s seg .write (off + j) then some s.params.splitFault
      else none

/-- The page fault of an access, if it has one: that of its lowest byte that has one (60_exceptions.md R207 point 3). -/
def pageFault (s : State) (seg : Seg) (off k : Nat) (kind : AccessKind) : Option Nat :=
  (List.range k).findSome? (byteFault s seg off k kind)

/-- `Translate(MODE, seg, off, k, kind)` (R64): segment-level faults before page-level ones (60_exceptions.md R207 point 3). -/
def translate (s : State) (seg : Seg) (off k : Nat) (kind : AccessKind) : Except Exc (List Nat) :=
  match segFault s seg off k kind with
  | some e => .error e
  | none =>
    match pageFault s seg off k kind with
    | some c => .error (.pf c)
    | none => .ok ((List.range k).map fun j => byteAddr s seg kind (off + j))

/-! ## The access primitives (20_memory.md R53) -/

/-- Whether an access of this kind stores. -/
def AccessKind.stores : AccessKind → Bool
  | .fetch | .read => false
  | .write | .rmw => true

/-- `MemCheck(seg, off, k, kind)`: the physical addresses of a checked access (R53, R62, R68). -/
def memCheck (s : State) (seg : Seg) (off k : Nat) (kind : AccessKind) : Except Stop (List Nat) :=
  match translate s seg off k kind with
  | .error e => .error (.raise e)
  | .ok ps =>
    if !ps.all (inRanges s.params.ram) then .error (.refuse .notRAM)
    else if kind.stores && ps.any (inRanges s.params.code) then .error (.refuse .codeOverwrite)
    else .ok ps

/-- `MemRead(seg, off, k)`: the little-endian value of `k` bytes (R52, R53). -/
def memRead (s : State) (seg : Seg) (off k : Nat) : Except Stop Nat :=
  match memCheck s seg off k .read with
  | .error e => .error e
  | .ok ps => .ok (leValue (loadBytes s ps))

/-- `MemWrite(seg, off, k, v)`: store `k` bytes of `v`, little-endian (R52, R53). -/
def memWrite (s : State) (seg : Seg) (off k v : Nat) : Except Stop State :=
  match memCheck s seg off k .write with
  | .error e => .error e
  | .ok ps => .ok (s.setMem (Memory.setBytes s.mem ps (leBytes k v)))

/-! ## Taking an exception -/

/-- The vector of an exception (60_exceptions.md R200). -/
def Exc.vector : Exc → Nat
  | .interrupt5 => 5
  | .ud => 6
  | .ss0 => 12
  | .gp0 => 13
  | .pf _ => 14
  | .interrupt13 => 13

/-- The error code of an exception, if it has one (60_exceptions.md R200, R203). -/
def Exc.errorCode : Exc → Option Nat
  | .interrupt5 => none
  | .ud => none
  | .ss0 => some 0
  | .gp0 => some 0
  | .pf c => some c
  | .interrupt13 => none

/-- What the trap of an exception carries: `return_eip` is `pc`, and the state is the one before the instruction (60_exceptions.md
R206, R208). -/
def trapRecord (e : Exc) (s : State) : TrapRecord where
  vector := e.vector
  errorCode := e.errorCode
  returnEip := s.eip
  state := s

/-- `raise E`: the run ends in the outcome `Trap` (00_scope.md R10, R12; 60_exceptions.md R208). `s` is the state before the
instruction. -/
def takeException (e : Exc) (s : State) : Host.Outcome State Fault Refusal :=
  match e with
  | .interrupt5 => .fault (.interrupt5 (trapRecord e s))
  | .ud => .fault (.ud (trapRecord e s))
  | .gp0 => .fault (.gp0 (trapRecord e s))
  | .ss0 => .fault (.ss0 (trapRecord e s))
  | .pf _ => .fault (.pf (trapRecord e s))
  | .interrupt13 => .fault (.interrupt13 (trapRecord e s))

/-- An operation that gives no value ends the instruction: a trap or a refusal (00_scope.md R12). -/
def stop (e : Stop) (s : State) : Host.Outcome State Fault Refusal :=
  match e with
  | .raise x => takeException x s
  | .refuse r => .refused r

/-! ## Completing an instruction -/

/-- The largest value EIP may take in a mode (10_state.md R25). -/
def lastEip : Mode → Nat
  | .protectedMode => Config.lastOffset32
  | .realAddress | .virtual8086 => Config.lastOffset16

/-- `pc + len`, unless it lies past the top of the space (10_state.md R25). -/
def nextEip (s : State) (len : Nat) : Option Dword :=
  if s.eip.toNat + len > lastEip s.params.mode then none else some (BitVec.ofNat 32 (s.eip.toNat + len))

/-- `pc <- pc + len`: the instruction that began in `before` and has made `after` of it ends with outcome `Next` (10_state.md R25). -/
def complete (len : Nat) (before after : State) : Host.Outcome State Fault Refusal :=
  match nextEip before len with
  | none => .refused .addressArithmeticOverflow
  | some e => .next (after.setEip e)

end Sys2Proof.Machine
end

