-- ==== Sys2Proof/Machine/Flags.lean ====
section
/-! DEFINITION. Machine/Flags.lean: the flags register as a word and every flag rule of the seven instructions (spec/10_state.md R26,
R27; 41_bit_scan.md R154; 42_bit_test.md R183). -/

namespace Sys2Proof.Machine

/-- EFLAGS as a 32-bit word: the known bits at their places, bit 1 as 1, the rest as 0 (10_state.md R27). -/
def Flags.word (f : Flags) : Dword :=
  let bit (b : Bool) (n : Nat) : Dword := (BitVec.ofBool b).setWidth 32 <<< n
  2 ||| bit f.CF 0 ||| bit f.PF 2 ||| bit f.AF 4 ||| bit f.ZF 6 ||| bit f.SF 7 ||| bit f.TF 8 ||| bit f.IF 9 |||
    bit f.DF 10 ||| bit f.OF 11 ||| (f.IOPL.setWidth 32 <<< (12 : Nat)) ||| bit f.NT 14 ||| bit f.RF 16 ||| bit f.VM 17

/-- `draw_1()`: the free bit `k` draws from now (00_scope.md R10). -/
def drawBit (s : State) (k : Nat) : Bool := (Config.undefDraw 1 (s.draws + k)).getLsbD 0

/-- What happens to the flags "Flags Affected" does not list (10_state.md R27): nothing under `preserve`; under `draw`, OF, SF, AF, PF
become free bits, and CF too after BSF and BSR (`withCF`). -/
def unlistedFlags (withCF : Bool) (s : State) : State :=
  match s.params.flagsUnlisted with
  | .preserve => s
  | .draw =>
    { s with
      flags :=
        { s.flags with
          OF := drawBit s 0
          SF := drawBit s 1
          AF := drawBit s 2
          PF := drawBit s 3
          CF := if withCF then drawBit s 4 else s.flags.CF }
      draws := s.draws + 5 }

/-- The flags after BSF and BSR: ZF says whether the source was zero (41_bit_scan.md R154). -/
def scanFlags (zero : Bool) (s : State) : State := unlistedFlags true (s.setZF zero)

/-- The flags after BT, BTC, BTR, BTS: CF is the old value of the selected bit (42_bit_test.md R183). -/
def bitFlags (old : Bool) (s : State) : State := unlistedFlags false (s.setCF old)

end Sys2Proof.Machine
end

