-- ==== Sys2Proof/Machine/Operands.lean ====
section
/-! DEFINITION. Machine/Operands.lean: every operand form: the effective address and segment of a memory operand (spec/30_encoding.md
R97 to R100) and the value of a register-or-memory operand (41_bit_scan.md R150). -/

namespace Sys2Proof.Machine

/-- The register sum of a 16-bit form, modulo 2^16 (30_encoding.md R99). -/
def Base16.value (b : Base16) (g : Regs) : Word :=
  let x (r : Reg) : Word := (g.get r).setWidth 16
  match b with
  | .bxSi => x .ebx + x .esi
  | .bxDi => x .ebx + x .edi
  | .bpSi => x .ebp + x .esi
  | .bpDi => x .ebp + x .edi
  | .si => x .esi
  | .di => x .edi
  | .bp => x .ebp
  | .bx => x .ebx

/-- A 16-bit form's displacement; `disp8` is sign-extended (30_encoding.md R99). -/
def Disp16.value : Disp16 → Word
  | .none => 0
  | .d8 d => d.signExtend 16
  | .d16 d => d

/-- A 32-bit form's displacement; `disp8` is sign-extended (30_encoding.md R97). -/
def Disp32.value : Disp32 → Dword
  | .none => 0
  | .d8 d => d.signExtend 32
  | .d32 d => d

/-- `index_part` of a SIB form: nothing when the index field is 4 (30_encoding.md R98). -/
def indexPart (scale : BitVec 2) (index : Reg) (g : Regs) : Dword :=
  if index = .esp then 0 else g.get index <<< scale.toNat

/-- `ea`, the effective address: an A-bit value (30_encoding.md R97 to R99). The bytes after it are not wrapped (20_memory.md R54); where
they pass 2^A - 1, notes/assumptions/31.md. -/
def effAddr (m : MemOp) (g : Regs) : Nat :=
  match m with
  | .base16 b d => (Base16.value b g + Disp16.value d).toNat
  | .abs16 d => d.toNat
  | .base32 b d => (g.get b + Disp32.value d).toNat
  | .abs32 d => d.toNat
  | .sib s x b d => (g.get b + indexPart s x g + Disp32.value d).toNat
  | .sibAbs s x d => (d + indexPart s x g).toNat

/-- The address size `A` of a memory operand (30_encoding.md R93). -/
def memOpSize : MemOp → Size
  | .base16 _ _ | .abs16 _ => .w16
  | .base32 _ _ | .abs32 _ | .sib _ _ _ _ | .sibAbs _ _ _ => .w32

/-- The segment a base register selects by default at A = 32 (30_encoding.md R97, R98). -/
def baseSeg : Reg → Seg
  | .esp | .ebp => .ss
  | .eax | .ecx | .edx | .ebx | .esi | .edi => .ds

/-- The default segment of a memory operand (30_encoding.md R97 to R99). -/
def defaultSeg : MemOp → Seg
  | .base16 .bpSi _ | .base16 .bpDi _ | .base16 .bp _ => .ss
  | .base16 .bxSi _ | .base16 .bxDi _ | .base16 .si _ | .base16 .di _ | .base16 .bx _ => .ds
  | .abs16 _ => .ds
  | .base32 b _ => baseSeg b
  | .abs32 _ => .ds
  | .sib _ _ b _ => baseSeg b
  | .sibAbs _ _ _ => .ds

/-- The segment of a memory operand: the override's, else the default (30_encoding.md R100). -/
def operandSeg (pre : List Prefix) (m : MemOp) : Seg := (segOverride pre).getD (defaultSeg m)

/-- The value of a register-or-memory source (41_bit_scan.md R150). -/
def readRM (w : Size) (pre : List Prefix) (rm : RM) (s : State) : Except Stop (BitVec w.bits) :=
  match rm with
  | .reg r => .ok (readReg w r s)
  | .mem m =>
    match memRead s (operandSeg pre m) (effAddr m s.regs) w.bytes with
    | .error e => .error e
    | .ok v => .ok (BitVec.ofNat w.bits v)

end Sys2Proof.Machine
end

