-- ==== Sys2Proof/Machine/BitScan.lean ====
section
/-! DEFINITION. Machine/BitScan.lean: BSF and BSR (spec/41_bit_scan.md). -/

namespace Sys2Proof.Machine

/-- The least set bit of a nonzero pattern, scanning upward from bit 0 (41_bit_scan.md R151). -/
def lowestSet {n : Nat} (v : BitVec n) : Nat := ((List.range n).find? fun i => v.getLsbD i).getD 0

/-- The greatest set bit of a nonzero pattern, scanning downward from bit n - 1 (41_bit_scan.md R152). -/
def highestSet {n : Nat} (v : BitVec n) : Nat := ((List.range n).reverse.find? fun i => v.getLsbD i).getD 0

/-- The destination and flags after a scan of `src` (R151 to R154): a zero source makes ZF 1 and the destination a free value of `w`
bits; any other makes ZF 0 and the destination the index `scan` finds. -/
def scanResult (w : Size) (scan : BitVec w.bits → Nat) (dst : Reg) (src : BitVec w.bits) (s : State) : State :=
  if src = 0 then scanFlags true ((s.setReg w dst (Config.undefDraw w.bits s.draws)).addDraws 1)
  else scanFlags false (s.setReg w dst (BitVec.ofNat w.bits (scan src)))

/-- BSF and BSR at width `w` (R150 to R152): the source is read first, then the destination and ZF are written. -/
def bitScan (w : Size) (scan : BitVec w.bits → Nat) (len : Nat) (pre : List Prefix) (dst : Reg) (rm : RM) (s : State) :
    Host.Outcome State Fault Refusal :=
  match readRM w pre rm s with
  | .error e => stop e s
  | .ok src => complete len s (scanResult w scan dst src s)

/-- `BSF r16,r/m16` (R151). -/
def execBsf16 (pre : List Prefix) (dst : Reg) (rm : RM) (s : State) : Host.Outcome State Fault Refusal :=
  bitScan .w16 lowestSet (lenOp2 pre rm) pre dst rm s

/-- `BSF r32,r/m32` (R151). -/
def execBsf32 (pre : List Prefix) (dst : Reg) (rm : RM) (s : State) : Host.Outcome State Fault Refusal :=
  bitScan .w32 lowestSet (lenOp2 pre rm) pre dst rm s

/-- `BSR r16,r/m16` (R152). -/
def execBsr16 (pre : List Prefix) (dst : Reg) (rm : RM) (s : State) : Host.Outcome State Fault Refusal :=
  bitScan .w16 highestSet (lenOp2 pre rm) pre dst rm s

/-- `BSR r32,r/m32` (R152). -/
def execBsr32 (pre : List Prefix) (dst : Reg) (rm : RM) (s : State) : Host.Outcome State Fault Refusal :=
  bitScan .w32 highestSet (lenOp2 pre rm) pre dst rm s

end Sys2Proof.Machine
end

