-- ==== Sys2Proof/Machine/BitTest.lean ====
section
/-! DEFINITION. Machine/BitTest.lean: BT, BTC, BTR, BTS (spec/42_bit_test.md). -/

namespace Sys2Proof.Machine

/-- What an instruction does to the selected bit after copying it to CF (42_bit_test.md R173). -/
inductive BitUpdate
  | complement
  | reset
  | set
  deriving DecidableEq, Repr

/-- `new(old)` (42_bit_test.md R176, R178, R180). -/
def BitUpdate.new : BitUpdate → Bool → Bool
  | .complement, b => !b
  | .reset, _ => false
  | .set, _ => true

/-- The second operand: a register or an immediate byte (30_encoding.md R96). -/
inductive BitOffset
  | reg (r : Reg)
  | imm (b : Byte)
  deriving DecidableEq, Repr

/-- The bit index with a register base: the offset, read unsigned, modulo W (42_bit_test.md R170, R172). -/
def regBitIndex (w : Size) (o : BitOffset) (s : State) : Nat :=
  match o with
  | .reg r => (readReg w r s).toNat % w.bits
  | .imm b => b.toNat % w.bits

/-- `BitOffset` with a memory base: a register read as signed, an immediate modulo W (42_bit_test.md R171, R172). -/
def memBitOffset (w : Size) (o : BitOffset) (s : State) : Int :=
  match o with
  | .reg r => (readReg w r s).toInt
  | .imm b => (b.toNat % w.bits : Nat)

/-- `a fdiv b`, the floor of a/b for positive b (00_scope.md R11). -/
def fdiv (a : Int) (b : Nat) : Int := a / (b : Int)

/-- `a fmod b`, in 0 to b - 1 (00_scope.md R11). -/
def fmod (a : Int) (b : Nat) : Nat := (a % (b : Int)).toNat

/-- `addr = ea + n * (BitOffset fdiv W)`, an unbounded integer (42_bit_test.md R171, R186). -/
def bitAddr (w : Size) (ea : Nat) (offset : Int) : Int := ea + w.bytes * fdiv offset w.bits

/-- The address of the n bytes a memory bit form touches, or nothing where the sum leaves 0 to 2^A - 1 (42_bit_test.md R186). -/
def bitAddrIn (w : Size) (m : MemOp) (o : BitOffset) (s : State) : Option Nat :=
  let a := bitAddr w (effAddr m s.regs) (memBitOffset w o s)
  if a < 0 ∨ a > 2 ^ (memOpSize m).bits - 1 then none else some a.toNat

/-- `v` with bit `b` replaced by `c`: `(v AND NOT 2^b) OR (c * 2^b)` (42_bit_test.md R173). -/
def replaceBit {n : Nat} (v : BitVec n) (b : Nat) (c : Bool) : BitVec n :=
  (v &&& ~~~(1#n <<< b)) ||| ((BitVec.ofBool c).setWidth n <<< b)

/-- The access kind of a memory bit form: `read` for BT, `rmw` for the others (42_bit_test.md R173). -/
def bitKind : Option BitUpdate → AccessKind
  | none => .read
  | some _ => .rmw

/-- The check of the n bytes at `addr` (42_bit_test.md R173, R182). Where `addr` is in range but `addr + n - 1` is past 2^A - 1 the access
faults (R186, 20_memory.md R54): outside Protected Mode, and at A = 32, every such access does by `Translate`; at A = 16 in Protected
Mode its address is illegal, whatever the segment holds above 0FFFFH (DEDUCED: which fault; notes/assumptions/31.md). -/
def bitCheck (w : Size) (u : Option BitUpdate) (pre : List Prefix) (m : MemOp) (addr : Nat) (s : State) : Except Stop (List Nat) :=
  if s.params.mode = .protectedMode ∧ addr + w.bytes - 1 > 2 ^ (memOpSize m).bits - 1 then
    .error (.raise (illegalFault s (operandSeg pre m) addr w.bytes (bitKind u)))
  else memCheck s (operandSeg pre m) addr w.bytes (bitKind u)

/-- The register form's effect (42_bit_test.md R173, `mod` = 3): every read before any write. -/
def bitOnReg (w : Size) (u : Option BitUpdate) (r : Reg) (o : BitOffset) (s : State) : State :=
  let v := readReg w r s
  let b := regBitIndex w o s
  let old := v.getLsbD b
  match u with
  | none => bitFlags old s
  | some u => bitFlags old (s.setReg w r (replaceBit v b (u.new old)))

/-- The memory form's effect on the n checked bytes (42_bit_test.md R173, `mod` != 3; 20_memory.md R61). -/
def bitOnMem (w : Size) (u : Option BitUpdate) (ps : List Nat) (o : BitOffset) (s : State) : State :=
  let v : BitVec w.bits := BitVec.ofNat w.bits (leValue (loadBytes s ps))
  let b := fmod (memBitOffset w o s) w.bits
  let old := v.getLsbD b
  match u with
  | none => bitFlags old s
  | some u => bitFlags old (s.setMem (Memory.setBytes s.mem ps (leBytes w.bytes (replaceBit v b (u.new old)).toNat)))

/-- The template `BitOp` (42_bit_test.md R173), with one check of the n bytes first (20_memory.md R61, R71). -/
def bitOp (w : Size) (u : Option BitUpdate) (len : Nat) (pre : List Prefix) (rm : RM) (o : BitOffset) (s : State) :
    Host.Outcome State Fault Refusal :=
  match rm with
  | .reg r => complete len s (bitOnReg w u r o s)
  | .mem m =>
    match bitAddrIn w m o s with
    | none => .refused .addressArithmeticOverflow
    | some a =>
      match bitCheck w u pre m a s with
      | .error e => stop e s
      | .ok ps => complete len s (bitOnMem w u ps o s)

/-- `BT r/m16,r16` (R174). -/
def execBtReg16 (pre : List Prefix) (rm : RM) (reg : Reg) (s : State) : Host.Outcome State Fault Refusal :=
  bitOp .w16 none (lenOp2 pre rm) pre rm (.reg reg) s

/-- `BT r/m32,r32` (R174). -/
def execBtReg32 (pre : List Prefix) (rm : RM) (reg : Reg) (s : State) : Host.Outcome State Fault Refusal :=
  bitOp .w32 none (lenOp2 pre rm) pre rm (.reg reg) s

/-- `BT r/m16,imm8` (R175). -/
def execBtImm16 (pre : List Prefix) (rm : RM) (imm : Byte) (s : State) : Host.Outcome State Fault Refusal :=
  bitOp .w16 none (lenOp2Imm pre rm) pre rm (.imm imm) s

/-- `BT r/m32,imm8` (R175). -/
def execBtImm32 (pre : List Prefix) (rm : RM) (imm : Byte) (s : State) : Host.Outcome State Fault Refusal :=
  bitOp .w32 none (lenOp2Imm pre rm) pre rm (.imm imm) s

/-- `BTC r/m16,r16` (R176). -/
def execBtcReg16 (pre : List Prefix) (rm : RM) (reg : Reg) (s : State) : Host.Outcome State Fault Refusal :=
  bitOp .w16 (some .complement) (lenOp2 pre rm) pre rm (.reg reg) s

/-- `BTC r/m32,r32` (R176). -/
def execBtcReg32 (pre : List Prefix) (rm : RM) (reg : Reg) (s : State) : Host.Outcome State Fault Refusal :=
  bitOp .w32 (some .complement) (lenOp2 pre rm) pre rm (.reg reg) s

/-- `BTC r/m16,imm8` (R177). -/
def execBtcImm16 (pre : List Prefix) (rm : RM) (imm : Byte) (s : State) : Host.Outcome State Fault Refusal :=
  bitOp .w16 (some .complement) (lenOp2Imm pre rm) pre rm (.imm imm) s

/-- `BTC r/m32,imm8` (R177). -/
def execBtcImm32 (pre : List Prefix) (rm : RM) (imm : Byte) (s : State) : Host.Outcome State Fault Refusal :=
  bitOp .w32 (some .complement) (lenOp2Imm pre rm) pre rm (.imm imm) s

/-- `BTR r/m16,r16` (R178). -/
def execBtrReg16 (pre : List Prefix) (rm : RM) (reg : Reg) (s : State) : Host.Outcome State Fault Refusal :=
  bitOp .w16 (some .reset) (lenOp2 pre rm) pre rm (.reg reg) s

/-- `BTR r/m32,r32` (R178). -/
def execBtrReg32 (pre : List Prefix) (rm : RM) (reg : Reg) (s : State) : Host.Outcome State Fault Refusal :=
  bitOp .w32 (some .reset) (lenOp2 pre rm) pre rm (.reg reg) s

/-- `BTR r/m16,imm8` (R179). -/
def execBtrImm16 (pre : List Prefix) (rm : RM) (imm : Byte) (s : State) : Host.Outcome State Fault Refusal :=
  bitOp .w16 (some .reset) (lenOp2Imm pre rm) pre rm (.imm imm) s

/-- `BTR r/m32,imm8` (R179). -/
def execBtrImm32 (pre : List Prefix) (rm : RM) (imm : Byte) (s : State) : Host.Outcome State Fault Refusal :=
  bitOp .w32 (some .reset) (lenOp2Imm pre rm) pre rm (.imm imm) s

/-- `BTS r/m16,r16` (R180). -/
def execBtsReg16 (pre : List Prefix) (rm : RM) (reg : Reg) (s : State) : Host.Outcome State Fault Refusal :=
  bitOp .w16 (some .set) (lenOp2 pre rm) pre rm (.reg reg) s

/-- `BTS r/m32,r32` (R180). -/
def execBtsReg32 (pre : List Prefix) (rm : RM) (reg : Reg) (s : State) : Host.Outcome State Fault Refusal :=
  bitOp .w32 (some .set) (lenOp2 pre rm) pre rm (.reg reg) s

/-- `BTS r/m16,imm8` (R181). -/
def execBtsImm16 (pre : List Prefix) (rm : RM) (imm : Byte) (s : State) : Host.Outcome State Fault Refusal :=
  bitOp .w16 (some .set) (lenOp2Imm pre rm) pre rm (.imm imm) s

/-- `BTS r/m32,imm8` (R181). -/
def execBtsImm32 (pre : List Prefix) (rm : RM) (imm : Byte) (s : State) : Host.Outcome State Fault Refusal :=
  bitOp .w32 (some .set) (lenOp2Imm pre rm) pre rm (.imm imm) s

end Sys2Proof.Machine
end

