-- ==== Sys2Proof/Machine/Bound.lean ====
section
/-! DEFINITION. Machine/Bound.lean: BOUND (spec/40_bound.md). -/

namespace Sys2Proof.Machine

/-- BOUND at width `w` (40_bound.md R140): UD for a register (R144), the check of the whole bounds block (R145), the lower and the
upper bound (R141), the signed comparison (R142), Interrupt 5 (R143). -/
def bound (w : Size) (len : Nat) (pre : List Prefix) (reg : Reg) (rm : RM) (s : State) : Host.Outcome State Fault Refusal :=
  match rm with
  | .reg _ => takeException .ud s
  | .mem m =>
    match memCheck s (operandSeg pre m) (effAddr m s.regs) (2 * w.bytes) .read with
    | .error e => stop e s
    | .ok ps =>
      let lower : BitVec w.bits := BitVec.ofNat w.bits (leValue (loadBytes s (ps.take w.bytes)))
      let upper : BitVec w.bits := BitVec.ofNat w.bits (leValue (loadBytes s (ps.drop w.bytes)))
      let idx := (readReg w reg s).toInt
      if idx < lower.toInt ∨ idx > upper.toInt then takeException .interrupt5 s else complete len s s

/-- `BOUND r16,m16&16` (R140). -/
def execBound16 (pre : List Prefix) (reg : Reg) (rm : RM) (s : State) : Host.Outcome State Fault Refusal :=
  bound .w16 (lenOp1 pre rm) pre reg rm s

/-- `BOUND r32,m32&32` (R140). -/
def execBound32 (pre : List Prefix) (reg : Reg) (rm : RM) (s : State) : Host.Outcome State Fault Refusal :=
  bound .w32 (lenOp1 pre rm) pre reg rm s

end Sys2Proof.Machine
end

