-- ==== Sys2Proof/Machine/Dispatch.lean ====
section
/-! DEFINITION. Machine/Dispatch.lean: one arm per constructor of `Instr`, each a direct call of the instruction's meaning. -/

namespace Sys2Proof.Machine

def exec (i : Instr) (s : State) : Host.Outcome State Fault Refusal :=
  match i with
  | .bound16 pre reg rm => Sys2Proof.Machine.execBound16 pre reg rm s
  | .bound32 pre reg rm => Sys2Proof.Machine.execBound32 pre reg rm s
  | .bsf16 pre reg rm => Sys2Proof.Machine.execBsf16 pre reg rm s
  | .bsf32 pre reg rm => Sys2Proof.Machine.execBsf32 pre reg rm s
  | .bsr16 pre reg rm => Sys2Proof.Machine.execBsr16 pre reg rm s
  | .bsr32 pre reg rm => Sys2Proof.Machine.execBsr32 pre reg rm s
  | .btReg16 pre rm reg => Sys2Proof.Machine.execBtReg16 pre rm reg s
  | .btReg32 pre rm reg => Sys2Proof.Machine.execBtReg32 pre rm reg s
  | .btImm16 pre rm imm => Sys2Proof.Machine.execBtImm16 pre rm imm s
  | .btImm32 pre rm imm => Sys2Proof.Machine.execBtImm32 pre rm imm s
  | .btcReg16 pre rm reg => Sys2Proof.Machine.execBtcReg16 pre rm reg s
  | .btcReg32 pre rm reg => Sys2Proof.Machine.execBtcReg32 pre rm reg s
  | .btcImm16 pre rm imm => Sys2Proof.Machine.execBtcImm16 pre rm imm s
  | .btcImm32 pre rm imm => Sys2Proof.Machine.execBtcImm32 pre rm imm s
  | .btrReg16 pre rm reg => Sys2Proof.Machine.execBtrReg16 pre rm reg s
  | .btrReg32 pre rm reg => Sys2Proof.Machine.execBtrReg32 pre rm reg s
  | .btrImm16 pre rm imm => Sys2Proof.Machine.execBtrImm16 pre rm imm s
  | .btrImm32 pre rm imm => Sys2Proof.Machine.execBtrImm32 pre rm imm s
  | .btsReg16 pre rm reg => Sys2Proof.Machine.execBtsReg16 pre rm reg s
  | .btsReg32 pre rm reg => Sys2Proof.Machine.execBtsReg32 pre rm reg s
  | .btsImm16 pre rm imm => Sys2Proof.Machine.execBtsImm16 pre rm imm s
  | .btsImm32 pre rm imm => Sys2Proof.Machine.execBtsImm32 pre rm imm s

end Sys2Proof.Machine
end

