-- ==== Sys2Proof/Machine/Fetch.lean ====
section
/-! DEFINITION. Machine/Fetch.lean: fetching and decoding the instruction at `pc` (spec/20_memory.md R69; 30_encoding.md R106), and
placing an instruction's bytes where they will be fetched. -/

namespace Sys2Proof.Machine

/-- `byte(i)`: the byte at offset `pc + i` of CS. Outside `CODE` is `refuse(NotInSpec)` (20_memory.md R69); an address of `CODE` is in
`RAM` too (R62, R68). -/
def fetchByte (s : State) (i : Nat) : Except Stop Byte :=
  match translate s .cs (s.eip.toNat + i) 1 .fetch with
  | .error e => .error (.raise e)
  | .ok ps =>
    if !ps.all (inRanges s.params.code) then .error (.refuse .notInSpec)
    else if !ps.all (inRanges s.params.ram) then .error (.refuse .notRAM)
    else .ok (BitVec.ofNat 8 (leValue (loadBytes s ps)))

/-- The decoder's refusals as the step's (00_scope.md R12). -/
def refusalOf : DecodeError → Refusal
  | .prefixNotAdmitted => .prefixNotAdmitted
  | .notInSpec => .notInSpec

/-- Fetch and decode: the decoder sees the bytes read so far, and one more is fetched only when it needs one (R69). `fuel` bounds the
bytes still to fetch; no admitted instruction needs more than 12 (30_encoding.md R103). -/
def fetchFrom (s : State) : Nat → List Byte → Except Stop Instr
  | fuel, got =>
    match decode s.params.defaults got with
    | .done i _ => .ok i
    | .reject e => .error (.refuse (refusalOf e))
    | .more =>
      match fuel with
      | 0 => .error (.refuse .notInSpec)
      | fuel + 1 =>
        match fetchByte s got.length with
        | .error e => .error e
        | .ok b => fetchFrom s fuel (got ++ [b])

/-- The instruction at `pc`, or why there is none (30_encoding.md R106). -/
def fetchInstr (s : State) : Except Stop Instr := fetchFrom s Config.maxLength []

/-- Place bytes at offsets `pc + i`, `pc + i + 1`, ... of CS: the bytes go to memory, their addresses to `CODE` and `RAM`. -/
def placeBytes (s : State) : Nat → List Byte → State
  | _, [] => s
  | i, b :: bs =>
    match translate s .cs (s.eip.toNat + i) 1 .fetch with
    | .ok [p] =>
      placeBytes
        { s with
          mem := Memory.set s.mem p b
          params := { s.params with ram := s.params.ram ++ [⟨p, p⟩], code := s.params.code ++ [⟨p, p⟩] } }
        (i + 1) bs
    | .ok _ => s
    | .error _ => s

end Sys2Proof.Machine
end

