-- ==== Sys2Proof/Machine/Step.lean ====
section
/-! DEFINITION. Machine/Step.lean: one step (spec/00_scope.md R12): fetch and decode the instruction at EIP, then run it. -/

namespace Sys2Proof.Machine

/-- One step: an instruction's meaning (which advances EIP itself, 10_state.md R25), a trap or a refusal. -/
def step (s : State) : Host.Outcome State Fault Refusal :=
  match fetchInstr s with
  | .error e => stop e s
  | .ok i => exec i s

/-- `s` with the instruction of a table word loaded where the next step fetches: at CS:EIP, in memory, in `CODE` and in `RAM`
(notes/assumptions/12.md). -/
def State.withFetchWord (s : State) (nbits w : Nat) : State :=
  placeBytes s 0 (tableBytes nbits w)

end Sys2Proof.Machine
end

