-- ==== Sys2Proof/Machine/Timing.lean ====
section
/-! DEFINITION. Machine/Timing.lean: the Clocks column of the source, transcribed (spec/70_reset_and_hazards.md R245, R246). No step
reads it: the spec's model has no clock. notes/assumptions/26.md. -/

namespace Sys2Proof.Machine

/-- A cell of the Clocks column (R245). -/
inductive Clocks
  /-- `10` "(passes test)": no figure for a failing test. -/
  | passing (n : Nat)
  /-- `base + perZero*n`, n the zero bits the scan passes over (R246). -/
  | scan (base perZero : Nat)
  /-- `a/b`: register operand, memory operand. -/
  | regOrMem (reg mem : Nat)
  deriving DecidableEq, Repr

/-- The Clocks cell of a row (R245). -/
def clocksOf : Instr → Clocks
  | .bound16 .. | .bound32 .. => .passing 10
  | .bsf16 .. | .bsf32 .. | .bsr16 .. | .bsr32 .. => .scan 10 3
  | .btReg16 .. | .btReg32 .. => .regOrMem 3 12
  | .btImm16 .. | .btImm32 .. => .regOrMem 3 6
  | .btcReg16 .. | .btcReg32 .. | .btrReg16 .. | .btrReg32 .. | .btsReg16 .. | .btsReg32 .. => .regOrMem 6 13
  | .btcImm16 .. | .btcImm32 .. | .btrImm16 .. | .btrImm32 .. | .btsImm16 .. | .btsImm32 .. => .regOrMem 6 8

/-- The `n` of `10+3n` for BSF: the zero bits below the lowest set bit, the result (R246). -/
def forwardZeros (result : Nat) : Nat := result

/-- The `n` of `10+3n` for BSR: the zero bits above the highest set bit (R246). -/
def reverseZeros (w : Size) (result : Nat) : Nat := w.bits - 1 - result

/-- The figure a cell prints for an operand form and a count of zero bits. -/
def Clocks.figure (c : Clocks) (memory : Bool) (zeros : Nat) : Nat :=
  match c with
  | .passing n => n
  | .scan base perZero => base + perZero * zeros
  | .regOrMem r m => if memory then m else r

end Sys2Proof.Machine
end

