-- ==== Sys2Proof/Safety.lean ====
section
/-! DEFINITION. Safety.lean: what a run is and how it ends (spec/70_reset_and_hazards.md R247), the premises of a run the model can
state (R241), and the words the statements use. -/

namespace Sys2Proof.Machine

/-! ## Runs -/

/-- How a run stands after some steps (R247). -/
inductive RunEnd
  /-- (a): a step would begin with EIP = `END_EIP`. The only good end. -/
  | good (s : State)
  /-- (b): a trap. -/
  | trap (f : Fault)
  /-- (c): a refusal. -/
  | refuse (r : Refusal)
  /-- The steps allowed are used up. -/
  | going (s : State)
  deriving DecidableEq, Repr

/-- A run of at most `n` steps; `endEip` is the parameter `END_EIP`, and no instruction is fetched there (R247). -/
def runTo (endEip : Dword) : Nat → State → RunEnd
  | n, s =>
    if s.eip = endEip then .good s
    else
      match n with
      | 0 => .going s
      | n + 1 =>
        match step s with
        | .next t => runTo endEip n t
        | .fault f => .trap f
        | .refused r => .refuse r

/-! ## Premises -/

/-- `Map`: `CODE` lies inside `RAM` (20_memory.md R68, 70_reset_and_hazards.md R241). -/
def CodeInRam (s : State) : Prop := ∀ a, inRanges s.params.code a = true → inRanges s.params.ram a = true

/-- EIP lies in the space of the mode (10_state.md R25). -/
def EipInSpace (s : State) : Prop := s.eip.toNat ≤ lastEip s.params.mode

/-- `pc + len` does not leave the space of the mode, so the instruction can complete (10_state.md R25). -/
abbrev EipFits (s : State) (len : Nat) : Prop := s.eip.toNat + len ≤ lastEip s.params.mode

/-- `pc + len` (10_state.md R25). -/
def eipAfter (s : State) (len : Nat) : Dword := s.eip + BitVec.ofNat 32 len

/-- The invariant of the machine: memory is in canonical form, EIP lies in the space of the mode (10_state.md R25), `CODE` lies in
`RAM` (20_memory.md R68). -/
def MachineInv (s : State) : Prop := Memory.wf s.mem = true ∧ EipInSpace s ∧ CodeInRam s

/-! ## Values -/

/-- `sint_W(v)`: the two's-complement integer of a W-bit pattern (00_scope.md R10). -/
def sint (w : Size) (v : Nat) : Int :=
  if v < 2 ^ (w.bits - 1) then (v : Int) else (v : Int) - 2 ^ w.bits

/-- A 32-bit form's displacement as the integer the addressing table adds (30_encoding.md R97, R101). -/
def Disp32.asInt : Disp32 → Int
  | .none => 0
  | .d8 d => d.toInt
  | .d32 d => d.toNat

/-- A 16-bit form's displacement as the integer the addressing table adds (30_encoding.md R99, R101). -/
def Disp16.asInt : Disp16 → Int
  | .none => 0
  | .d8 d => d.toInt
  | .d16 d => d.toNat

/-- The registers a 16-bit form adds (30_encoding.md R99). -/
def Base16.regs : Base16 → List Reg
  | .bxSi => [.ebx, .esi]
  | .bxDi => [.ebx, .edi]
  | .bpSi => [.ebp, .esi]
  | .bpDi => [.ebp, .edi]
  | .si => [.esi]
  | .di => [.edi]
  | .bp => [.ebp]
  | .bx => [.ebx]

/-! ## Traps -/

/-- What a trap carries. -/
def Fault.record : Fault → TrapRecord
  | .interrupt5 t | .ud t | .gp0 t | .ss0 t | .pf t | .interrupt13 t => t

/-- The conditions the exception lists give for a fault of a memory operand of `k` bytes at offset `off`, by mode (20_memory.md R55 to
R57; 41_bit_scan.md R155; 42_bit_test.md R182). -/
def OperandFault (s : State) (seg : Seg) (off k : Nat) (kind : AccessKind) : Exc → Prop
  | .gp0 => s.params.mode = .protectedMode ∧ (seg ≠ .ss ∨ kind.stores = true ∧ (s.segs.get seg).writable = false)
  | .ss0 => s.params.mode = .protectedMode ∧ seg = .ss
  | .pf _ => s.params.mode = .protectedMode ∨ s.params.mode = .virtual8086 ∧ off + k - 1 ≤ 0xFFFF
  | .interrupt13 => (s.params.mode = .realAddress ∨ s.params.mode = .virtual8086) ∧ off + k - 1 > 0xFFFF
  | .ud => False
  | .interrupt5 => False

/-- How an instruction ends whose operand passes the top of its address space (20_memory.md R54 to R57): Interrupt 13 outside Protected
Mode; in Protected Mode the fault of an illegal address, SS(0) in SS and GP(0) elsewhere, where GP(0) in SS needs a store to a
nonwritable segment. -/
def EndsPastTheTop (s : State) (seg : Seg) (stores : Bool) (r : Host.Outcome State Fault Refusal) : Prop :=
  (s.params.mode ≠ .protectedMode → r = takeException .interrupt13 s) ∧
    (s.params.mode = .protectedMode →
      r = takeException (if seg = .ss then .ss0 else .gp0) s ∨
        seg = .ss ∧ stores = true ∧ (s.segs.get seg).writable = false ∧ r = takeException .gp0 s)

/-! ## Flags -/

/-- The flags BSF and BSR leave: ZF as in `written`, and under `FLAGS_UNLISTED = draw` OF, SF, AF, PF and CF too; every other flag as in
`kept` (10_state.md R26, R27). -/
def flagsAfterScan (policy : FlagPolicy) (kept written : Flags) : Flags :=
  match policy with
  | .preserve => { kept with ZF := written.ZF }
  | .draw =>
    { kept with
      ZF := written.ZF, OF := written.OF, SF := written.SF, AF := written.AF, PF := written.PF, CF := written.CF }

/-- The flags BT, BTC, BTR and BTS leave: CF as in `written`, and under `FLAGS_UNLISTED = draw` OF, SF, AF and PF too; every other flag
as in `kept` (10_state.md R26, R27). -/
def flagsAfterBit (policy : FlagPolicy) (kept written : Flags) : Flags :=
  match policy with
  | .preserve => { kept with CF := written.CF }
  | .draw => { kept with CF := written.CF, OF := written.OF, SF := written.SF, AF := written.AF, PF := written.PF }

/-- The flags an instruction leaves: those it writes as in `written`, every other as in `kept`; BOUND writes none (10_state.md R26). -/
def flagsAfter (i : Instr) (policy : FlagPolicy) (kept written : Flags) : Flags :=
  match i with
  | .bound16 .. | .bound32 .. => kept
  | .bsf16 .. | .bsf32 .. | .bsr16 .. | .bsr32 .. => flagsAfterScan policy kept written
  | .btReg16 .. | .btReg32 .. | .btImm16 .. | .btImm32 .. | .btcReg16 .. | .btcReg32 .. | .btcImm16 .. | .btcImm32 ..
  | .btrReg16 .. | .btrReg32 .. | .btrImm16 .. | .btrImm32 .. | .btsReg16 .. | .btsReg32 .. | .btsImm16 .. | .btsImm32 .. =>
    flagsAfterBit policy kept written

/-- OF, SF, AF and PF of `t`, and CF where `withCF` says so, are free bits, each a draw made after `s` (10_state.md R27,
`FLAGS_UNLISTED = draw`; notes/assumptions/6.md, 7.md). -/
def FlagsDrawn (withCF : Bool) (s t : State) : Prop :=
  ∃ n, s.draws ≤ n ∧ n + 5 ≤ t.draws ∧
    t.flags.OF = (Config.undefDraw 1 n).getLsbD 0 ∧ t.flags.SF = (Config.undefDraw 1 (n + 1)).getLsbD 0 ∧
    t.flags.AF = (Config.undefDraw 1 (n + 2)).getLsbD 0 ∧ t.flags.PF = (Config.undefDraw 1 (n + 3)).getLsbD 0 ∧
    (withCF = true → t.flags.CF = (Config.undefDraw 1 (n + 4)).getLsbD 0)

/-! ## Instructions by shape -/

/-- The four bit instructions (42_bit_test.md). -/
inductive BitInstr
  | bt
  | btc
  | btr
  | bts
  deriving DecidableEq, Repr

/-- What each does to the selected bit (42_bit_test.md R174 to R181): the new value from the old, or nothing for BT. -/
def BitInstr.newBit : BitInstr → Bool → Option Bool
  | .bt, _ => none
  | .btc, b => some (!b)
  | .btr, _ => some false
  | .bts, _ => some true

/-- Whether the instruction writes its destination: BTC, BTR, BTS do. -/
def BitInstr.writes : BitInstr → Bool
  | .bt => false
  | .btc | .btr | .bts => true

/-- The constructor of a bit instruction with a register offset: `btReg16`, `btReg32`, `btcReg16`, `btcReg32`, `btrReg16`,
`btrReg32`, `btsReg16`, `btsReg32`. -/
def BitInstr.withReg : BitInstr → Size → List Prefix → RM → Reg → Instr
  | .bt, .w16, p, m, r => .btReg16 p m r
  | .bt, .w32, p, m, r => .btReg32 p m r
  | .btc, .w16, p, m, r => .btcReg16 p m r
  | .btc, .w32, p, m, r => .btcReg32 p m r
  | .btr, .w16, p, m, r => .btrReg16 p m r
  | .btr, .w32, p, m, r => .btrReg32 p m r
  | .bts, .w16, p, m, r => .btsReg16 p m r
  | .bts, .w32, p, m, r => .btsReg32 p m r

/-- The constructor of a bit instruction with an immediate offset: `btImm16`, `btImm32`, `btcImm16`, `btcImm32`, `btrImm16`,
`btrImm32`, `btsImm16`, `btsImm32`. -/
def BitInstr.withImm : BitInstr → Size → List Prefix → RM → Byte → Instr
  | .bt, .w16, p, m, b => .btImm16 p m b
  | .bt, .w32, p, m, b => .btImm32 p m b
  | .btc, .w16, p, m, b => .btcImm16 p m b
  | .btc, .w32, p, m, b => .btcImm32 p m b
  | .btr, .w16, p, m, b => .btrImm16 p m b
  | .btr, .w32, p, m, b => .btrImm32 p m b
  | .bts, .w16, p, m, b => .btsImm16 p m b
  | .bts, .w32, p, m, b => .btsImm32 p m b

/-- The constructor of a bit instruction by its second operand. -/
def BitInstr.withOffset (k : BitInstr) (w : Size) (pre : List Prefix) (rm : RM) : BitOffset → Instr
  | .reg r => k.withReg w pre rm r
  | .imm b => k.withImm w pre rm b

/-- The constructor of BOUND: `bound16`, `bound32`. -/
def boundInstr : Size → List Prefix → Reg → RM → Instr
  | .w16, p, r, m => .bound16 p r m
  | .w32, p, r, m => .bound32 p r m

/-- The constructor of BSF: `bsf16`, `bsf32`. -/
def bsfInstr : Size → List Prefix → Reg → RM → Instr
  | .w16, p, r, m => .bsf16 p r m
  | .w32, p, r, m => .bsf32 p r m

/-- The constructor of BSR: `bsr16`, `bsr32`. -/
def bsrInstr : Size → List Prefix → Reg → RM → Instr
  | .w16, p, r, m => .bsr16 p r m
  | .w32, p, r, m => .bsr32 p r m

end Sys2Proof.Machine
end

