-- ==== Sys2Proof/Certificates/Slice0/Obligations.lean ====
section
/-! DEFINITION. The statements for the provers. Each docstring names the rule of spec/ it formalises. -/

open Sys2Proof Sys2Proof.Machine

/-! ## Encoding -/

/-- 30_encoding.md R90 to R106: decoding the encoding of a well-formed instruction gives it back, with every operand at every value,
whatever bytes follow. -/
def Obligations.DecodeOfEncodeIsTheInstruction : Prop :=
  ∀ (d : Defaults) (i : Instr) (rest : List Byte), wellFormed d i = true → decode d (encode i ++ rest) = .done i rest

/-- 30_encoding.md R106: what the decoder reads is a well-formed instruction, and the bytes it read are its encoding: each sequence of
bytes has at most one meaning and no bit of it is dropped. -/
def Obligations.DecodedBytesAreTheEncoding : Prop :=
  ∀ (d : Defaults) (bs : List Byte) (i : Instr) (rest : List Byte),
    decode d bs = .done i rest → wellFormed d i = true ∧ bs = encode i ++ rest

/-- 20_memory.md R69: the decoder asks for a byte exactly while the instruction is not complete: it asks after every proper beginning of
the encoding of a well-formed instruction, and bytes after which it asks are such a beginning, so it never asks for a byte it does not
need; one that asks has read fewer than 12. -/
def Obligations.DecoderAsksOnlyForTheBytesItNeeds : Prop :=
  (∀ (d : Defaults) (i : Instr) (n : Nat), wellFormed d i = true → n < i.length → decode d ((encode i).take n) = .more) ∧
    ∀ (d : Defaults) (bs : List Byte), decode d bs = .more → bs.length < 12 ∧
      ∃ (i : Instr) (needed : List Byte), wellFormed d i = true ∧ needed ≠ [] ∧ encode i = bs ++ needed

/-- 30_encoding.md R103: `2 <= len <= 12`. -/
def Obligations.AdmittedInstructionHasTwoToTwelveBytes : Prop :=
  ∀ (d : Defaults) (i : Instr), wellFormed d i = true → 2 ≤ i.length ∧ i.length ≤ 12

/-- 30_encoding.md R109: the window of an instruction selects the row of its own spelling in the machine-readable table and no other. -/
def Obligations.OpcodeTableSelectsExactlyTheRow : Prop :=
  ∀ (i : Instr) (r : TableRow), r ∈ opcodeTable → (r.selects i.width i.windowBytes = true ↔ r.spelling = i.spelling)

/-- 95_test_vectors.md E4, E8, E20, E32, E42, E43, E46: words written out by the spec decode to the instructions it names. -/
def Obligations.SpecEncodingVectorsDecode : Prop :=
  decode ⟨.w32, .w32⟩ [0x62, 0x94, 0xC8, 0x78, 0x56, 0x34, 0x12] =
      .done (.bound32 [] .edx (.mem (.sib 3 .ecx .eax (.d32 0x12345678)))) [] ∧
    decode ⟨.w32, .w32⟩ [0x66, 0x0F, 0xBC, 0xC3] = .done (.bsf16 [.opSize] .eax (.reg .ebx)) [] ∧
    decode ⟨.w32, .w32⟩ [0x66, 0x0F, 0xBA, 0xE0, 0x13] = .done (.btImm16 [.opSize] (.reg .eax) 0x13) [] ∧
    decode ⟨.w32, .w32⟩ [0x0F, 0xBA, 0x6C, 0x24, 0x04, 0x01] =
      .done (.btsImm32 [] (.mem (.sib 0 .esp .esp (.d8 4))) 1) [] ∧
    decode ⟨.w16, .w16⟩ [0x0F, 0xBC, 0x4A, 0x02] = .done (.bsf16 [] .ecx (.mem (.base16 .bpSi (.d8 2)))) [] ∧
    decode ⟨.w16, .w16⟩ [0x0F, 0xBA, 0x2E, 0x34, 0x12, 0x09] = .done (.btsImm16 [] (.mem (.abs16 0x1234)) 9) [] ∧
    decode ⟨.w16, .w16⟩ [0x26, 0x67, 0x66, 0x0F, 0xBA, 0xAC, 0x24, 0x78, 0x56, 0x34, 0x12, 0x1F] =
      .done (.btsImm32 [.seg .es, .addrSize, .opSize] (.mem (.sib 0 .esp .esp (.d32 0x12345678))) 0x1F) []

/-- 30_encoding.md R91: LOCK, REPNE and REP are refused wherever admitted prefixes stand before them, and so is a second prefix of a
class already read. -/
def Obligations.InadmissiblePrefixesAreRefused : Prop :=
  ∀ (d : Defaults) (pre : List Prefix) (bs : List Byte), prefixesOk pre = true →
    (∀ b : Byte, b = 0xF0 ∨ b = 0xF2 ∨ b = 0xF3 →
      decode d (pre.map Prefix.byte ++ b :: bs) = .reject .prefixNotAdmitted) ∧
    ∀ p q : Prefix, q ∈ pre → p.sameClass q = true →
      decode d (pre.map Prefix.byte ++ p.byte :: bs) = .reject .prefixNotAdmitted

/-- 30_encoding.md R105: any other first opcode byte, any other byte after `0F`, and `0F BA` with digit 0 to 3 are no instruction of
the spec, after any admitted prefixes. -/
def Obligations.BytesOutsideTheTwentyTwoFormsAreRefused : Prop :=
  ∀ (d : Defaults) (pre : List Prefix) (bs : List Byte), prefixesOk pre = true →
    (∀ b : Byte, b ∉ ([0x62, 0x0F, 0x66, 0x67, 0x26, 0x2E, 0x36, 0x3E, 0x64, 0x65, 0xF0, 0xF2, 0xF3] : List Byte) →
      decode d (pre.map Prefix.byte ++ b :: bs) = .reject .notInSpec) ∧
    (∀ c : Byte, c ∉ ([0xBC, 0xBD, 0xA3, 0xAB, 0xB3, 0xBB, 0xBA] : List Byte) →
      decode d (pre.map Prefix.byte ++ 0x0F :: c :: bs) = .reject .notInSpec) ∧
    ∀ m : Byte, (midField m).toNat < 4 →
      decode d (pre.map Prefix.byte ++ 0x0F :: 0xBA :: m :: bs) = .reject .notInSpec

/-- 30_encoding.md R92: the operand size of the row a decoder answers is the default without a `66` prefix and `48 - DEFAULT_OPSIZE`
with one. -/
def Obligations.OperandSizeSelectsTheRow : Prop :=
  ∀ (d : Defaults) (bs : List Byte) (i : Instr) (rest : List Byte), decode d bs = .done i rest →
    (Prefix.opSize ∉ i.prefixes → i.width = d.opSize) ∧
      (Prefix.opSize ∈ i.prefixes → i.width.bits = 48 - d.opSize.bits)

/-- 30_encoding.md R93: the addressing table of a memory operand is the default's without a `67` prefix and the other one with it. -/
def Obligations.AddressSizeSelectsTheTable : Prop :=
  ∀ (d : Defaults) (bs : List Byte) (i : Instr) (rest : List Byte) (m : MemOp),
    decode d bs = .done i rest → i.rm = .mem m →
      (Prefix.addrSize ∉ i.prefixes → memOpSize m = d.addrSize) ∧
        (Prefix.addrSize ∈ i.prefixes → (memOpSize m).bits = 48 - d.addrSize.bits)

/-- 30_encoding.md R97, R98, R99: the effective address is the sum the addressing tables give, modulo 2^32 at A = 32 and modulo 2^16
at A = 16. -/
def Obligations.EffectiveAddressIsTheTablesSum : Prop :=
  ∀ g : Regs,
    (∀ (b : Base16) (d : Sys2Proof.Disp16), (effAddr (.base16 b d) g : Int) =
      (((Base16.regs b).map fun r => ((g.get r).toNat % 2 ^ 16 : Nat)).sum + Disp16.asInt d) % 2 ^ 16) ∧
    (∀ d : Word, effAddr (.abs16 d) g = d.toNat) ∧
    (∀ (b : Reg) (d : Sys2Proof.Disp32), (effAddr (.base32 b d) g : Int) = ((g.get b).toNat + Disp32.asInt d) % 2 ^ 32) ∧
    (∀ d : Dword, effAddr (.abs32 d) g = d.toNat) ∧
    (∀ (sc : BitVec 2) (x b : Reg) (d : Sys2Proof.Disp32), (effAddr (.sib sc x b d) g : Int) =
      ((g.get b).toNat + (if x = .esp then 0 else (g.get x).toNat * 2 ^ sc.toNat) + Disp32.asInt d) % 2 ^ 32) ∧
    ∀ (sc : BitVec 2) (x : Reg) (d : Dword),
      effAddr (.sibAbs sc x d) g = (d.toNat + if x = .esp then 0 else (g.get x).toNat * 2 ^ sc.toNat) % 2 ^ 32

/-- 30_encoding.md R97 to R100: a segment override names the segment of the memory operand; without one it is SS where the table's
base is BP, EBP or ESP, and DS otherwise, an index register never counting. -/
def Obligations.SegmentOfAMemoryOperand : Prop :=
  ∀ (pre : List Prefix) (m : MemOp), prefixesOk pre = true →
    (∀ g : Seg, Prefix.seg g ∈ pre → operandSeg pre m = g) ∧
    ((∀ g : Seg, Prefix.seg g ∉ pre) → operandSeg pre m =
      (match m with
        | .base16 b _ => if Reg.ebp ∈ Base16.regs b then Seg.ss else .ds
        | .base32 b _ => if b = .esp ∨ b = .ebp then .ss else .ds
        | .sib _ _ b _ => if b = .esp ∨ b = .ebp then .ss else .ds
        | .abs16 _ => .ds
        | .abs32 _ => .ds
        | .sibAbs _ _ _ => .ds))

/-! ## Steps -/

/-- 20_memory.md R69, 30_encoding.md R106: when the bytes at EIP are the encoding of a well-formed instruction, the step is that
instruction's meaning; the meaning itself advances EIP (10_state.md R25), the step adds nothing. -/
def Obligations.StepRunsTheDecodedInstruction : Prop :=
  ∀ (s : State) (i : Instr), wellFormed s.params.defaults i = true →
    (∀ (n : Nat) (h : n < (encode i).length), fetchByte s n = .ok (encode i)[n]) → step s = exec i s

/-- 20_memory.md R69, 60_exceptions.md R207 point 1: a fetch that faults or leaves `CODE` on a byte the decoder needs ends the step so,
before anything else. -/
def Obligations.StepStopsWhereTheFetchStops : Prop :=
  ∀ (s : State) (got : List Byte) (e : Stop), decode s.params.defaults got = .more →
    (∀ (n : Nat) (h : n < got.length), fetchByte s n = .ok got[n]) →
    fetchByte s got.length = .error e → step s = stop e s

/-- 30_encoding.md R106, 00_scope.md R12: bytes the decoder rejects end the step in that refusal as soon as the last of them is read. -/
def Obligations.StepRefusesWhatTheDecoderRejects : Prop :=
  ∀ (s : State) (got : List Byte) (b : Byte) (e : DecodeError), decode s.params.defaults got = .more →
    (∀ (n : Nat) (h : n < got.length), fetchByte s n = .ok got[n]) → fetchByte s got.length = .ok b →
    decode s.params.defaults (got ++ [b]) = .reject e → step s = .refused (refusalOf e)

/-! ## BOUND -/

/-- 40_bound.md R142, R140: a checked bounds block: BOUND (`bound16`, `bound32`) completes exactly when the index, the lower and the
upper bound, read as signed, satisfy lower <= index <= upper, both ends inside; it then changes nothing but EIP. -/
def Obligations.BoundPassesExactlyWithinItsBounds : Prop :=
  ∀ (w : Size) (pre : List Prefix) (reg : Reg) (m : MemOp) (s : State) (ps : List Nat) (lo up : Nat),
    memCheck s (operandSeg pre m) (effAddr m s.regs) (2 * w.bytes) .read = .ok ps →
    memRead s (operandSeg pre m) (effAddr m s.regs) w.bytes = .ok lo →
    memRead s (operandSeg pre m) (effAddr m s.regs + w.bytes) w.bytes = .ok up →
    EipFits s (boundInstr w pre reg (.mem m)).length →
    (sint w lo ≤ sint w (readReg w reg s).toNat ∧ sint w (readReg w reg s).toNat ≤ sint w up →
      exec (boundInstr w pre reg (.mem m)) s =
        .next { s with eip := eipAfter s (boundInstr w pre reg (.mem m)).length }) ∧
    ∀ t, exec (boundInstr w pre reg (.mem m)) s = .next t →
      sint w lo ≤ sint w (readReg w reg s).toNat ∧ sint w (readReg w reg s).toNat ≤ sint w up

/-- 60_exceptions.md R201, 40_bound.md R143: an index outside the bounds raises Interrupt 5, vector 5, no error code, return EIP at
BOUND, nothing changed, in every mode; and no other instruction raises it. -/
def Obligations.BoundOutsideBoundsRaisesInterrupt5 : Prop :=
  (∀ (w : Size) (pre : List Prefix) (reg : Reg) (m : MemOp) (s : State) (ps : List Nat) (lo up : Nat),
    memCheck s (operandSeg pre m) (effAddr m s.regs) (2 * w.bytes) .read = .ok ps →
    memRead s (operandSeg pre m) (effAddr m s.regs) w.bytes = .ok lo →
    memRead s (operandSeg pre m) (effAddr m s.regs + w.bytes) w.bytes = .ok up →
    sint w (readReg w reg s).toNat < sint w lo ∨ sint w up < sint w (readReg w reg s).toNat →
    exec (boundInstr w pre reg (.mem m)) s =
      .fault (.interrupt5 { vector := 5, errorCode := none, returnEip := s.eip, state := s })) ∧
  ∀ (i : Instr) (s : State) (t : TrapRecord), exec i s = .fault (.interrupt5 t) →
    ∃ w pre reg m, i = boundInstr w pre reg (.mem m)

/-- 60_exceptions.md R202, 30_encoding.md R104, 40_bound.md R144: BOUND with a register second operand raises UD, vector 6, no error
code, return EIP at BOUND, nothing changed, in every mode; the bytes `62 C0` to `62 FF` are such a BOUND, and once they are fetched
the step raises UD; only such a BOUND raises it; bytes outside the 22 forms do not, they are refused. -/
def Obligations.BoundWithRegisterRaisesUd : Prop :=
  (∀ (w : Size) (pre : List Prefix) (reg x : Reg) (s : State),
    exec (boundInstr w pre reg (.reg x)) s =
      .fault (.ud { vector := 6, errorCode := none, returnEip := s.eip, state := s })) ∧
  (∀ (d : Defaults) (m : Byte) (bs : List Byte), 0xC0 ≤ m →
    ∃ reg x, decode d (0x62 :: m :: bs) = .done (boundInstr d.opSize [] reg (.reg x)) bs) ∧
  (∀ (s : State) (m : Byte), 0xC0 ≤ m → fetchByte s 0 = .ok 0x62 → fetchByte s 1 = .ok m →
    step s = .fault (.ud { vector := 6, errorCode := none, returnEip := s.eip, state := s })) ∧
  (∀ (i : Instr) (s : State) (t : TrapRecord), exec i s = .fault (.ud t) → ∃ w pre reg x, i = boundInstr w pre reg (.reg x)) ∧
  (∀ (s : State) (t : TrapRecord), step s = .fault (.ud t) →
    ∃ w pre reg x, fetchInstr s = .ok (boundInstr w pre reg (.reg x))) ∧
  ∀ s : State, fetchInstr s = .error (.refuse .notInSpec) → step s = .refused .notInSpec

/-- 40_bound.md R145, 60_exceptions.md R207: a fault or refusal on any byte of the whole bounds block ends BOUND, whatever the index. -/
def Obligations.BoundBlockIsCheckedFirst : Prop :=
  ∀ (w : Size) (pre : List Prefix) (reg : Reg) (m : MemOp) (s : State) (e : Stop),
    memCheck s (operandSeg pre m) (effAddr m s.regs) (2 * w.bytes) .read = .error e →
    exec (boundInstr w pre reg (.mem m)) s = stop e s

/-- 10_state.md R35, 40_bound.md R140 (Writes): where BOUND completes, every register, flag, segment register, parameter and byte of
memory is unchanged: only EIP may differ. -/
def Obligations.BoundChangesOnlyEip : Prop :=
  ∀ (w : Size) (pre : List Prefix) (reg : Reg) (rm : RM) (s t : State),
    exec (boundInstr w pre reg rm) s = .next t → t = { s with eip := t.eip }

/-! ## BSF, BSR -/

/-- 41_bit_scan.md R151: BSF (`bsf16`, `bsf32`) of a source whose least set bit is k completes with k in the destination, ZF 0, bits
above the width, the other registers and memory kept. -/
def Obligations.BsfLoadsTheLowestSetBit : Prop :=
  ∀ (w : Size) (pre : List Prefix) (dst : Reg) (rm : RM) (s : State) (src : BitVec w.bits) (k : Nat),
    readRM w pre rm s = .ok src → src.getLsbD k = true → (∀ j < k, src.getLsbD j = false) →
    EipFits s (bsfInstr w pre dst rm).length →
    ∃ t, exec (bsfInstr w pre dst rm) s = .next t ∧ (readReg w dst t).toNat = k ∧ t.flags.ZF = false ∧
      t.eip = eipAfter s (bsfInstr w pre dst rm).length ∧
      (∀ j, w.bits ≤ j → (t.regs.get dst).getLsbD j = (s.regs.get dst).getLsbD j) ∧
      (∀ q, q ≠ dst → t.regs.get q = s.regs.get q) ∧ t.mem = s.mem

/-- 41_bit_scan.md R152: BSR (`bsr16`, `bsr32`) of a source whose greatest set bit is k completes with k in the destination, ZF 0, bits
above the width, the other registers and memory kept. -/
def Obligations.BsrLoadsTheHighestSetBit : Prop :=
  ∀ (w : Size) (pre : List Prefix) (dst : Reg) (rm : RM) (s : State) (src : BitVec w.bits) (k : Nat),
    readRM w pre rm s = .ok src → src.getLsbD k = true → (∀ j, k < j → src.getLsbD j = false) →
    EipFits s (bsrInstr w pre dst rm).length →
    ∃ t, exec (bsrInstr w pre dst rm) s = .next t ∧ (readReg w dst t).toNat = k ∧ t.flags.ZF = false ∧
      t.eip = eipAfter s (bsrInstr w pre dst rm).length ∧
      (∀ j, w.bits ≤ j → (t.regs.get dst).getLsbD j = (s.regs.get dst).getLsbD j) ∧
      (∀ q, q ≠ dst → t.regs.get q = s.regs.get q) ∧ t.mem = s.mem

/-- 41_bit_scan.md R153: a zero source makes BSF and BSR complete with ZF 1 and the next undefined draw, W bits wide, in the
destination; the bits above the width, the other registers and memory are kept. The statement holds for every value of the draw. -/
def Obligations.ScanOfZeroDrawsTheDestination : Prop :=
  ∀ (w : Size) (pre : List Prefix) (dst : Reg) (rm : RM) (s : State) (i : Instr),
    i = bsfInstr w pre dst rm ∨ i = bsrInstr w pre dst rm →
    readRM w pre rm s = .ok 0 → EipFits s i.length →
    ∃ t, exec i s = .next t ∧ readReg w dst t = Config.undefDraw w.bits s.draws ∧ s.draws < t.draws ∧
      t.flags.ZF = true ∧ t.eip = eipAfter s i.length ∧
      (∀ j, w.bits ≤ j → (t.regs.get dst).getLsbD j = (s.regs.get dst).getLsbD j) ∧
      (∀ q, q ≠ dst → t.regs.get q = s.regs.get q) ∧ t.mem = s.mem

/-- 41_bit_scan.md R154: after BSF or BSR, ZF is 1 exactly when the source was 0, and where it is 0 the destination holds the index of
a set bit of the source; a zero source leaves an undefined value there, which is the next free draw: that form of an undefined value is
the model's choice (92_eei_decisions.md D18, notes/assumptions/6.md). -/
def Obligations.ZeroFlagTellsAZeroSource : Prop :=
  ∀ (w : Size) (pre : List Prefix) (dst : Reg) (rm : RM) (s t : State) (src : BitVec w.bits) (i : Instr),
    i = bsfInstr w pre dst rm ∨ i = bsrInstr w pre dst rm →
    readRM w pre rm s = .ok src → exec i s = .next t →
    (t.flags.ZF = true ↔ src = 0) ∧ (t.flags.ZF = false → src.getLsbD (readReg w dst t).toNat = true) ∧
      (src = 0 → readReg w dst t = Config.undefDraw w.bits s.draws)

/-- 41_bit_scan.md R155: with a register source BSF and BSR raise nothing; with a memory source they raise exactly what the n-byte read
at the effective address raises, with nothing changed and only under the conditions the exception lists give, by mode; a refused read
ends them in that refusal. -/
def Obligations.ExceptionsOfTheScans : Prop :=
  ∀ (w : Size) (pre : List Prefix) (dst : Reg) (s : State),
    (∀ (x : Reg) (i : Instr) (f : Fault), i = bsfInstr w pre dst (.reg x) ∨ i = bsrInstr w pre dst (.reg x) →
      exec i s ≠ .fault f) ∧
    ∀ (m : MemOp) (i : Instr), i = bsfInstr w pre dst (.mem m) ∨ i = bsrInstr w pre dst (.mem m) →
      (∀ e : Stop, memCheck s (operandSeg pre m) (effAddr m s.regs) w.bytes .read = .error e → exec i s = stop e s) ∧
      (∀ f : Fault, exec i s = .fault f → f.record.state = s ∧ ∃ e, exec i s = takeException e s ∧
        translate s (operandSeg pre m) (effAddr m s.regs) w.bytes .read = .error e ∧
        OperandFault s (operandSeg pre m) (effAddr m s.regs) w.bytes .read e) ∧
      (s.params.mode ≠ .protectedMode → effAddr m s.regs + w.bytes - 1 > 0xFFFF → exec i s = takeException .interrupt13 s)

/-- 10_state.md R35: where BSF or BSR completes, every register but the destination, the destination's bits above the width, the
segment registers, the parameters, every byte of memory and the flags no instruction touches are unchanged; under
`FLAGS_UNLISTED = preserve` every flag but ZF is, and under `draw` OF, SF, AF, PF and CF become free bits (10_state.md R27). -/
def Obligations.ScanFrame : Prop :=
  ∀ (w : Size) (pre : List Prefix) (dst : Reg) (rm : RM) (s t : State) (i : Instr),
    i = bsfInstr w pre dst rm ∨ i = bsrInstr w pre dst rm → exec i s = .next t →
    (∀ q, q ≠ dst → t.regs.get q = s.regs.get q) ∧
      (∀ j, w.bits ≤ j → (t.regs.get dst).getLsbD j = (s.regs.get dst).getLsbD j) ∧
      t.segs = s.segs ∧ t.params = s.params ∧ (∀ a, readByte t a = readByte s a) ∧
      t.flags = { t.flags with
        TF := s.flags.TF, IF := s.flags.IF, DF := s.flags.DF, IOPL := s.flags.IOPL, NT := s.flags.NT, RF := s.flags.RF,
        VM := s.flags.VM } ∧
      (s.params.flagsUnlisted = .preserve → t.flags = { s.flags with ZF := t.flags.ZF }) ∧
      (s.params.flagsUnlisted = .draw → FlagsDrawn true s t)

/-- 41_bit_scan.md R156: for a nonzero source of value u, BSF gives the greatest k with 2^k dividing u, BSR the greatest k with
2^k <= u, the first is at most the second, and they are equal exactly when u is a power of two. -/
def Obligations.ScanIndexLaws : Prop :=
  ∀ (w : Size) (pre : List Prefix) (dst dst' : Reg) (rm : RM) (s t t' : State) (src : BitVec w.bits) (f r : Nat),
    readRM w pre rm s = .ok src → src ≠ 0 →
    exec (bsfInstr w pre dst rm) s = .next t → exec (bsrInstr w pre dst' rm) s = .next t' →
    f = (readReg w dst t).toNat → r = (readReg w dst' t').toNat →
    2 ^ f ∣ src.toNat ∧ (∀ k, 2 ^ k ∣ src.toNat → k ≤ f) ∧
      2 ^ r ≤ src.toNat ∧ (∀ k, 2 ^ k ≤ src.toNat → k ≤ r) ∧
      f ≤ r ∧ (f = r ↔ ∃ k, src.toNat = 2 ^ k) ∧ (f = r → src.toNat = 2 ^ f)

/-! ## BT, BTC, BTR, BTS -/

/-- 42_bit_test.md R170, R173, R174, R176, R178, R180: with a register bit base and a register bit offset (`btReg16`, `btReg32`,
`btcReg16`, `btcReg32`, `btrReg16`, `btrReg32`, `btsReg16`, `btsReg32`) the instruction completes: the offset is taken modulo W from
the old registers, CF receives the old bit, that bit alone is kept, complemented, cleared or set. -/
def Obligations.BitOfRegisterByRegisterOffset : Prop :=
  ∀ (k : BitInstr) (w : Size) (pre : List Prefix) (r q : Reg) (s : State) (b : Nat) (old : Bool),
    b = (readReg w q s).toNat % w.bits → old = (s.regs.get r).getLsbD b →
    EipFits s (k.withReg w pre (.reg r) q).length →
    ∃ t, exec (k.withReg w pre (.reg r) q) s = .next t ∧ t.flags.CF = old ∧ t.flags.ZF = s.flags.ZF ∧
      (∀ j, (t.regs.get r).getLsbD j = if j = b then (k.newBit old).getD old else (s.regs.get r).getLsbD j) ∧
      (∀ x, x ≠ r → t.regs.get x = s.regs.get x) ∧ t.mem = s.mem ∧
      t.eip = eipAfter s (k.withReg w pre (.reg r) q).length

/-- 42_bit_test.md R170, R172, R173, R175, R177, R179, R181: the same with an immediate bit offset, taken modulo W (`btImm16`,
`btImm32`, `btcImm16`, `btcImm32`, `btrImm16`, `btrImm32`, `btsImm16`, `btsImm32`). -/
def Obligations.BitOfRegisterByImmediateOffset : Prop :=
  ∀ (k : BitInstr) (w : Size) (pre : List Prefix) (r : Reg) (imm : Byte) (s : State) (b : Nat) (old : Bool),
    b = imm.toNat % w.bits → old = (s.regs.get r).getLsbD b →
    EipFits s (k.withImm w pre (.reg r) imm).length →
    ∃ t, exec (k.withImm w pre (.reg r) imm) s = .next t ∧ t.flags.CF = old ∧ t.flags.ZF = s.flags.ZF ∧
      (∀ j, (t.regs.get r).getLsbD j = if j = b then (k.newBit old).getD old else (s.regs.get r).getLsbD j) ∧
      (∀ x, x ≠ r → t.regs.get x = s.regs.get x) ∧ t.mem = s.mem ∧
      t.eip = eipAfter s (k.withImm w pre (.reg r) imm).length

/-- 42_bit_test.md R171, R173, R174, R176, R178, R180; 20_memory.md R60, R61: with a memory bit base and a register bit offset, read as
signed, the n bytes at `ea + n*(BitOffset fdiv W)` are checked (for writing too, but by BT), CF receives bit `BitOffset fmod W` of
their little-endian value, and, the bytes being distinct, that bit alone of memory is kept, complemented, cleared or set; no other byte
and no register changes (the eight `Reg` constructors). The n bytes end within 2^A - 1: past it the access faults (R186,
`BitAddressOverflowIsRefused`). -/
def Obligations.BitOfMemoryByRegisterOffset : Prop :=
  ∀ (k : BitInstr) (w : Size) (pre : List Prefix) (m : MemOp) (q : Reg) (s : State) (offset : Int) (a b : Nat) (old : Bool)
    (ps : List Nat),
    offset = sint w (readReg w q s).toNat → (a : Int) = effAddr m s.regs + w.bytes * (offset / (w.bits : Int)) →
    a + w.bytes ≤ 2 ^ (memOpSize m).bits → (b : Int) = offset % (w.bits : Int) →
    memCheck s (operandSeg pre m) a w.bytes (if k.writes then .rmw else .read) = .ok ps →
    old = (leValue (loadBytes s ps)).testBit b → EipFits s (k.withReg w pre (.mem m) q).length →
    ∃ t, exec (k.withReg w pre (.mem m) q) s = .next t ∧ t.flags.CF = old ∧ t.flags.ZF = s.flags.ZF ∧ t.regs = s.regs ∧
      (k.writes = false → t.mem = s.mem) ∧ (∀ x, x ∉ ps → readByte t x = readByte s x) ∧
      (ps.Nodup → ∀ (j : Nat) (h : j < ps.length) (i : Nat), i < 8 →
        (readByte t ps[j]).getLsbD i = if 8 * j + i = b then (k.newBit old).getD old else (readByte s ps[j]).getLsbD i) ∧
      t.eip = eipAfter s (k.withReg w pre (.mem m) q).length

/-- 42_bit_test.md R171, R172, R173, R175, R177, R179, R181; 20_memory.md R60, R61: the same with an immediate bit offset: the n bytes
at the effective address itself, which end within 2^A - 1, bit `imm8 fmod W` (the eight `Imm` constructors). -/
def Obligations.BitOfMemoryByImmediateOffset : Prop :=
  ∀ (k : BitInstr) (w : Size) (pre : List Prefix) (m : MemOp) (imm : Byte) (s : State) (b : Nat) (old : Bool) (ps : List Nat),
    b = imm.toNat % w.bits → effAddr m s.regs + w.bytes ≤ 2 ^ (memOpSize m).bits →
    memCheck s (operandSeg pre m) (effAddr m s.regs) w.bytes (if k.writes then .rmw else .read) = .ok ps →
    old = (leValue (loadBytes s ps)).testBit b → EipFits s (k.withImm w pre (.mem m) imm).length →
    ∃ t, exec (k.withImm w pre (.mem m) imm) s = .next t ∧ t.flags.CF = old ∧ t.flags.ZF = s.flags.ZF ∧ t.regs = s.regs ∧
      (k.writes = false → t.mem = s.mem) ∧ (∀ x, x ∉ ps → readByte t x = readByte s x) ∧
      (ps.Nodup → ∀ (j : Nat) (h : j < ps.length) (i : Nat), i < 8 →
        (readByte t ps[j]).getLsbD i = if 8 * j + i = b then (k.newBit old).getD old else (readByte s ps[j]).getLsbD i) ∧
      t.eip = eipAfter s (k.withImm w pre (.mem m) imm).length

/-- 42_bit_test.md R186: the address sum of a memory bit form is an unbounded integer, `n * (BitOffset fdiv W)` lies between
`-2^(W-4)` and `2^(W-4) - n`; a sum outside 0 to 2^A - 1 is refused; a sum inside it with bytes past 2^A - 1 faults, at both address
sizes and in every mode; with an immediate offset the sum is the effective address and no such refusal can occur. -/
def Obligations.BitAddressOverflowIsRefused : Prop :=
  ∀ (k : BitInstr) (w : Size) (pre : List Prefix) (m : MemOp) (s : State),
    (∀ (q : Reg) (step : Int), step = w.bytes * (sint w (readReg w q s).toNat / (w.bits : Int)) →
      -2 ^ (w.bits - 4) ≤ step ∧ step ≤ 2 ^ (w.bits - 4) - w.bytes ∧
      (effAddr m s.regs + step < 0 ∨ effAddr m s.regs + step > 2 ^ (memOpSize m).bits - 1 →
        exec (k.withReg w pre (.mem m) q) s = .refused .addressArithmeticOverflow) ∧
      (0 ≤ effAddr m s.regs + step → effAddr m s.regs + step ≤ 2 ^ (memOpSize m).bits - 1 →
        effAddr m s.regs + step + w.bytes - 1 > 2 ^ (memOpSize m).bits - 1 →
        EndsPastTheTop s (operandSeg pre m) k.writes (exec (k.withReg w pre (.mem m) q) s))) ∧
    ∀ imm : Byte,
      (EipFits s (k.withImm w pre (.mem m) imm).length →
        exec (k.withImm w pre (.mem m) imm) s ≠ .refused .addressArithmeticOverflow) ∧
      ((effAddr m s.regs : Int) + w.bytes - 1 > 2 ^ (memOpSize m).bits - 1 →
        EndsPastTheTop s (operandSeg pre m) k.writes (exec (k.withImm w pre (.mem m) imm) s))

/-- 42_bit_test.md R182, R186: with a register base the four instructions raise nothing; with a memory base they raise exactly what the
check of the n bytes at `addr` raises (for BTC, BTR, BTS a check for reading and writing, whether or not the bit would change), the
bytes past 2^A - 1 being illegal, CF, registers and memory as before, and only under the conditions the exception lists give, by mode;
BTC, BTR, BTS on a nonwritable segment raise GP(0), or SS(0) in SS where the address is illegal too, `SegReg.legal` being how the model
holds which addresses are up to 2^A - 1 (notes/assumptions/2.md, 3.md); a refused check ends them in that refusal. -/
def Obligations.ExceptionsOfTheBitInstructions : Prop :=
  ∀ (k : BitInstr) (w : Size) (pre : List Prefix) (o : BitOffset) (s : State),
    (∀ (x : Reg) (f : Fault), exec (k.withOffset w pre (.reg x) o) s ≠ .fault f) ∧
    ∀ (m : MemOp) (a : Nat) (kind : AccessKind), bitAddrIn w m o s = some a → kind = (if k.writes then .rmw else .read) →
      (∀ e : Stop, (s.params.mode = .protectedMode → a + w.bytes ≤ 2 ^ (memOpSize m).bits) →
        memCheck s (operandSeg pre m) a w.bytes kind = .error e → exec (k.withOffset w pre (.mem m) o) s = stop e s) ∧
      (a + w.bytes > 2 ^ (memOpSize m).bits →
        EndsPastTheTop s (operandSeg pre m) k.writes (exec (k.withOffset w pre (.mem m) o) s)) ∧
      (∀ f : Fault, exec (k.withOffset w pre (.mem m) o) s = .fault f → f.record.state = s ∧
        ∃ e, exec (k.withOffset w pre (.mem m) o) s = takeException e s ∧ OperandFault s (operandSeg pre m) a w.bytes kind e ∧
          (translate s (operandSeg pre m) a w.bytes kind = .error e ∨ a + w.bytes > 2 ^ (memOpSize m).bits)) ∧
      (s.params.mode ≠ .protectedMode → a + w.bytes - 1 > 0xFFFF →
        exec (k.withOffset w pre (.mem m) o) s = takeException .interrupt13 s) ∧
      (s.params.mode = .protectedMode → k.writes = true → (s.segs.get (operandSeg pre m)).writable = false →
        exec (k.withOffset w pre (.mem m) o) s = takeException .gp0 s ∨
          operandSeg pre m = .ss ∧
            ((s.segs.get .ss).legal a w.bytes kind = false ∨ a + w.bytes > 2 ^ (memOpSize m).bits) ∧
            exec (k.withOffset w pre (.mem m) o) s = takeException .ss0 s)

/-- 10_state.md R35: where a register form completes, every register but the base, the base's bits above the width (all of it for BT),
the segment registers, the parameters, every byte of memory and the flags no instruction touches are unchanged; under
`FLAGS_UNLISTED = preserve` every flag but CF is, and under `draw` OF, SF, AF and PF become free bits (10_state.md R27). -/
def Obligations.BitOfRegisterFrame : Prop :=
  ∀ (k : BitInstr) (w : Size) (pre : List Prefix) (r : Reg) (o : BitOffset) (s t : State),
    exec (k.withOffset w pre (.reg r) o) s = .next t →
    (∀ q, q ≠ r → t.regs.get q = s.regs.get q) ∧ (k.writes = false → t.regs = s.regs) ∧
      (∀ j, w.bits ≤ j → (t.regs.get r).getLsbD j = (s.regs.get r).getLsbD j) ∧
      t.segs = s.segs ∧ t.params = s.params ∧ (∀ a, readByte t a = readByte s a) ∧
      t.flags = { t.flags with
        ZF := s.flags.ZF, TF := s.flags.TF, IF := s.flags.IF, DF := s.flags.DF, IOPL := s.flags.IOPL, NT := s.flags.NT,
        RF := s.flags.RF, VM := s.flags.VM } ∧
      (s.params.flagsUnlisted = .preserve → t.flags = { s.flags with CF := t.flags.CF }) ∧
      (s.params.flagsUnlisted = .draw → FlagsDrawn false s t)

/-- 10_state.md R35: where a memory form completes, every register, segment register and parameter is unchanged, and every byte of
memory outside the n bytes at the address of 42_bit_test.md R171 (every byte, for BT); flags as for the register forms. -/
def Obligations.BitOfMemoryFrame : Prop :=
  ∀ (k : BitInstr) (w : Size) (pre : List Prefix) (m : MemOp) (o : BitOffset) (s t : State),
    exec (k.withOffset w pre (.mem m) o) s = .next t →
    t.regs = s.regs ∧ t.segs = s.segs ∧ t.params = s.params ∧
      (∀ a ps, bitAddrIn w m o s = some a → translate s (operandSeg pre m) a w.bytes (if k.writes then .rmw else .read) = .ok ps →
        ∀ x, x ∉ ps → readByte t x = readByte s x) ∧
      (k.writes = false → ∀ x, readByte t x = readByte s x) ∧
      t.flags = { t.flags with
        ZF := s.flags.ZF, TF := s.flags.TF, IF := s.flags.IF, DF := s.flags.DF, IOPL := s.flags.IOPL, NT := s.flags.NT,
        RF := s.flags.RF, VM := s.flags.VM } ∧
      (s.params.flagsUnlisted = .preserve → t.flags = { s.flags with CF := t.flags.CF }) ∧
      (s.params.flagsUnlisted = .draw → FlagsDrawn false s t)

/-- 42_bit_test.md R176 (derived there): two BTC in a row on the same bit restore the destination, and the second leaves CF the complement
of the first CF: with a register base, for an immediate offset and for an offset in another register; with a memory base, for every
offset operand, where the bytes touched are distinct. -/
def Obligations.BtcTwiceRestoresTheDestination : Prop :=
  ∀ (w : Size) (pre pre' : List Prefix) (o : BitOffset) (s t u : State),
    (∀ r : Reg, o ≠ .reg r →
      exec (BitInstr.btc.withOffset w pre (.reg r) o) s = .next t →
      exec (BitInstr.btc.withOffset w pre' (.reg r) o) t = .next u →
      u.regs = s.regs ∧ u.flags.CF = !t.flags.CF) ∧
    ∀ m : MemOp, operandSeg pre' m = operandSeg pre m →
      (∀ a ps, translate s (operandSeg pre m) a w.bytes .rmw = .ok ps → ps.Nodup) →
      exec (BitInstr.btc.withOffset w pre (.mem m) o) s = .next t →
      exec (BitInstr.btc.withOffset w pre' (.mem m) o) t = .next u →
      u.regs = s.regs ∧ (∀ x, readByte u x = readByte s x) ∧ u.flags.CF = !t.flags.CF

/-- 42_bit_test.md R184: BTS followed by BT of the same bit of memory gives CF = 1, and BTR followed by BT gives CF = 0, where the
bytes touched are distinct. -/
def Obligations.BtAfterBtsOrBtrSeesTheBit : Prop :=
  ∀ (k : BitInstr) (w : Size) (pre : List Prefix) (m : MemOp) (o : BitOffset) (s t u : State) (c : Bool),
    k = .bts ∧ c = true ∨ k = .btr ∧ c = false →
    (∀ a ps, translate s (operandSeg pre m) a w.bytes .rmw = .ok ps → ps.Nodup) →
    exec (k.withOffset w pre (.mem m) o) s = .next t →
    exec (BitInstr.bt.withOffset w pre (.mem m) o) t = .next u → u.flags.CF = c

/-- 30_encoding.md R108: keeping k bits of a bit offset N in the immediate and adding `(N fdiv 2^k) * 2^(k-3)` to the byte displacement
names the same bit: the same bit of the same byte, by the address formula of 42_bit_test.md R171. -/
def Obligations.SplitBitOffsetNamesTheSameBit : Prop :=
  ∀ (w : Size) (ea N k : Nat), 3 ≤ k → 2 ^ k ≤ w.bits →
    bitAddr w (ea + N / 2 ^ k * 2 ^ (k - 3)) ((N % 2 ^ k : Nat) : Int) + (fmod ((N % 2 ^ k : Nat) : Int) w.bits / 8 : Nat) =
        bitAddr w ea (N : Int) + (fmod (N : Int) w.bits / 8 : Nat) ∧
      fmod ((N % 2 ^ k : Nat) : Int) w.bits % 8 = fmod (N : Int) w.bits % 8

/-! ## Memory -/

/-- 20_memory.md R55: in Real Address Mode an operand of k bytes raises Interrupt 13 exactly when a byte of it would lie beyond offset
0FFFFH, in every segment, and nothing else, with no error code: for BOUND the operand is the whole bounds block, for BSF and BSR the n
bytes at the effective address, for BT, BTC, BTR and BTS the n bytes at the address of 42_bit_test.md R171. -/
def Obligations.RealAddressOperandFaults : Prop :=
  ∀ s : State, s.params.mode = .realAddress →
    (∀ (seg : Seg) (off k : Nat) (kind : AccessKind) (e : Exc), 1 ≤ k →
      (translate s seg off k kind = .error e ↔ off + k - 1 > 0xFFFF ∧ e = .interrupt13)) ∧
    Exc.errorCode .interrupt13 = none ∧
    (∀ (w : Size) (pre : List Prefix) (r : Reg) (m : MemOp),
      (exec (boundInstr w pre r (.mem m)) s = takeException .interrupt13 s ↔ effAddr m s.regs + 2 * w.bytes - 1 > 0xFFFF) ∧
      (exec (bsfInstr w pre r (.mem m)) s = takeException .interrupt13 s ↔ effAddr m s.regs + w.bytes - 1 > 0xFFFF) ∧
      (exec (bsrInstr w pre r (.mem m)) s = takeException .interrupt13 s ↔ effAddr m s.regs + w.bytes - 1 > 0xFFFF)) ∧
    ∀ (k : BitInstr) (w : Size) (pre : List Prefix) (m : MemOp) (o : BitOffset) (a : Nat), bitAddrIn w m o s = some a →
      (exec (k.withOffset w pre (.mem m) o) s = takeException .interrupt13 s ↔ a + w.bytes - 1 > 0xFFFF)

/-- 20_memory.md R57: in Virtual 8086 Mode the faults of an operand are those of Real Address Mode, and in addition a page fault where
`Translate` reports one: for BOUND on the whole bounds block, for BSF and BSR on the n bytes at the effective address, for BT, BTC, BTR
and BTS on the n bytes at the address of 42_bit_test.md R171. -/
def Obligations.Virtual8086OperandFaults : Prop :=
  ∀ s : State, s.params.mode = .virtual8086 →
    (∀ (seg : Seg) (off k : Nat) (kind : AccessKind), 1 ≤ k →
      (translate s seg off k kind = .error .interrupt13 ↔ off + k - 1 > 0xFFFF) ∧
        ∀ e, translate s seg off k kind = .error e → e = .interrupt13 ∨ ∃ c, e = .pf c) ∧
    (∀ (w : Size) (pre : List Prefix) (r : Reg) (m : MemOp),
      (exec (boundInstr w pre r (.mem m)) s = takeException .interrupt13 s ↔ effAddr m s.regs + 2 * w.bytes - 1 > 0xFFFF) ∧
      (∀ c, exec (boundInstr w pre r (.mem m)) s = takeException (.pf c) s ↔
        translate s (operandSeg pre m) (effAddr m s.regs) (2 * w.bytes) .read = .error (.pf c)) ∧
      ∀ i, i = bsfInstr w pre r (.mem m) ∨ i = bsrInstr w pre r (.mem m) →
        (exec i s = takeException .interrupt13 s ↔ effAddr m s.regs + w.bytes - 1 > 0xFFFF) ∧
        ∀ c, exec i s = takeException (.pf c) s ↔
          translate s (operandSeg pre m) (effAddr m s.regs) w.bytes .read = .error (.pf c)) ∧
    ∀ (k : BitInstr) (w : Size) (pre : List Prefix) (m : MemOp) (o : BitOffset) (a : Nat), bitAddrIn w m o s = some a →
      (exec (k.withOffset w pre (.mem m) o) s = takeException .interrupt13 s ↔ a + w.bytes - 1 > 0xFFFF) ∧
      ∀ c, exec (k.withOffset w pre (.mem m) o) s = takeException (.pf c) s ↔
        translate s (operandSeg pre m) a w.bytes (if k.writes then .rmw else .read) = .error (.pf c)

/-- 20_memory.md R54, R56, R64 point 3: in Protected Mode the only faults are GP(0), SS(0) in SS, and PF; an access is legal when a window
of its segment holds all of it and admits its kind and no byte lies beyond offset 2^32 - 1; an illegal one that is no write to a
nonwritable segment raises SS(0) in SS and GP(0) elsewhere; a legal one raises no segment-level fault, unless it is a write to a
nonwritable segment, which raises GP(0); where both apply it is one of the two, and SS(0) is raised at illegal addresses only. The
windows are how the model holds which addresses `Translate` finds legal (notes/assumptions/2.md). -/
def Obligations.ProtectedModeOperandFaults : Prop :=
  ∀ (s : State) (seg : Seg) (off k : Nat) (kind : AccessKind), s.params.mode = .protectedMode → 1 ≤ k →
    (∀ e, translate s seg off k kind = .error e → e = .gp0 ∨ e = .ss0 ∧ seg = .ss ∨ ∃ c, e = .pf c) ∧
    ((s.segs.get seg).legal off k kind = true ↔ off + k - 1 ≤ 0xFFFFFFFF ∧
      ∃ x ∈ (s.segs.get seg).windows, x.lo ≤ off ∧ off + k - 1 ≤ x.hi ∧
        (match kind with
          | .fetch => x.fetch = true
          | .read => x.read = true
          | .write => x.write = true
          | .rmw => x.rmw = true ∧ x.read = true ∧ x.write = true)) ∧
    ((s.segs.get seg).legal off k kind = false → (kind.stores = true → (s.segs.get seg).writable = true) →
      translate s seg off k kind = .error (if seg = .ss then .ss0 else .gp0)) ∧
    ((s.segs.get seg).legal off k kind = true → (kind.stores = true → (s.segs.get seg).writable = true) →
      ∀ e, translate s seg off k kind = .error e → ∃ c, e = .pf c) ∧
    ((s.segs.get seg).legal off k kind = true → kind.stores = true → (s.segs.get seg).writable = false →
      translate s seg off k kind = .error .gp0) ∧
    (translate s .ss off k kind = .error .ss0 → (s.segs.get .ss).legal off k kind = false) ∧
    (translate s .ss off k kind = .error .gp0 → kind.stores = true ∧ (s.segs.get .ss).writable = false) ∧
    (kind.stores = true → (s.segs.get seg).writable = false →
      translate s seg off k kind = .error .gp0 ∨ translate s seg off k kind = .error .ss0 ∧ seg = .ss) ∧
    (off + k - 1 > 0xFFFFFFFF → translate s seg off k kind = .error .gp0 ∨ translate s seg off k kind = .error .ss0 ∧ seg = .ss)

/-- 20_memory.md R64 point 5: an access that translates, translates on every part of it, with the matching part of the addresses. -/
def Obligations.TranslationOfAPartOfAnAccess : Prop :=
  ∀ (s : State) (seg : Seg) (off k : Nat) (kind : AccessKind) (ps : List Nat) (j n : Nat),
    translate s seg off k kind = .ok ps → 1 ≤ n → j + n ≤ k → translate s seg (off + j) n kind = .ok ((ps.drop j).take n)

/-- 20_memory.md R64 point 5: an access that translates for `rmw` translates for `read` and for `write`, to the same addresses. -/
def Obligations.TranslationForReadModifyWrite : Prop :=
  ∀ (s : State) (seg : Seg) (off k : Nat) (ps : List Nat), translate s seg off k .rmw = .ok ps →
    translate s seg off k .read = .ok ps ∧ translate s seg off k .write = .ok ps

/-- 60_exceptions.md R207 point 3: a page fault is reported only where no segment-level fault applies, and it is that of the lowest
byte of the access that has one; outside Real Address Mode a byte struck by a page fault of `Translate` makes the access fault. -/
def Obligations.SegmentFaultsBeforePageFaults : Prop :=
  ∀ (s : State) (seg : Seg) (off k : Nat) (kind : AccessKind),
    (∀ c : Nat, translate s seg off k kind = .error (.pf c) →
      segFault s seg off k kind = none ∧
        ∃ j < k, byteFault s seg off k kind j = some c ∧ ∀ i < j, byteFault s seg off k kind i = none) ∧
    ∀ (f : PageFault) (j : Nat), f ∈ s.params.pageFaults → j < k → f.strikes seg off k kind j = true →
      s.params.mode ≠ .realAddress → segFault s seg off k kind = none → ∃ c, translate s seg off k kind = .error (.pf c)

/-- 20_memory.md R52: byte i of what `MemRead` returns and of what `MemWrite` stores is at offset `off + i`: little-endian. -/
def Obligations.MemoryIsLittleEndian : Prop :=
  ∀ (s : State) (seg : Seg) (off k v : Nat),
    (memRead s seg off k = .ok v → ∃ ps, translate s seg off k .read = .ok ps ∧ v < 2 ^ (8 * k) ∧
      ∀ (i : Nat) (h : i < ps.length) (j : Nat), j < 8 → v.testBit (8 * i + j) = (readByte s ps[i]).getLsbD j) ∧
    ∀ t, memWrite s seg off k v = .ok t → ∃ ps, translate s seg off k .write = .ok ps ∧
      (ps.Nodup → ∀ (i : Nat) (h : i < ps.length) (j : Nat), j < 8 → (readByte t ps[i]).getLsbD j = v.testBit (8 * i + j))

/-- 20_memory.md R53, R65 point 3: a read after a write of the same bytes returns the value written. -/
def Obligations.ReadAfterWriteReturnsTheValue : Prop :=
  ∀ (s t : State) (seg : Seg) (off k v : Nat) (ps : List Nat),
    memCheck s seg off k .rmw = .ok ps → ps.Nodup → v < 2 ^ (8 * k) → memWrite s seg off k v = .ok t →
    memRead t seg off k = .ok v

/-- 20_memory.md R62, R68, R69: an access with a byte outside `RAM` is refused; a store with a byte in `CODE`, the rest in order, is
refused; a fetch outside `CODE` is refused. -/
def Obligations.HolesAndCodeAreRefused : Prop :=
  ∀ (s : State) (seg : Seg) (off k : Nat) (kind : AccessKind) (ps : List Nat), translate s seg off k kind = .ok ps →
    ((∃ p ∈ ps, inRanges s.params.ram p = false) → memCheck s seg off k kind = .error (.refuse .notRAM)) ∧
    ((∀ p ∈ ps, inRanges s.params.ram p = true) → kind.stores = true → (∃ p ∈ ps, inRanges s.params.code p = true) →
      memCheck s seg off k kind = .error (.refuse .codeOverwrite)) ∧
    ∀ (i p : Nat), translate s .cs (s.eip.toNat + i) 1 .fetch = .ok [p] → inRanges s.params.code p = false →
      fetchByte s i = .error (.refuse .notInSpec)

/-! ## The whole machine -/

/-- 10_state.md R25, 20_memory.md R68: every step keeps the invariant: memory canonical, EIP in the space of the mode, `CODE` in
`RAM`. -/
def Obligations.StepKeepsMachineInv : Prop :=
  ∀ s t : State, MachineInv s → step s = .next t → MachineInv t

/-- The invariant holds at reset. -/
def Obligations.ResetHasMachineInv : Prop := MachineInv State.reset

/-- 20_memory.md R68: no step changes a byte of the program text. -/
def Obligations.StepNeverChangesCode : Prop :=
  ∀ s t : State, step s = .next t → ∀ a, inRanges s.params.code a = true → readByte t a = readByte s a

/-- 10_state.md R20, R29; 60_exceptions.md R212: no step changes the mode, the default sizes, the translation, `RAM`, `CODE`, the flag
policy or a segment register. -/
def Obligations.StepKeepsParametersAndSegments : Prop :=
  ∀ s t : State, step s = .next t → t.params = s.params ∧ t.segs = s.segs

/-- 10_state.md R25, 30_encoding.md R103: a step that completes advances EIP by the length of the instruction it fetched, 2 to 12
bytes, without wrapping, and within the space of the mode; an instruction that would complete at another EIP (its operands are fine) is
refused as AddressArithmeticOverflow where `pc + len` passes the top of the space (92_eei_decisions.md D26). -/
def Obligations.StepAdvancesEipByTheLength : Prop :=
  (∀ s t : State, step s = .next t → ∃ i, fetchInstr s = .ok i ∧ 2 ≤ i.length ∧ i.length ≤ 12 ∧
    t.eip.toNat = s.eip.toNat + i.length ∧ EipInSpace t) ∧
  (∀ (i : Instr) (s t : State) (e : Dword), exec i { s with eip := e } = .next t → ¬ EipFits s i.length →
    exec i s = .refused .addressArithmeticOverflow) ∧
  ∀ (i : Instr) (s t : State) (e : Dword), fetchInstr s = .ok i → exec i { s with eip := e } = .next t → ¬ EipFits s i.length →
    step s = .refused .addressArithmeticOverflow

/-- 70_reset_and_hazards.md R247: control is sequential, there are no loops, so every run is finite: from every state some number of
steps cannot all complete. -/
def Obligations.EveryRunIsFinite : Prop :=
  ∀ s : State, ∃ n, ∀ t, core.run n s ≠ .next t

/-- 60_exceptions.md R206, R208, R219; 00_scope.md R12: a step that traps carries the state before the instruction, unchanged, the
address of the instruction, and the vector and error code of the exception it names. -/
def Obligations.TrapCarriesTheStateBefore : Prop :=
  ∀ (s : State) (f : Fault), step s = .fault f →
    f.record.state = s ∧ f.record.returnEip = s.eip ∧
      (match f with
        | .interrupt5 t => t.vector = 5 ∧ t.errorCode = none
        | .ud t => t.vector = 6 ∧ t.errorCode = none
        | .ss0 t => t.vector = 12 ∧ t.errorCode = some 0
        | .gp0 t => t.vector = 13 ∧ t.errorCode = some 0
        | .pf t => t.vector = 14 ∧ t.errorCode.isSome = true
        | .interrupt13 t => t.vector = 13 ∧ t.errorCode = none)

/-- 60_exceptions.md R212: which exceptions a step can raise in each mode: Interrupt 5 and UD in all; GP(0) and SS(0) in Protected Mode
only; PF in Protected and Virtual 8086 Mode only; Interrupt 13 in Real Address and Virtual 8086 Mode only. -/
def Obligations.ExceptionsByMode : Prop :=
  ∀ (s : State) (f : Fault), step s = .fault f →
    (match f with
      | .interrupt5 _ => True
      | .ud _ => True
      | .gp0 _ => s.params.mode = .protectedMode
      | .ss0 _ => s.params.mode = .protectedMode
      | .pf _ => s.params.mode = .protectedMode ∨ s.params.mode = .virtual8086
      | .interrupt13 _ => s.params.mode = .realAddress ∨ s.params.mode = .virtual8086)

/-- 10_state.md R26: none of the seven instructions reads a flag: from two states that differ only in the flags a step ends in the same
next state, with the flags the instruction writes alike and every other flag as it was (`flagsAfter`), or in the same refusal, or in the
same exception. That a value left undefined is the same in both runs, the two states having drawn equally often, rests on
notes/assumptions/6.md, which is unsafe for comparing two runs: a part may leave different values. -/
def Obligations.NoInstructionReadsAFlag : Prop :=
  ∀ (s : State) (f : Flags),
    (∀ t, step s = .next t → ∃ i, fetchInstr s = .ok i ∧
      t.flags = flagsAfter i s.params.flagsUnlisted s.flags t.flags ∧
      step { s with flags := f } = .next { t with flags := flagsAfter i s.params.flagsUnlisted f t.flags }) ∧
    (∀ r, step s = .refused r → step { s with flags := f } = .refused r) ∧
    ∀ x, step s = .fault x → ∃ y, step { s with flags := f } = .fault y ∧ y.record.vector = x.record.vector ∧
      y.record.errorCode = x.record.errorCode ∧ y.record.returnEip = x.record.returnEip

/-- 10_state.md R22: an instruction with operand size 16 leaves bits 31:16 of every register as they were. -/
def Obligations.SixteenBitInstructionsKeepUpperHalves : Prop :=
  ∀ (i : Instr) (s t : State), i.width = .w16 → exec i s = .next t →
    ∀ (r : Reg) (j : Nat), 16 ≤ j → (t.regs.get r).getLsbD j = (s.regs.get r).getLsbD j

/-- 10_state.md R27: EFLAGS as a word has the known bits at their places, bit 1 as 1 and the rest as 0. -/
def Obligations.FlagsWordLayout : Prop :=
  ∀ (f : Flags) (j : Nat), (Flags.word f).getLsbD j =
    (match j with
      | 0 => f.CF
      | 1 => true
      | 2 => f.PF
      | 4 => f.AF
      | 6 => f.ZF
      | 7 => f.SF
      | 8 => f.TF
      | 9 => f.IF
      | 10 => f.DF
      | 11 => f.OF
      | 12 => f.IOPL.getLsbD 0
      | 13 => f.IOPL.getLsbD 1
      | 14 => f.NT
      | 16 => f.RF
      | 17 => f.VM
      | _ => false)

/-- 70_reset_and_hazards.md R247 (a): a run that ends well ends in a state whose EIP is `END_EIP`, which some number of steps from the
start reaches. -/
def Obligations.GoodRunEndsAtEndEip : Prop :=
  ∀ (endEip : Dword) (n : Nat) (s t : State), runTo endEip n s = .good t →
    t.eip = endEip ∧ ∃ k ≤ n, core.run k s = .next t

/-- The reset state as notes/assumptions/8.md, 9.md and 11.md name it (the model's choice: the spec states no reset value, 10_state.md
R34): EIP 0000FFF0H, EFLAGS 00000002H, CS F000H with base FFFF0000H, EDX 00000300H and the other registers 0, Real Address Mode with
16-bit defaults, nothing in memory, no program; the first step is refused. -/
def Obligations.ResetStateAsLogged : Prop :=
  State.reset.eip = 0xFFF0 ∧ Flags.word State.reset.flags = 2 ∧ State.reset.segs.cs.selector = 0xF000 ∧
    State.reset.segs.cs.base = 0xFFFF0000 ∧ State.reset.regs.edx = 0x300 ∧
    (∀ r, r ≠ Reg.edx → State.reset.regs.get r = 0) ∧ State.reset.params.mode = .realAddress ∧
    State.reset.params.defaults = ⟨.w16, .w16⟩ ∧ State.reset.mem = [] ∧ State.reset.params.code = [] ∧
    step State.reset = .refused .notInSpec
end

