-- ==== Sys2Proof/Laws/State.lean ====
section
/-! SUPPORT. Laws/State.lean: one lemma per field of State per named update, and what the flag rules leave alone. -/

namespace Sys2Proof.Machine

@[simp] theorem State.setReg_regs (s : State) (w : Size) (r : Reg) (v : BitVec w.bits) : (s.setReg w r v).regs = s.regs.set r (mergeLow w (s.regs.get r) v) := rfl
@[simp] theorem State.setReg_eip (s : State) (w : Size) (r : Reg) (v : BitVec w.bits) : (s.setReg w r v).eip = s.eip := rfl
@[simp] theorem State.setReg_flags (s : State) (w : Size) (r : Reg) (v : BitVec w.bits) : (s.setReg w r v).flags = s.flags := rfl
@[simp] theorem State.setReg_segs (s : State) (w : Size) (r : Reg) (v : BitVec w.bits) : (s.setReg w r v).segs = s.segs := rfl
@[simp] theorem State.setReg_mem (s : State) (w : Size) (r : Reg) (v : BitVec w.bits) : (s.setReg w r v).mem = s.mem := rfl
@[simp] theorem State.setReg_params (s : State) (w : Size) (r : Reg) (v : BitVec w.bits) : (s.setReg w r v).params = s.params := rfl
@[simp] theorem State.setReg_draws (s : State) (w : Size) (r : Reg) (v : BitVec w.bits) : (s.setReg w r v).draws = s.draws := rfl

@[simp] theorem State.setCF_regs (s : State) (b : Bool) : (s.setCF b).regs = s.regs := rfl
@[simp] theorem State.setCF_eip (s : State) (b : Bool) : (s.setCF b).eip = s.eip := rfl
@[simp] theorem State.setCF_flags (s : State) (b : Bool) : (s.setCF b).flags = { s.flags with CF := b } := rfl
@[simp] theorem State.setCF_segs (s : State) (b : Bool) : (s.setCF b).segs = s.segs := rfl
@[simp] theorem State.setCF_mem (s : State) (b : Bool) : (s.setCF b).mem = s.mem := rfl
@[simp] theorem State.setCF_params (s : State) (b : Bool) : (s.setCF b).params = s.params := rfl
@[simp] theorem State.setCF_draws (s : State) (b : Bool) : (s.setCF b).draws = s.draws := rfl

@[simp] theorem State.setZF_regs (s : State) (b : Bool) : (s.setZF b).regs = s.regs := rfl
@[simp] theorem State.setZF_eip (s : State) (b : Bool) : (s.setZF b).eip = s.eip := rfl
@[simp] theorem State.setZF_flags (s : State) (b : Bool) : (s.setZF b).flags = { s.flags with ZF := b } := rfl
@[simp] theorem State.setZF_segs (s : State) (b : Bool) : (s.setZF b).segs = s.segs := rfl
@[simp] theorem State.setZF_mem (s : State) (b : Bool) : (s.setZF b).mem = s.mem := rfl
@[simp] theorem State.setZF_params (s : State) (b : Bool) : (s.setZF b).params = s.params := rfl
@[simp] theorem State.setZF_draws (s : State) (b : Bool) : (s.setZF b).draws = s.draws := rfl

@[simp] theorem State.setMem_regs (s : State) (m : Memory) : (s.setMem m).regs = s.regs := rfl
@[simp] theorem State.setMem_eip (s : State) (m : Memory) : (s.setMem m).eip = s.eip := rfl
@[simp] theorem State.setMem_flags (s : State) (m : Memory) : (s.setMem m).flags = s.flags := rfl
@[simp] theorem State.setMem_segs (s : State) (m : Memory) : (s.setMem m).segs = s.segs := rfl
@[simp] theorem State.setMem_mem (s : State) (m : Memory) : (s.setMem m).mem = m := rfl
@[simp] theorem State.setMem_params (s : State) (m : Memory) : (s.setMem m).params = s.params := rfl
@[simp] theorem State.setMem_draws (s : State) (m : Memory) : (s.setMem m).draws = s.draws := rfl

@[simp] theorem State.setEip_regs (s : State) (e : Dword) : (s.setEip e).regs = s.regs := rfl
@[simp] theorem State.setEip_eip (s : State) (e : Dword) : (s.setEip e).eip = e := rfl
@[simp] theorem State.setEip_flags (s : State) (e : Dword) : (s.setEip e).flags = s.flags := rfl
@[simp] theorem State.setEip_segs (s : State) (e : Dword) : (s.setEip e).segs = s.segs := rfl
@[simp] theorem State.setEip_mem (s : State) (e : Dword) : (s.setEip e).mem = s.mem := rfl
@[simp] theorem State.setEip_params (s : State) (e : Dword) : (s.setEip e).params = s.params := rfl
@[simp] theorem State.setEip_draws (s : State) (e : Dword) : (s.setEip e).draws = s.draws := rfl

@[simp] theorem State.addDraws_regs (s : State) (k : Nat) : (s.addDraws k).regs = s.regs := rfl
@[simp] theorem State.addDraws_eip (s : State) (k : Nat) : (s.addDraws k).eip = s.eip := rfl
@[simp] theorem State.addDraws_flags (s : State) (k : Nat) : (s.addDraws k).flags = s.flags := rfl
@[simp] theorem State.addDraws_segs (s : State) (k : Nat) : (s.addDraws k).segs = s.segs := rfl
@[simp] theorem State.addDraws_mem (s : State) (k : Nat) : (s.addDraws k).mem = s.mem := rfl
@[simp] theorem State.addDraws_params (s : State) (k : Nat) : (s.addDraws k).params = s.params := rfl
@[simp] theorem State.addDraws_draws (s : State) (k : Nat) : (s.addDraws k).draws = s.draws + k := rfl

/-! The unlisted flags (10_state.md R27). -/

section
variable (c : Bool) (s : State)

theorem unlistedFlags_of_preserve (h : s.params.flagsUnlisted = .preserve) : unlistedFlags c s = s := by
  simp [unlistedFlags, h]

@[simp] theorem unlistedFlags_regs : (unlistedFlags c s).regs = s.regs := by unfold unlistedFlags; split <;> rfl
@[simp] theorem unlistedFlags_eip : (unlistedFlags c s).eip = s.eip := by unfold unlistedFlags; split <;> rfl
@[simp] theorem unlistedFlags_segs : (unlistedFlags c s).segs = s.segs := by unfold unlistedFlags; split <;> rfl
@[simp] theorem unlistedFlags_mem : (unlistedFlags c s).mem = s.mem := by unfold unlistedFlags; split <;> rfl
@[simp] theorem unlistedFlags_params : (unlistedFlags c s).params = s.params := by unfold unlistedFlags; split <;> rfl
@[simp] theorem unlistedFlags_ZF : (unlistedFlags c s).flags.ZF = s.flags.ZF := by unfold unlistedFlags; split <;> rfl
@[simp] theorem unlistedFlags_TF : (unlistedFlags c s).flags.TF = s.flags.TF := by unfold unlistedFlags; split <;> rfl
@[simp] theorem unlistedFlags_IF : (unlistedFlags c s).flags.IF = s.flags.IF := by unfold unlistedFlags; split <;> rfl
@[simp] theorem unlistedFlags_DF : (unlistedFlags c s).flags.DF = s.flags.DF := by unfold unlistedFlags; split <;> rfl
@[simp] theorem unlistedFlags_IOPL : (unlistedFlags c s).flags.IOPL = s.flags.IOPL := by unfold unlistedFlags; split <;> rfl
@[simp] theorem unlistedFlags_NT : (unlistedFlags c s).flags.NT = s.flags.NT := by unfold unlistedFlags; split <;> rfl
@[simp] theorem unlistedFlags_RF : (unlistedFlags c s).flags.RF = s.flags.RF := by unfold unlistedFlags; split <;> rfl
@[simp] theorem unlistedFlags_VM : (unlistedFlags c s).flags.VM = s.flags.VM := by unfold unlistedFlags; split <;> rfl
@[simp] theorem unlistedFlags_false_CF : (unlistedFlags false s).flags.CF = s.flags.CF := by
  unfold unlistedFlags; split <;> rfl

end

/-! The flag rules of the two families (41_bit_scan.md R154, 42_bit_test.md R183). -/

section
variable (b : Bool) (s : State)

@[simp] theorem scanFlags_regs : (scanFlags b s).regs = s.regs := by simp [scanFlags]
@[simp] theorem scanFlags_eip : (scanFlags b s).eip = s.eip := by simp [scanFlags]
@[simp] theorem scanFlags_segs : (scanFlags b s).segs = s.segs := by simp [scanFlags]
@[simp] theorem scanFlags_mem : (scanFlags b s).mem = s.mem := by simp [scanFlags]
@[simp] theorem scanFlags_params : (scanFlags b s).params = s.params := by simp [scanFlags]
@[simp] theorem scanFlags_ZF : (scanFlags b s).flags.ZF = b := by simp [scanFlags]
theorem scanFlags_of_preserve (h : s.params.flagsUnlisted = .preserve) : scanFlags b s = s.setZF b :=
  unlistedFlags_of_preserve true (s.setZF b) h

@[simp] theorem bitFlags_regs : (bitFlags b s).regs = s.regs := by simp [bitFlags]
@[simp] theorem bitFlags_eip : (bitFlags b s).eip = s.eip := by simp [bitFlags]
@[simp] theorem bitFlags_segs : (bitFlags b s).segs = s.segs := by simp [bitFlags]
@[simp] theorem bitFlags_mem : (bitFlags b s).mem = s.mem := by simp [bitFlags]
@[simp] theorem bitFlags_params : (bitFlags b s).params = s.params := by simp [bitFlags]
@[simp] theorem bitFlags_CF : (bitFlags b s).flags.CF = b := by simp [bitFlags]
@[simp] theorem bitFlags_ZF : (bitFlags b s).flags.ZF = s.flags.ZF := by simp [bitFlags]
theorem bitFlags_of_preserve (h : s.params.flagsUnlisted = .preserve) : bitFlags b s = s.setCF b :=
  unlistedFlags_of_preserve false (s.setCF b) h

end

end Sys2Proof.Machine
end

