-- ==== Sys2Proof/Laws/Memory.lean ====
section
/-! SUPPORT. Laws/Memory.lean: memory keeps its canonical form, a read after a write, and equal memories are equal data (spec/20_memory.md
R51 to R53). -/

namespace Sys2Proof.Machine

@[simp] theorem Memory.get_nil (a : Nat) : Memory.get [] a = none := rfl

/-- A read after a write: the byte written at its address, the old byte elsewhere. -/
theorem Memory.get_set (m : Memory) (a : Nat) (b : Byte) (x : Nat) :
    Memory.get (Memory.set m a b) x = if x = a then some b else Memory.get m x := by
  induction m with
  | nil => simp [Memory.set, Memory.get, eq_comm]
  | cons c m ih =>
    obtain ⟨y, c⟩ := c
    simp only [Memory.set]
    split
    · by_cases h : x = a
      · simp [Memory.get, h]
      · simp [Memory.get, h, Ne.symm h]
    · split
      · rename_i h1 h2
        subst h2
        by_cases h : x = a
        · simp [Memory.get, h]
        · simp [Memory.get, h, Ne.symm h]
      · rename_i h1 h2
        by_cases hy : y = x
        · subst hy
          simp [Memory.get, Ne.symm h2]
        · simp [Memory.get, hy, ih]

theorem Memory.get_set_same (m : Memory) (a : Nat) (b : Byte) : Memory.get (Memory.set m a b) a = some b := by
  simp [Memory.get_set]

theorem Memory.get_set_other (m : Memory) {a x : Nat} (b : Byte) (h : x ≠ a) :
    Memory.get (Memory.set m a b) x = Memory.get m x := by
  simp [Memory.get_set, h]

theorem Memory.wf_cons (c : Host.Cell) (m : Memory) :
    Memory.wf (c :: m) = true ↔ (∀ d ∈ m, c.1 < d.1) ∧ Memory.wf m = true := by
  simp [Memory.wf]

/-- The addresses after a write are the old ones and the one written. -/
theorem Memory.mem_set {m : Memory} {a : Nat} {b : Byte} {d : Host.Cell} (h : d ∈ Memory.set m a b) : d.1 = a ∨ d ∈ m := by
  induction m with
  | nil => simp [Memory.set] at h; simp [h]
  | cons c m ih =>
    obtain ⟨y, c⟩ := c
    simp only [Memory.set] at h
    split at h
    · rcases List.mem_cons.mp h with rfl | h
      · exact .inl rfl
      · exact .inr h
    · split at h
      · rcases List.mem_cons.mp h with rfl | h
        · exact .inl rfl
        · exact .inr (List.mem_cons_of_mem _ h)
      · rcases List.mem_cons.mp h with rfl | h
        · exact .inr (List.mem_cons_self ..)
        · exact (ih h).imp id (List.mem_cons_of_mem _)

/-- A write keeps the canonical form. -/
theorem Memory.wf_set {m : Memory} (h : Memory.wf m = true) (a : Nat) (b : Byte) : Memory.wf (Memory.set m a b) = true := by
  induction m with
  | nil => rfl
  | cons c m ih =>
    obtain ⟨y, c⟩ := c
    obtain ⟨hy, hm⟩ := (Memory.wf_cons _ _).mp h
    simp only [Memory.set]
    split
    · rename_i hlt
      refine (Memory.wf_cons _ _).mpr ⟨fun d hd => ?_, h⟩
      rcases List.mem_cons.mp hd with rfl | hd
      · exact hlt
      · exact Nat.lt_trans hlt (hy d hd)
    · split
      · rename_i heq
        subst heq
        exact (Memory.wf_cons _ _).mpr ⟨hy, hm⟩
      · rename_i h1 h2
        refine (Memory.wf_cons _ _).mpr ⟨fun d hd => ?_, ih hm⟩
        rcases Memory.mem_set hd with e | hd
        · simp only [e]; omega
        · exact hy d hd

/-- A store of bytes keeps the canonical form. -/
theorem Memory.wf_setBytes {m : Memory} (h : Memory.wf m = true) (ps : List Nat) (bs : List Byte) :
    Memory.wf (Memory.setBytes m ps bs) = true := by
  induction ps generalizing m bs with
  | nil => simpa [Memory.setBytes] using h
  | cons p ps ih =>
    cases bs with
    | nil => simpa [Memory.setBytes] using h
    | cons b bs => exact ih (Memory.wf_set h p b) bs

/-- A store of bytes leaves every other address alone. -/
theorem Memory.get_setBytes_other (m : Memory) {ps : List Nat} (bs : List Byte) {a : Nat} (h : a ∉ ps) :
    Memory.get (Memory.setBytes m ps bs) a = Memory.get m a := by
  induction ps generalizing m bs with
  | nil => simp [Memory.setBytes]
  | cons p ps ih =>
    cases bs with
    | nil => simp [Memory.setBytes]
    | cons b bs =>
      have hp : a ≠ p ∧ a ∉ ps := by simpa using h
      simp only [Memory.setBytes]
      rw [ih _ _ hp.2, Memory.get_set_other _ _ hp.1]

/-- After a store to distinct addresses each holds its byte. -/
theorem Memory.get_setBytes_at (m : Memory) {ps : List Nat} (hn : ps.Nodup) {bs : List Byte} (hl : bs.length = ps.length)
    (j : Nat) (hj : j < ps.length) :
    Memory.get (Memory.setBytes m ps bs) ps[j] = some (bs[j]'(hl ▸ hj)) := by
  induction ps generalizing m bs j with
  | nil => exact absurd hj (Nat.not_lt_zero _)
  | cons p ps ih =>
    cases bs with
    | nil => simp at hl
    | cons b bs =>
      obtain ⟨hp, hn⟩ := List.nodup_cons.mp hn
      simp only [Memory.setBytes]
      cases j with
      | zero => simp [Memory.get_setBytes_other _ _ hp, Memory.get_set]
      | succ j => simpa using ih (Memory.set m p b) hn (by simpa using hl) j (by simpa using hj)

/-- No byte is listed below the first address of a canonical memory. -/
theorem Memory.get_eq_none_of_lt {m : Memory} {a : Nat} (h : ∀ d ∈ m, a < d.1) : Memory.get m a = none := by
  induction m with
  | nil => rfl
  | cons c m ih =>
    have hc := h c (List.mem_cons_self ..)
    rw [Memory.get, if_neg (by omega)]
    exact ih fun d hd => h d (List.mem_cons_of_mem _ hd)

/-- Equal memories are equal data: two canonical lists that list the same bytes are one list. -/
theorem Memory.ext_get {m n : Memory} (hm : Memory.wf m = true) (hn : Memory.wf n = true)
    (h : ∀ a, Memory.get m a = Memory.get n a) : m = n := by
  induction m generalizing n with
  | nil =>
    cases n with
    | nil => rfl
    | cons d n => simpa [Memory.get] using h d.1
  | cons c m ih =>
    cases n with
    | nil => simpa [Memory.get] using h c.1
    | cons d n =>
      obtain ⟨hc, hm⟩ := (Memory.wf_cons _ _).mp hm
      obtain ⟨hd, hn⟩ := (Memory.wf_cons _ _).mp hn
      have hcd : c.1 = d.1 := by
        rcases Nat.lt_trichotomy c.1 d.1 with hlt | he | hgt
        · have := h c.1
          rw [Memory.get, if_pos rfl, Memory.get_eq_none_of_lt] at this
          · simp at this
          · intro x hx
            rcases List.mem_cons.mp hx with rfl | hx
            · exact hlt
            · exact Nat.lt_trans hlt (hd x hx)
        · exact he
        · have := h d.1
          rw [Memory.get_eq_none_of_lt, Memory.get, if_pos rfl] at this
          · simp at this
          · intro x hx
            rcases List.mem_cons.mp hx with rfl | hx
            · exact hgt
            · exact Nat.lt_trans hgt (hc x hx)
      have hb : c.2 = d.2 := by
        have := h c.1
        rw [Memory.get, if_pos rfl, Memory.get, if_pos hcd.symm] at this
        simpa using this
      have ht : m = n := by
        refine ih hm hn fun a => ?_
        by_cases ha : a = c.1
        · subst ha
          rw [Memory.get_eq_none_of_lt hc, Memory.get_eq_none_of_lt (by rw [hcd]; exact hd)]
        · have := h a
          rwa [Memory.get, if_neg (Ne.symm ha), Memory.get, if_neg (by rw [← hcd]; exact Ne.symm ha)] at this
      rw [ht, Prod.ext hcd hb]

/-! Reads of the state. -/

@[simp] theorem readByte_setMem (s : State) (m : Memory) (a : Nat) :
    readByte (s.setMem m) a = (Memory.get m a).getD (Config.launchByte a) := rfl

/-- What a byte reads as depends on memory only. -/
theorem readByte_congr {s t : State} (h : s.mem = t.mem) (a : Nat) : readByte s a = readByte t a := by
  simp [readByte, h]

theorem readByte_setBytes_other (s : State) {ps : List Nat} (bs : List Byte) {a : Nat} (h : a ∉ ps) :
    readByte (s.setMem (Memory.setBytes s.mem ps bs)) a = readByte s a := by
  simp [readByte, Memory.get_setBytes_other _ _ h]

@[simp] theorem loadBytes_length (s : State) (ps : List Nat) : (loadBytes s ps).length = ps.length := by
  simp [loadBytes]

/-! Little-endian values (20_memory.md R52). -/

@[simp] theorem leBytes_length (k v : Nat) : (leBytes k v).length = k := by
  induction k generalizing v with
  | zero => rfl
  | succ k ih => simp [leBytes, ih]

theorem leValue_lt (bs : List Byte) : leValue bs < 256 ^ bs.length := by
  induction bs with
  | nil => simp [leValue]
  | cons b bs ih =>
    have := b.isLt
    simp only [leValue, List.length_cons, pow_succ]
    omega

/-- The bytes of a number give the number back. -/
theorem leValue_leBytes (k v : Nat) (h : v < 256 ^ k) : leValue (leBytes k v) = v := by
  induction k generalizing v with
  | zero => simp at h; simp [leBytes, leValue, h]
  | succ k ih =>
    have : v / 256 < 256 ^ k := by
      rw [pow_succ] at h
      omega
    simp only [leBytes, leValue, ih _ this, BitVec.toNat_ofNat]
    omega

/-- Bit `8j + i` of a little-endian value is bit `i` of byte `j`. -/
theorem testBit_leValue (bs : List Byte) (j i : Nat) (hj : j < bs.length) (hi : i < 8) :
    (leValue bs).testBit (8 * j + i) = bs[j].getLsbD i := by
  induction bs generalizing j with
  | nil => exact absurd hj (Nat.not_lt_zero _)
  | cons b bs ih =>
    have hb := b.isLt
    have e : leValue (b :: bs) = 2 ^ 8 * leValue bs + b.toNat := by simp [leValue]; omega
    rw [e, Nat.testBit_two_pow_mul_add _ (by simpa using hb)]
    cases j with
    | zero => simp [hi, BitVec.getLsbD]
    | succ j =>
      have h1 : ¬ 8 * (j + 1) + i < 8 := by omega
      have h2 : 8 * (j + 1) + i - 8 = 8 * j + i := by omega
      simp only [h1, if_false, h2, List.getElem_cons_succ]
      exact ih j (by simpa using hj)

/-- Memory at reset is canonical. -/
theorem Memory.wf_reset : Memory.wf State.reset.mem = true := rfl

/-- Bit `i` of byte `j` of a number's bytes is bit `8j + i` of the number. -/
theorem getLsbD_leBytes (k v j i : Nat) (hj : j < k) (hi : i < 8) :
    ((leBytes k v)[j]'(by simpa using hj)).getLsbD i = v.testBit (8 * j + i) := by
  induction k generalizing v j with
  | zero => exact absurd hj (Nat.not_lt_zero _)
  | succ k ih =>
    cases j with
    | zero =>
      simp only [leBytes, List.getElem_cons_zero, BitVec.getLsbD_ofNat, hi]
      simp
    | succ j =>
      simp only [leBytes, List.getElem_cons_succ]
      rw [ih _ j (by omega), show (256 : Nat) = 2 ^ 8 from rfl, Nat.testBit_div_two_pow]
      congr 1
      omega

end Sys2Proof.Machine
end

