-- ==== Sys2Proof/Laws/Access.lean ====
section
/-! SUPPORT. Laws/Access.lean: what `Translate` and the access primitives can answer (spec/20_memory.md R53, R64). -/

namespace Sys2Proof.Machine

/-! ## Translate -/

/-- Where the bytes of an access are depends on the segment registers and the parameters only. -/
theorem byteAddr_congr {s t : State} (hp : t.params = s.params) (hs : t.segs = s.segs) : byteAddr t = byteAddr s := by
  funext seg kind off
  simp [byteAddr, mappedByte, hp, hs]

/-- `Translate` reads the segment registers and the parameters only. -/
theorem translate_congr {s t : State} (hp : t.params = s.params) (hs : t.segs = s.segs) (seg : Seg) (off k : Nat)
    (kind : AccessKind) : translate t seg off k kind = translate s seg off k kind := by
  have hb : byteFault t = byteFault s := by
    funext seg off k kind j
    simp [byteFault, byteAddr_congr hp hs, hp]
  simp [translate, segFault, illegalFault, pageFault, hb, byteAddr_congr hp hs, hp, hs]

theorem memCheck_congr {s t : State} (hp : t.params = s.params) (hs : t.segs = s.segs) (seg : Seg) (off k : Nat)
    (kind : AccessKind) : memCheck t seg off k kind = memCheck s seg off k kind := by
  simp [memCheck, translate_congr hp hs, hp]

/-- An access has no page fault when none of its bytes has one. -/
theorem pageFault_eq_none_iff {s : State} {seg : Seg} {off k : Nat} {kind : AccessKind} :
    pageFault s seg off k kind = none ↔ ∀ j < k, byteFault s seg off k kind j = none := by
  simp [pageFault]

/-- The page fault of an access is that of its lowest byte that has one (60_exceptions.md R207). -/
theorem pageFault_eq_some {s : State} {seg : Seg} {off k : Nat} {kind : AccessKind} {c : Nat}
    (h : pageFault s seg off k kind = some c) :
    ∃ j < k, byteFault s seg off k kind j = some c ∧ ∀ i < j, byteFault s seg off k kind i = none := by
  obtain ⟨l₁, j, l₂, hl, hj, hi⟩ := List.findSome?_eq_some_iff.mp h
  have hlen : j = l₁.length ∧ j < k := by
    have hk : l₁.length < (List.range k).length := by rw [hl]; simp
    have := List.getElem_range (n := k) (j := l₁.length) hk
    simp only [hl, List.getElem_append_right (Nat.le_refl _), Nat.sub_self, List.getElem_cons_zero] at this
    subst this
    exact ⟨rfl, by simpa using hk⟩
  refine ⟨j, hlen.2, hj, fun i hij => hi i ?_⟩
  have hi' : i < l₁.length := hlen.1 ▸ hij
  have hk : i < (List.range k).length := by rw [hl]; simp; omega
  have : l₁[i] = i := by
    have h1 := List.getElem_range (n := k) (j := i) hk
    simpa only [hl, List.getElem_append_left hi'] using h1
  exact List.mem_of_getElem this

/-- Real Address Mode has no page fault (R64 point 1). -/
theorem byteFault_real {s : State} (hm : s.params.mode = .realAddress) (seg : Seg) (off k : Nat) (kind : AccessKind) (j : Nat) :
    byteFault s seg off k kind j = none := by
  simp [byteFault, hm]

theorem pageFault_real {s : State} (hm : s.params.mode = .realAddress) (seg : Seg) (off k : Nat) (kind : AccessKind) :
    pageFault s seg off k kind = none :=
  pageFault_eq_none_iff.mpr fun _ _ => byteFault_real hm ..

/-- When a byte of an access has no page fault, outside Real Address Mode. -/
theorem byteFault_eq_none_iff {s : State} (hm : s.params.mode ≠ .realAddress) {seg : Seg} {off k : Nat} {kind : AccessKind} {j : Nat} :
    byteFault s seg off k kind j = none ↔
      (∀ f ∈ s.params.pageFaults, f.strikes seg off k kind j = false) ∧
        (kind = .rmw → byteAddr s seg .read (off + j) = byteAddr s seg .write (off + j)) := by
  have key : byteFault s seg off k kind j =
      (match s.params.pageFaults.find? fun f => f.strikes seg off k kind j with
        | some f => some f.code
        | none =>
          if kind == .rmw && byteAddr s seg .read (off + j) != byteAddr s seg .write (off + j) then some s.params.splitFault
          else none) := by
    unfold byteFault
    cases h : s.params.mode with
    | realAddress => exact absurd h hm
    | protectedMode => rfl
    | virtual8086 => rfl
  rw [key]
  cases hf : s.params.pageFaults.find? fun f => f.strikes seg off k kind j with
  | some f =>
    simp only [reduceCtorEq, false_iff, not_and]
    intro h
    have := h f (List.mem_of_find?_eq_some hf)
    rw [List.find?_some hf] at this
    cases this
  | none =>
    have h1 : ∀ f ∈ s.params.pageFaults, f.strikes seg off k kind j = false := by simpa using hf
    rw [and_iff_right h1]
    cases kind <;> simp

/-- `Translate` answers a segment-level fault, a page fault, or where each byte is. -/
theorem translate_eq (s : State) (seg : Seg) (off k : Nat) (kind : AccessKind) :
    translate s seg off k kind =
      (match segFault s seg off k kind with
        | some e => .error e
        | none =>
          match pageFault s seg off k kind with
          | some c => .error (.pf c)
          | none => .ok ((List.range k).map fun j => byteAddr s seg kind (off + j))) := rfl

/-- When an access translates, and where its bytes are. -/
theorem translate_ok_iff (s : State) (seg : Seg) (off k : Nat) (kind : AccessKind) (ps : List Nat) :
    translate s seg off k kind = .ok ps ↔
      segFault s seg off k kind = none ∧ pageFault s seg off k kind = none ∧
        ps = (List.range k).map fun j => byteAddr s seg kind (off + j) := by
  rw [translate_eq]
  cases segFault s seg off k kind <;> cases pageFault s seg off k kind <;> simp [eq_comm]

/-- A page fault of `Translate` is the access's page fault, where no segment-level fault applies (60_exceptions.md R207). -/
theorem translate_pf_iff (s : State) (seg : Seg) (off k : Nat) (kind : AccessKind) (c : Nat) :
    translate s seg off k kind = .error (.pf c) ↔
      segFault s seg off k kind = some (.pf c) ∨ segFault s seg off k kind = none ∧ pageFault s seg off k kind = some c := by
  rw [translate_eq]
  cases segFault s seg off k kind <;> cases pageFault s seg off k kind <;> simp

theorem translate_length {s : State} {seg : Seg} {off k : Nat} {kind : AccessKind} {ps : List Nat}
    (h : translate s seg off k kind = .ok ps) : ps.length = k := by
  rw [((translate_ok_iff ..).mp h).2.2]
  simp

/-- Outside Protected Mode the segment-level fault is Interrupt 13, past offset 0FFFFH (R55, R57). -/
theorem segFault_low {s : State} {seg : Seg} {off k : Nat} {kind : AccessKind} (hm : s.params.mode ≠ .protectedMode) :
    segFault s seg off k kind = if off + k - 1 > 0xFFFF then some .interrupt13 else none := by
  unfold segFault
  cases h : s.params.mode with
  | protectedMode => exact absurd h hm
  | realAddress => rfl
  | virtual8086 => rfl

/-- When an address is legal in Protected Mode (R54, R64). -/
theorem SegReg.legal_iff (g : SegReg) (off k : Nat) (kind : AccessKind) : g.legal off k kind = true ↔
    off + k - 1 ≤ 0xFFFFFFFF ∧ ∃ x ∈ g.windows, x.lo ≤ off ∧ off + k - 1 ≤ x.hi ∧ x.admits kind = true := by
  unfold SegReg.legal
  simp [Config.lastOffset32, and_assoc]

/-- The fault of an illegal address: GP(0), or SS(0) in SS; in SS it is GP(0) only for a write to a nonwritable segment (R56). -/
theorem illegalFault_eq (s : State) (seg : Seg) (off k : Nat) (kind : AccessKind) :
    illegalFault s seg off k kind = (if seg = .ss then .ss0 else .gp0) ∨
      seg = .ss ∧ kind.stores = true ∧ (s.segs.get seg).writable = false ∧ illegalFault s seg off k kind = .gp0 := by
  unfold illegalFault
  simp only
  split
  · rename_i h
    by_cases hs : seg = .ss
    · refine .inr ⟨hs, ?_⟩
      have := (Bool.and_eq_true_iff.mp h).1
      cases kind <;> simp_all [SegReg.writeBarred, AccessKind.stores]
    · simp [hs]
  · cases seg <;> simp [illegalAddress]

theorem illegalFault_cases (s : State) (seg : Seg) (off k : Nat) (kind : AccessKind) :
    illegalFault s seg off k kind = .gp0 ∨ illegalFault s seg off k kind = .ss0 ∧ seg = .ss := by
  rcases illegalFault_eq s seg off k kind with h | h
  · by_cases hs : seg = .ss
    · exact .inr ⟨by simpa [hs] using h, hs⟩
    · exact .inl (by simpa [hs] using h)
  · exact .inl h.2.2.2

/-- Every segment-level fault, by mode (R55 to R57). -/
theorem segFault_some {s : State} {seg : Seg} {off k : Nat} {kind : AccessKind} {e : Exc} (h : segFault s seg off k kind = some e) :
    (e = .interrupt13 ∧ s.params.mode ≠ .protectedMode) ∨ ((e = .gp0 ∨ e = .ss0 ∧ seg = .ss) ∧ s.params.mode = .protectedMode) := by
  by_cases hm : s.params.mode = .protectedMode
  · unfold segFault at h
    rw [hm] at h
    simp only at h
    refine .inr ⟨?_, hm⟩
    split at h
    · cases h; exact illegalFault_cases ..
    · split at h
      · cases h; exact .inl rfl
      · cases h
  · rw [segFault_low hm] at h
    split at h
    · cases h; exact .inl ⟨rfl, hm⟩
    · cases h

/-- Every fault of `Translate`, by mode (R64 points 1 to 3). -/
theorem translate_error {s : State} {seg : Seg} {off k : Nat} {kind : AccessKind} {e : Exc}
    (h : translate s seg off k kind = .error e) :
    (e = .interrupt13 ∧ s.params.mode ≠ .protectedMode) ∨
      ((e = .gp0 ∨ e = .ss0 ∧ seg = .ss) ∧ s.params.mode = .protectedMode) ∨ ∃ c, e = .pf c ∧ s.params.mode ≠ .realAddress := by
  rw [translate_eq] at h
  cases hs : segFault s seg off k kind with
  | none =>
    cases hp : pageFault s seg off k kind with
    | none => simp [hs, hp] at h
    | some c =>
      simp only [hs, hp, Except.error.injEq] at h
      refine .inr (.inr ⟨c, h.symm, fun hm => ?_⟩)
      rw [pageFault_real hm] at hp
      cases hp
  | some x =>
    rw [hs] at h
    cases h
    exact (segFault_some hs).imp id .inl

/-! ## The access primitives -/

/-- What a check that answers addresses has checked (R53): the translation, `RAM`, and for a store `CODE`. -/
theorem memCheck_ok_iff (s : State) (seg : Seg) (off k : Nat) (kind : AccessKind) (ps : List Nat) :
    memCheck s seg off k kind = .ok ps ↔
      translate s seg off k kind = .ok ps ∧ (∀ p ∈ ps, inRanges s.params.ram p = true) ∧
        (kind.stores = true → ∀ p ∈ ps, inRanges s.params.code p = false) := by
  unfold memCheck
  cases translate s seg off k kind with
  | error e => simp
  | ok qs =>
    simp only [Except.ok.injEq]
    constructor
    · intro h
      split at h
      · cases h
      · split at h
        · cases h
        · rename_i h1 h2
          cases h
          refine ⟨rfl, by simpa using h1, fun hk => ?_⟩
          simpa [hk] using h2
    · rintro ⟨rfl, h1, h2⟩
      rw [if_neg (by simpa using h1), if_neg]
      cases hk : kind.stores
      · simp
      · simpa using h2 hk

/-- A check raises exactly what `Translate` raises. -/
theorem memCheck_raise_iff {s : State} {seg : Seg} {off k : Nat} {kind : AccessKind} {e : Exc} :
    memCheck s seg off k kind = .error (.raise e) ↔ translate s seg off k kind = .error e := by
  unfold memCheck
  cases translate s seg off k kind with
  | error x => simp
  | ok ps =>
    simp only
    split
    · simp
    · split <;> simp

theorem memCheck_length {s : State} {seg : Seg} {off k : Nat} {kind : AccessKind} {ps : List Nat}
    (h : memCheck s seg off k kind = .ok ps) : ps.length = k :=
  translate_length ((memCheck_ok_iff ..).mp h).1

/-- A check that stops raises what `Translate` gives, or refuses. -/
theorem memCheck_error {s : State} {seg : Seg} {off k : Nat} {kind : AccessKind} {e : Stop}
    (h : memCheck s seg off k kind = .error e) :
    (∃ x, translate s seg off k kind = .error x ∧ e = .raise x) ∨ e = .refuse .notRAM ∨
      (kind.stores = true ∧ e = .refuse .codeOverwrite) := by
  unfold memCheck at h
  split at h
  · cases h
    exact .inl ⟨_, ‹_›, rfl⟩
  · split at h
    · cases h
      exact .inr (.inl rfl)
    · split at h
      · rename_i hc
        cases h
        exact .inr (.inr ⟨by simp at hc; exact hc.1, rfl⟩)
      · cases h

theorem memRead_ok_iff (s : State) (seg : Seg) (off k v : Nat) :
    memRead s seg off k = .ok v ↔ ∃ ps, memCheck s seg off k .read = .ok ps ∧ v = leValue (loadBytes s ps) := by
  unfold memRead
  cases memCheck s seg off k .read with
  | error e => simp
  | ok ps => simp [eq_comm]

theorem memRead_error_iff (s : State) (seg : Seg) (off k : Nat) (e : Stop) :
    memRead s seg off k = .error e ↔ memCheck s seg off k .read = .error e := by
  unfold memRead
  cases memCheck s seg off k .read <;> simp

theorem memWrite_ok_iff (s : State) (seg : Seg) (off k v : Nat) (t : State) :
    memWrite s seg off k v = .ok t ↔
      ∃ ps, memCheck s seg off k .write = .ok ps ∧ t = s.setMem (Memory.setBytes s.mem ps (leBytes k v)) := by
  unfold memWrite
  cases memCheck s seg off k .write with
  | error e => simp
  | ok ps => simp [eq_comm]

end Sys2Proof.Machine
end

