-- ==== Sys2Proof/Laws/Decode.lean ====
section
/-! SUPPORT. Laws/Decode.lean: the fields, bytes and prefixes of an encoding come back as they were put in (spec/30_encoding.md R91, R95,
R98, R99, R101). -/

namespace Sys2Proof

@[simp] theorem Reg.ofBits_toBits (r : Reg) : Reg.ofBits r.toBits = r := by cases r <;> rfl

@[simp] theorem Reg.toBits_ofBits (b : BitVec 3) : (Reg.ofBits b).toBits = b := by
  revert b; decide

@[simp] theorem Base16.ofBits_toBits (b : Base16) : Base16.ofBits b.toBits = b := by cases b <;> rfl

@[simp] theorem Base16.toBits_ofBits (b : BitVec 3) : (Base16.ofBits b).toBits = b := by
  revert b; decide

section
variable (hi : BitVec 2) (mid low : BitVec 3)

@[simp] theorem hiField_fieldByte : hiField (fieldByte hi mid low) = hi := by
  revert hi mid low; decide

@[simp] theorem midField_fieldByte : midField (fieldByte hi mid low) = mid := by
  revert hi mid low; decide

@[simp] theorem lowField_fieldByte : lowField (fieldByte hi mid low) = low := by
  revert hi mid low; decide

end

@[simp] theorem fieldByte_fields (b : Byte) : fieldByte (hiField b) (midField b) (lowField b) = b := by
  revert b; decide

/-- A 16-bit displacement's bytes give it back. -/
theorem word2_wordBytes (w : Word) : word2 (w.extractLsb' 0 8) (w.extractLsb' 8 8) = w := by
  apply BitVec.eq_of_getLsbD_eq
  intro i hi
  simp only [word2, BitVec.getLsbD_append, BitVec.getLsbD_extractLsb']
  by_cases h : i < 8
  · simp only [h, if_true, decide_true, Bool.true_and, Nat.zero_add]
  · simp only [h, if_false, show i - 8 < 8 by omega, decide_true, Bool.true_and, show 8 + (i - 8) = i by omega]

theorem wordBytes_word2 (b0 b1 : Byte) : wordBytes (word2 b0 b1) = [b0, b1] := by
  have h0 : (word2 b0 b1).extractLsb' 0 8 = b0 := by
    apply BitVec.eq_of_getLsbD_eq
    intro i hi
    simp only [word2, BitVec.getLsbD_append, BitVec.getLsbD_extractLsb', Nat.zero_add, hi, decide_true, Bool.true_and, if_true]
  have h1 : (word2 b0 b1).extractLsb' 8 8 = b1 := by
    apply BitVec.eq_of_getLsbD_eq
    intro i hi
    simp only [word2, BitVec.getLsbD_append, BitVec.getLsbD_extractLsb', hi, decide_true, Bool.true_and,
      show ¬ 8 + i < 8 by omega, if_false, show 8 + i - 8 = i by omega]
  rw [wordBytes, h0, h1]

/-- A 32-bit displacement's bytes give it back. -/
theorem dword4_dwordBytes (w : Dword) :
    dword4 (w.extractLsb' 0 8) (w.extractLsb' 8 8) (w.extractLsb' 16 8) (w.extractLsb' 24 8) = w := by
  apply BitVec.eq_of_getLsbD_eq
  intro i hi
  simp only [dword4, BitVec.getLsbD_append, BitVec.getLsbD_extractLsb']
  split
  · simp_all
  · split
    · simp_all [show 8 + (i - 8) = i by omega]
    · split
      · simp_all [show 16 + (i - 8 - 8) = i by omega]
      · simp_all [show 24 + (i - 8 - 8 - 8) = i by omega, show i - 8 - 8 - 8 < 8 by omega]

theorem dwordBytes_dword4 (b0 b1 b2 b3 : Byte) : dwordBytes (dword4 b0 b1 b2 b3) = [b0, b1, b2, b3] := by
  have h0 : (dword4 b0 b1 b2 b3).extractLsb' 0 8 = b0 := by
    apply BitVec.eq_of_getLsbD_eq
    intro i hi
    simp only [dword4, BitVec.getLsbD_append, BitVec.getLsbD_extractLsb', Nat.zero_add, hi, decide_true, Bool.true_and, if_true]
  have h1 : (dword4 b0 b1 b2 b3).extractLsb' 8 8 = b1 := by
    apply BitVec.eq_of_getLsbD_eq
    intro i hi
    simp only [dword4, BitVec.getLsbD_append, BitVec.getLsbD_extractLsb', hi, decide_true, Bool.true_and,
      show ¬ 8 + i < 8 by omega, if_false, show 8 + i - 8 = i by omega, if_true]
  have h2 : (dword4 b0 b1 b2 b3).extractLsb' 16 8 = b2 := by
    apply BitVec.eq_of_getLsbD_eq
    intro i hi
    simp only [dword4, BitVec.getLsbD_append, BitVec.getLsbD_extractLsb', hi, decide_true, Bool.true_and,
      show ¬ 16 + i < 8 by omega, show ¬ 16 + i - 8 < 8 by omega, if_false, show 16 + i - 8 - 8 = i by omega, if_true]
  have h3 : (dword4 b0 b1 b2 b3).extractLsb' 24 8 = b3 := by
    apply BitVec.eq_of_getLsbD_eq
    intro i hi
    simp only [dword4, BitVec.getLsbD_append, BitVec.getLsbD_extractLsb', hi, decide_true, Bool.true_and,
      show ¬ 24 + i < 8 by omega, show ¬ 24 + i - 8 < 8 by omega, show ¬ 24 + i - 8 - 8 < 8 by omega, if_false,
      show 24 + i - 8 - 8 - 8 = i by omega]
  rw [dwordBytes, h0, h1, h2, h3]

@[simp] theorem Prefix.ofByte_byte (p : Prefix) : Prefix.ofByte p.byte = some p := by
  rcases p with _ | _ | s <;> first | rfl | cases s <;> rfl

/-- Only the byte of a prefix is read as it. -/
theorem Prefix.byte_of_ofByte {b : Byte} {p : Prefix} (h : Prefix.ofByte b = some p) : p.byte = b := by
  unfold Prefix.ofByte at h
  repeat' split at h
  all_goals first | (cases h; simp_all [Prefix.byte]) | cases h

/-! The length of what the encoder writes (R103). -/

@[simp] theorem wordBytes_length (w : Word) : (wordBytes w).length = 2 := rfl
@[simp] theorem dwordBytes_length (w : Dword) : (dwordBytes w).length = 4 := rfl

theorem Disp16.bytes_length (d : Disp16) : d.bytes.length = d.length := by cases d <;> rfl
theorem Disp32.bytes_length (d : Disp32) : d.bytes.length = d.length := by cases d <;> rfl

theorem encodeRM_length (r : BitVec 3) (m : RM) : (encodeRM r m).length = m.length := by
  rcases m with x | m
  · rfl
  · cases m <;>
      simp only [encodeRM, RM.length, List.length_cons, Disp16.bytes_length, Disp32.bytes_length, wordBytes_length,
        dwordBytes_length] <;> omega

/-- The bytes of an instruction by its parts. -/
theorem encode_length (i : Instr) :
    (encode i).length = i.prefixes.length + i.opcode.length + i.rm.length + i.immBytes.length := by
  simp [encode, encodeRM_length, Nat.add_assoc]

/-! What the decoder reads from the encoder's bytes, part by part (R106). -/

theorem Prefix.sameClass_symm (p q : Prefix) : p.sameClass q = q.sameClass p := by
  cases p <;> cases q <;> rfl

/-- The prefix loop reads admitted prefixes one by one (R91, R106). -/
theorem decodeFrom_prefixes (d : Defaults) (pre ps : List Prefix) (bs : List Byte) (h : prefixesOk ps = true)
    (hd : ∀ p ∈ ps, ∀ q ∈ pre, p.sameClass q = false) :
    decodeFrom d pre (ps.map Prefix.byte ++ bs) = decodeFrom d (pre ++ ps) bs := by
  induction ps generalizing pre with
  | nil => simp
  | cons p ps ih =>
    simp only [prefixesOk, Bool.and_eq_true, List.all_eq_true, Bool.not_eq_true'] at h
    simp only [List.map_cons, List.cons_append]
    rw [decodeFrom]
    simp only [Prefix.ofByte_byte]
    rw [if_neg, ih _ h.2]
    · simp
    · intro x hx q hq
      rcases List.mem_append.mp hq with hq | hq
      · exact hd x (List.mem_cons_of_mem _ hx) q hq
      · simp only [List.mem_singleton] at hq
        subst hq
        rw [Prefix.sameClass_symm]
        exact h.1 x hx
    · simp only [List.any_eq_true, not_exists, not_and]
      intro q hq
      simp [hd p (List.mem_cons_self ..) q hq]

theorem decode_prefixes (d : Defaults) (ps : List Prefix) (bs : List Byte) (h : prefixesOk ps = true) :
    decode d (ps.map Prefix.byte ++ bs) = decodeFrom d ps bs := by
  simpa [decode] using decodeFrom_prefixes d [] ps bs h (by simp)

/-- The first byte that is no prefix is the opcode (R106). -/
theorem decodeFrom_opcode (d : Defaults) (pre : List Prefix) (b : Byte) (bs : List Byte)
    (h : Prefix.ofByte b = none) (h2 : ¬ (b = 0xF0 ∨ b = 0xF2 ∨ b = 0xF3)) :
    decodeFrom d pre (b :: bs) = decodeOpcode (opSizeOf d.opSize pre) (addrSizeOf d.addrSize pre) pre b bs := by
  rw [decodeFrom]; simp only [h, if_neg h2]

/-- A ModRM byte, what follows it, and what is done with its `reg` field and its operand. -/
def afterModRM (a : Size) (l : List Byte) (f : BitVec 3 → RM → List Byte → Decoded) : Decoded :=
  need8 l fun m bs => decodeRM a (hiField m) (lowField m) bs (f (midField m))

/-- A well-formed operand's ModRM, SIB and displacement bytes decode to it, under any `reg` field (R95 to R99). -/
theorem afterModRM_encodeRM (a : Size) (r : BitVec 3) (rm : RM) (tl : List Byte) (f : BitVec 3 → RM → List Byte → Decoded)
    (h : rmOk a rm = true) : afterModRM a (encodeRM r rm ++ tl) f = f r rm tl := by
  rcases rm with x | m
  · simp [afterModRM, need8, encodeRM, decodeRM]
  · simp only [rmOk] at h
    rcases m with ⟨b, d⟩ | d | ⟨b, d⟩ | d | ⟨s, x, b, d⟩ | ⟨s, x, d⟩
    · have ha : a = .w16 := by revert h; cases b <;> cases d <;> simp [memOpOk]
      subst ha
      cases d <;> cases b <;>
        simp [afterModRM, need8, encodeRM, decodeRM, decodeMem16, decodeDisp16, Disp16.mod, Disp16.bytes,
          Base16.toBits, Base16.ofBits, memOpOk, need16, wordBytes, word2_wordBytes] at h ⊢
    · have ha : a = .w16 := by simpa [memOpOk] using h
      subst ha
      simp [afterModRM, need8, encodeRM, decodeRM, decodeMem16, need16, wordBytes, word2_wordBytes]
    · have ha : a = .w32 := by revert h; cases b <;> cases d <;> simp [memOpOk]
      subst ha
      cases d <;> cases b <;>
        simp [afterModRM, need8, encodeRM, decodeRM, decodeMem32, decodeDisp32, Disp32.mod,
          Disp32.bytes, Reg.toBits, Reg.ofBits, memOpOk, need32, dwordBytes, dword4_dwordBytes] at h ⊢
    · have ha : a = .w32 := by simpa [memOpOk] using h
      subst ha
      simp [afterModRM, need8, encodeRM, decodeRM, decodeMem32, need32, dwordBytes, dword4_dwordBytes]
    · have ha : a = .w32 := by revert h; cases b <;> cases d <;> simp [memOpOk]
      subst ha
      cases d <;> cases b <;>
        simp [afterModRM, need8, encodeRM, decodeRM, decodeMem32, decodeSib, decodeDisp32, Disp32.mod,
          Disp32.bytes, memOpOk, need32, dwordBytes, dword4_dwordBytes, Reg.toBits.eq_1, Reg.toBits.eq_2, Reg.toBits.eq_3,
          Reg.toBits.eq_4, Reg.toBits.eq_5, Reg.toBits.eq_6, Reg.toBits.eq_7, Reg.toBits.eq_8] at h ⊢ <;> simp [Reg.ofBits]
    · have ha : a = .w32 := by simpa [memOpOk] using h
      subst ha
      simp [afterModRM, need8, encodeRM, decodeRM, decodeMem32, decodeSib, need32, dwordBytes, dword4_dwordBytes]

/-- `62 /r` (R94 rows 1, 2). -/
theorem decodeOpcode_bound (w a : Size) (pre : List Prefix) (r : Reg) (rm : RM) (tl : List Byte) (h : rmOk a rm = true) :
    decodeOpcode w a pre 0x62 (encodeRM r.toBits rm ++ tl) = .done (boundRow w pre r rm) tl := by
  have := afterModRM_encodeRM a r.toBits rm tl (fun r rm => .done (boundRow w pre (Reg.ofBits r) rm)) h
  rw [Reg.ofBits_toBits] at this
  rw [decodeOpcode, if_pos rfl]
  exact this

/-- `0F xx /r` (R94). -/
theorem decodeOpcode_regRow {w a : Size} {pre : List Prefix} {c : Byte} {mk : List Prefix → Reg → RM → Instr}
    (hc : regRow w c = some mk) (r : Reg) {rm : RM} (tl : List Byte) (h : rmOk a rm = true) :
    decodeOpcode w a pre 0x0F (c :: (encodeRM r.toBits rm ++ tl)) = .done (mk pre r rm) tl := by
  have := afterModRM_encodeRM a r.toBits rm tl (fun r rm => .done (mk pre (Reg.ofBits r) rm)) h
  rw [Reg.ofBits_toBits] at this
  have hne : c ≠ 0xBA := by rintro rfl; revert hc; cases w <;> simp [regRow]
  rw [decodeOpcode, if_neg (by decide), if_pos rfl, need8]
  simp only [if_neg hne, hc]
  exact this

/-- `0F BA /digit ib` (R94). -/
theorem decodeOpcode_groupRow {w a : Size} {pre : List Prefix} {g : BitVec 3} {mk : List Prefix → RM → Byte → Instr}
    (hg : groupRow w g = some mk) {rm : RM} (imm : Byte) (tl : List Byte) (h : rmOk a rm = true) :
    decodeOpcode w a pre 0x0F (0xBA :: (encodeRM g rm ++ imm :: tl)) = .done (mk pre rm imm) tl := by
  obtain ⟨m, l, hl, hm⟩ : ∃ m l, encodeRM g rm ++ imm :: tl = m :: l ∧ midField m = g := by
    rcases rm with x | m
    · exact ⟨_, _, rfl, by simp⟩
    · cases m <;> exact ⟨_, _, rfl, by simp⟩
  have := afterModRM_encodeRM a g rm (imm :: tl) (fun _ rm bs => need8 bs fun imm => .done (mk pre rm imm)) h
  rw [hl] at this ⊢
  rw [decodeOpcode, if_neg (by decide), if_pos rfl]
  simp only [need8, hm, hg]
  exact this

end Sys2Proof
end

