-- ==== Sys2Proof/Laws/Registers.lean ====
section
/-! SUPPORT. Laws/Registers.lean: register reads after register writes (spec/10_state.md R21, R22). -/

namespace Sys2Proof.Machine

@[simp] theorem Regs.get_set_same (g : Regs) (r : Reg) (v : Dword) : (g.set r v).get r = v := by
  cases r <;> rfl

theorem Regs.get_set_other (g : Regs) {r q : Reg} (v : Dword) (h : q ≠ r) : (g.set r v).get q = g.get q := by
  cases r <;> cases q <;> first | rfl | exact absurd rfl h

/-- A register file is its eight registers. -/
theorem Regs.ext_get {g h : Regs} (e : ∀ r, g.get r = h.get r) : g = h := by
  cases g; cases h
  simp only [Regs.mk.injEq]
  exact ⟨e .eax, e .ecx, e .edx, e .ebx, e .esp, e .ebp, e .esi, e .edi⟩

/-- The bits of a merged register: below the width the new value's, above it the old ones. -/
theorem getLsbD_mergeLow (w : Size) (old : Dword) (v : BitVec w.bits) (j : Nat) (hj : j < 32) :
    (mergeLow w old v).getLsbD j = if j < w.bits then v.getLsbD j else old.getLsbD j := by
  simp only [mergeLow, widthMask, BitVec.getLsbD_or, BitVec.getLsbD_and, BitVec.getLsbD_not, BitVec.getLsbD_setWidth,
    BitVec.getLsbD_allOnes, hj, decide_true, Bool.true_and]
  by_cases h : j < w.bits
  · simp [h]
  · simp [h, BitVec.getLsbD_of_ge v j (Nat.not_lt.mp h)]

@[simp] theorem readReg_setReg_same (s : State) (w : Size) (r : Reg) (v : BitVec w.bits) :
    readReg w r (s.setReg w r v) = v := by
  apply BitVec.eq_of_getLsbD_eq
  intro j hj
  have : j < 32 := by cases w <;> simp [Size.bits] at hj <;> omega
  simp only [readReg, BitVec.getLsbD_setWidth, State.setReg_regs, Regs.get_set_same, getLsbD_mergeLow _ _ _ _ this, hj,
    decide_true, Bool.true_and, if_true]

/-- Bits at and above the width are kept (R22). -/
theorem setReg_high_bits (s : State) (w : Size) (r : Reg) (v : BitVec w.bits) (q : Reg) (j : Nat) (h : w.bits ≤ j) :
    ((s.setReg w r v).regs.get q).getLsbD j = (s.regs.get q).getLsbD j := by
  by_cases hj : j < 32
  · by_cases hq : q = r
    · subst hq
      rw [State.setReg_regs, Regs.get_set_same, getLsbD_mergeLow _ _ _ _ hj, if_neg (Nat.not_lt.mpr h)]
    · rw [State.setReg_regs, Regs.get_set_other _ _ hq]
  · rw [BitVec.getLsbD_of_ge _ _ (by omega), BitVec.getLsbD_of_ge _ _ (by omega)]

theorem setReg_other (s : State) (w : Size) {r q : Reg} (v : BitVec w.bits) (h : q ≠ r) :
    (s.setReg w r v).regs.get q = s.regs.get q := by
  simp [Regs.get_set_other _ _ h]

/-- A register reads the same where the register files are the same. -/
theorem readReg_congr {s t : State} (w : Size) (r : Reg) (h : s.regs = t.regs) : readReg w r s = readReg w r t := by
  simp [readReg, h]

/-- A bit below the width, read at the width (R22). -/
theorem getLsbD_readReg (w : Size) (r : Reg) (s : State) {j : Nat} (hj : j < w.bits) :
    (readReg w r s).getLsbD j = (s.regs.get r).getLsbD j := by
  simp [readReg, hj]

end Sys2Proof.Machine
end

