-- ==== Sys2Proof/Laws/Exec.lean ====
section
/-! SUPPORT. Laws/Exec.lean: everything each shared operation can do, once; every meaning as one of three operations; and the steps. -/

namespace Sys2Proof.Machine

/-! ## Completing, stopping -/

/-- An instruction that completes advances EIP by its length, in the space of its mode, and changes nothing else (10_state.md R25). -/
theorem complete_eq_next_iff (len : Nat) (b a t : State) :
    complete len b a = .next t ↔ EipFits b len ∧ t = a.setEip (eipAfter b len) := by
  have e : BitVec.ofNat 32 (b.eip.toNat + len) = eipAfter b len := by
    simp [eipAfter, BitVec.ofNat_add]
  unfold complete nextEip
  by_cases h : b.eip.toNat + len > lastEip b.params.mode
  · simp [h, EipFits]
  · simp only [h, if_false, e, Host.Outcome.next.injEq]
    exact ⟨fun x => ⟨Nat.not_lt.mp h, x.symm⟩, fun x => x.2.symm⟩

theorem complete_of_fits {len : Nat} {b : State} (h : EipFits b len) (a : State) :
    complete len b a = .next (a.setEip (eipAfter b len)) :=
  (complete_eq_next_iff ..).mpr ⟨h, rfl⟩

theorem complete_of_not_fits {len : Nat} {b : State} (h : ¬ EipFits b len) (a : State) :
    complete len b a = .refused .addressArithmeticOverflow := by
  unfold complete nextEip
  rw [if_pos (Nat.not_le.mp h)]

/-- Completing never traps. -/
theorem complete_ne_fault (len : Nat) (b a : State) (f : Fault) : complete len b a ≠ .fault f := by
  unfold complete
  split <;> simp

theorem takeException_ne_next (e : Exc) (s t : State) : takeException e s ≠ .next t := by
  cases e <;> simp [takeException]

/-- A taken exception is a trap that carries its vector, its error code, the address of the instruction and the state before it
(60_exceptions.md R208). -/
theorem takeException_eq_fault {e : Exc} {s : State} {f : Fault} (h : takeException e s = .fault f) :
    f.record = trapRecord e s := by
  cases e <;> simp only [takeException, Host.Outcome.fault.injEq] at h <;> subst h <;> rfl

theorem stop_ne_next (e : Stop) (s t : State) : stop e s ≠ .next t := by
  cases e
  · exact takeException_ne_next _ s t
  · simp [stop]

/-- A stop that is a trap raised an exception. -/
theorem stop_eq_fault {e : Stop} {s : State} {f : Fault} (h : stop e s = .fault f) :
    ∃ x, e = .raise x ∧ takeException x s = .fault f := by
  cases e with
  | raise x => exact ⟨x, rfl, h⟩
  | refuse r => simp [stop] at h

/-- Two exceptions taken in one state end alike only if they are the same. -/
theorem takeException_inj {a b : Exc} {s : State} : takeException a s = takeException b s ↔ a = b := by
  constructor
  · intro h
    cases a <;> cases b <;> simp_all [takeException, trapRecord, Exc.errorCode]
  · rintro rfl
    rfl

/-- Completing an instruction is no trap. -/
theorem complete_ne_takeException (len : Nat) (b a : State) (e : Exc) (s : State) : complete len b a ≠ takeException e s := by
  cases e <;> exact complete_ne_fault _ _ _ _

/-- A stop is the taking of an exception only if that exception was raised. -/
theorem stop_eq_takeException_iff {e : Stop} {x : Exc} {s : State} : stop e s = takeException x s ↔ e = .raise x := by
  cases e with
  | raise y => simp [stop, takeException_inj]
  | refuse r => cases x <;> simp [stop, takeException]

/-! ## Integers, addresses, bits -/

/-- The two readings of a pattern as a signed integer (00_scope.md R10) agree. -/
theorem sint_eq_toInt (w : Size) (v : BitVec w.bits) : sint w v.toNat = v.toInt := by
  have := v.isLt
  unfold sint
  cases w <;> simp only [Size.bits, BitVec.toInt] at * <;> split_ifs <;> push_cast <;> omega

/-- An effective address is an A-bit value (30_encoding.md R97 to R99). -/
theorem effAddr_lt (m : MemOp) (g : Regs) : effAddr m g < 2 ^ (memOpSize m).bits := by
  rcases m with ⟨b, d⟩ | d | ⟨b, d⟩ | d | ⟨s, x, b, d⟩ | ⟨s, x, d⟩ <;> simp only [effAddr, memOpSize] <;> exact BitVec.isLt _

/-- One bit of a pattern is replaced and the others are kept (42_bit_test.md R173). -/
theorem getLsbD_replaceBit {n : Nat} (v : BitVec n) (b : Nat) (c : Bool) (j : Nat) (hb : b < n) :
    (replaceBit v b c).getLsbD j = if j = b then c else v.getLsbD j := by
  by_cases hj : j < n
  · simp only [replaceBit, BitVec.getLsbD_or, BitVec.getLsbD_and, BitVec.getLsbD_not, BitVec.getLsbD_shiftLeft,
      BitVec.getLsbD_setWidth, BitVec.getLsbD_ofBool, BitVec.getLsbD_one, hj, decide_true, Bool.true_and]
    by_cases h : j = b
    · subst h; have : 0 < n := by omega
      simp [this]
    · by_cases h2 : j < b
      · simp [h, h2]
      · have : j - b ≠ 0 := by omega
        simp [h, h2, this]
  · rw [BitVec.getLsbD_of_ge _ _ (by omega), BitVec.getLsbD_of_ge _ _ (by omega), if_neg (by omega)]

/-! ## Faults of a memory operand -/

/-- The fault of an illegal address meets the conditions of the exception lists of Protected Mode (20_memory.md R56). -/
theorem operandFault_illegal {s : State} (hm : s.params.mode = .protectedMode) (seg : Seg) (off k : Nat) (kind : AccessKind) :
    OperandFault s seg off k kind (illegalFault s seg off k kind) := by
  rcases illegalFault_eq s seg off k kind with h | ⟨-, hk, hw, h⟩
  · rw [h]
    split
    · exact ⟨hm, ‹_›⟩
    · exact ⟨hm, .inl ‹_›⟩
  · rw [h]
    exact ⟨hm, .inr ⟨hk, hw⟩⟩

/-- A fault of `Translate` meets the conditions of the exception lists, by mode (20_memory.md R55 to R57). -/
theorem operandFault_of_translate {s : State} {seg : Seg} {off k : Nat} {kind : AccessKind} {e : Exc}
    (h : translate s seg off k kind = .error e) : OperandFault s seg off k kind e := by
  rw [translate_eq] at h
  cases hs : segFault s seg off k kind with
  | none =>
    cases hp : pageFault s seg off k kind with
    | none => simp [hs, hp] at h
    | some c =>
      simp only [hs, hp, Except.error.injEq] at h
      subst h
      cases hm : s.params.mode with
      | protectedMode => exact .inl hm
      | realAddress =>
        rw [pageFault_real hm] at hp
        cases hp
      | virtual8086 =>
        rw [segFault_low (by simp [hm])] at hs
        split at hs
        · cases hs
        · exact .inr ⟨hm, by omega⟩
  | some x =>
    rw [hs] at h
    cases h
    by_cases hm : s.params.mode = .protectedMode
    · have key : (s.segs.get seg).writeBarred kind = true → kind.stores = true ∧ (s.segs.get seg).writable = false := by
        cases kind <;> simp [SegReg.writeBarred, AccessKind.stores]
      simp only [segFault, hm] at hs
      split at hs
      · cases hs
        exact operandFault_illegal hm ..
      · split at hs
        · cases hs
          exact ⟨hm, .inr (key ‹_›)⟩
        · cases hs
    · rw [segFault_low hm] at hs
      split at hs
      · cases hs
        refine ⟨?_, ‹_›⟩
        cases h : s.params.mode with
        | protectedMode => exact absurd h hm
        | realAddress => exact .inl rfl
        | virtual8086 => exact .inr rfl
      · cases hs

/-! ## Operands -/

theorem readRM_error {w : Size} {pre : List Prefix} {rm : RM} {s : State} {e : Stop} (h : readRM w pre rm s = .error e) :
    ∃ m, rm = .mem m ∧ memCheck s (operandSeg pre m) (effAddr m s.regs) w.bytes .read = .error e := by
  cases rm with
  | reg r => simp [readRM] at h
  | mem m =>
    refine ⟨m, rfl, (memRead_error_iff ..).mp ?_⟩
    unfold readRM at h
    cases hm : memRead s (operandSeg pre m) (effAddr m s.regs) w.bytes with
    | error x => simpa [hm] using h
    | ok v => simp [hm] at h

/-! ## BOUND -/

/-- Everything BOUND can do that completes: a memory operand, checked, with the index within both bounds; only EIP changes. -/
theorem bound_eq_next_iff (w : Size) (len : Nat) (pre : List Prefix) (reg : Reg) (rm : RM) (s t : State) :
    bound w len pre reg rm s = .next t ↔
      ∃ m ps, rm = .mem m ∧ memCheck s (operandSeg pre m) (effAddr m s.regs) (2 * w.bytes) .read = .ok ps ∧
        (BitVec.ofNat w.bits (leValue (loadBytes s (ps.take w.bytes)))).toInt ≤ (readReg w reg s).toInt ∧
        (readReg w reg s).toInt ≤ (BitVec.ofNat w.bits (leValue (loadBytes s (ps.drop w.bytes)))).toInt ∧
        EipFits s len ∧ t = s.setEip (eipAfter s len) := by
  cases rm with
  | reg r => simp [bound, takeException_ne_next]
  | mem m =>
    cases hc : memCheck s (operandSeg pre m) (effAddr m s.regs) (2 * w.bytes) .read with
    | error e =>
      simp only [bound, hc, stop_ne_next, false_iff]
      rintro ⟨m', ps, hm, hk, -⟩
      cases hm
      rw [hc] at hk
      cases hk
    | ok ps =>
      simp only [bound, hc]
      constructor
      · intro h
        split at h
        · exact absurd h (takeException_ne_next _ _ _)
        · rename_i hb
          rw [not_or, Int.not_lt, not_lt] at hb
          obtain ⟨h1, h2⟩ := (complete_eq_next_iff ..).mp h
          exact ⟨m, ps, rfl, hc, hb.1, hb.2, h1, h2⟩
      · rintro ⟨m', ps', hm, hk, hl, hu, hf, rfl⟩
        cases hm
        rw [hc] at hk
        cases hk
        rw [if_neg (by rw [not_or, Int.not_lt, not_lt]; exact ⟨hl, hu⟩)]
        exact complete_of_fits hf s

/-- Every trap of BOUND: UD, a fault of the check, or Interrupt 5. -/
theorem bound_eq_fault {w : Size} {len : Nat} {pre : List Prefix} {reg : Reg} {rm : RM} {s : State} {f : Fault}
    (h : bound w len pre reg rm s = .fault f) :
    ∃ e, takeException e s = .fault f ∧ (e = .ud ∨ e = .interrupt5 ∨ ∃ seg off k kind, OperandFault s seg off k kind e) := by
  cases rm with
  | reg r => exact ⟨.ud, h, .inl rfl⟩
  | mem m =>
    simp only [bound] at h
    split at h
    · obtain ⟨x, rfl, hx⟩ := stop_eq_fault h
      rcases memCheck_error ‹_› with ⟨y, hy, e⟩ | e | ⟨-, e⟩
      · cases e
        exact ⟨_, hx, .inr (.inr ⟨_, _, _, _, operandFault_of_translate hy⟩)⟩
      · cases e
      · cases e
    · split at h
      · exact ⟨_, h, .inr (.inl rfl)⟩
      · exact absurd h (complete_ne_fault _ _ _ _)

/-! ## BSF, BSR -/

@[simp] theorem scanResult_segs (w : Size) (f : BitVec w.bits → Nat) (d : Reg) (v : BitVec w.bits) (s : State) :
    (scanResult w f d v s).segs = s.segs := by
  unfold scanResult; split <;> simp

@[simp] theorem scanResult_mem (w : Size) (f : BitVec w.bits → Nat) (d : Reg) (v : BitVec w.bits) (s : State) :
    (scanResult w f d v s).mem = s.mem := by
  unfold scanResult; split <;> simp

@[simp] theorem scanResult_params (w : Size) (f : BitVec w.bits → Nat) (d : Reg) (v : BitVec w.bits) (s : State) :
    (scanResult w f d v s).params = s.params := by
  unfold scanResult; split <;> simp

/-- The register file after a scan: only the destination is written, at the width. -/
theorem scanResult_regs (w : Size) (f : BitVec w.bits → Nat) (d : Reg) (v : BitVec w.bits) (s : State) :
    (scanResult w f d v s).regs =
      (s.setReg w d (if v = 0 then Config.undefDraw w.bits s.draws else BitVec.ofNat w.bits (f v))).regs := by
  unfold scanResult; split <;> simp

/-- Everything a scan can do that completes. -/
theorem bitScan_eq_next_iff (w : Size) (f : BitVec w.bits → Nat) (len : Nat) (pre : List Prefix) (d : Reg) (rm : RM)
    (s t : State) :
    bitScan w f len pre d rm s = .next t ↔
      ∃ src, readRM w pre rm s = .ok src ∧ EipFits s len ∧ t = (scanResult w f d src s).setEip (eipAfter s len) := by
  unfold bitScan
  cases readRM w pre rm s with
  | error e => simp [stop_ne_next]
  | ok src => simp [complete_eq_next_iff]

/-- Every trap of a scan is a fault of its memory operand. -/
theorem bitScan_eq_fault {w : Size} {f : BitVec w.bits → Nat} {len : Nat} {pre : List Prefix} {d : Reg} {rm : RM} {s : State}
    {x : Fault} (h : bitScan w f len pre d rm s = .fault x) :
    ∃ e, takeException e s = .fault x ∧ ∃ seg off k kind, OperandFault s seg off k kind e := by
  unfold bitScan at h
  split at h
  · obtain ⟨y, rfl, hy⟩ := stop_eq_fault h
    obtain ⟨m, -, hm⟩ := readRM_error ‹_›
    rcases memCheck_error hm with ⟨z, hz, e⟩ | e | ⟨-, e⟩
    · cases e
      exact ⟨_, hy, _, _, _, _, operandFault_of_translate hz⟩
    · cases e
    · cases e
  · exact absurd h (complete_ne_fault _ _ _ _)

/-- A found index is below the width, its bit is set and every lower bit is clear (41_bit_scan.md R151). -/
theorem lowestSet_eq {n : Nat} {v : BitVec n} {k : Nat} (hk : v.getLsbD k = true) (hlt : ∀ j < k, v.getLsbD j = false) :
    lowestSet v = k := by
  have hn : k < n := BitVec.lt_of_getLsbD hk
  have : (List.range n).find? (fun i => v.getLsbD i) = some k := by
    rw [List.find?_range_eq_some]
    exact ⟨hk, by simpa using hn, fun j hj => by simpa using hlt j hj⟩
  simp [lowestSet, this]

/-- A found index is below the width, its bit is set and every higher bit is clear (41_bit_scan.md R152). -/
theorem highestSet_eq {n : Nat} {v : BitVec n} {k : Nat} (hk : v.getLsbD k = true) (hlt : ∀ j, k < j → v.getLsbD j = false) :
    highestSet v = k := by
  have hn : k < n := BitVec.lt_of_getLsbD hk
  have e : (List.range n).reverse = ((List.range' (k + 1) (n - k - 1)).reverse ++ [k]) ++ (List.range k).reverse := by
    have h : List.range n = List.range k ++ List.range' k (n - k) := by
      rw [List.range_eq_range', List.range_eq_range']
      simpa [Nat.add_sub_cancel' (Nat.le_of_lt hn)] using (List.range'_append_1 (s := 0) (m := k) (n := n - k)).symm
    rw [h, show n - k = (n - k - 1) + 1 by omega, List.range'_succ]
    simp
  have : (List.range n).reverse.find? (fun i => v.getLsbD i) = some k := by
    rw [e, List.find?_append, List.find?_append]
    have h0 : ((List.range' (k + 1) (n - k - 1)).reverse.find? fun i => v.getLsbD i) = none := by
      rw [List.find?_eq_none]
      intro j hj
      have : k < j := by simp [List.mem_range'] at hj; omega
      simp [hlt j this]
    simp [h0, hk]
  simp [highestSet, this]

/-! ## BT, BTC, BTR, BTS -/

@[simp] theorem bitOnReg_segs (w : Size) (u : Option BitUpdate) (r : Reg) (o : BitOffset) (s : State) :
    (bitOnReg w u r o s).segs = s.segs := by
  cases u <;> simp [bitOnReg]

@[simp] theorem bitOnReg_mem (w : Size) (u : Option BitUpdate) (r : Reg) (o : BitOffset) (s : State) :
    (bitOnReg w u r o s).mem = s.mem := by
  cases u <;> simp [bitOnReg]

@[simp] theorem bitOnReg_params (w : Size) (u : Option BitUpdate) (r : Reg) (o : BitOffset) (s : State) :
    (bitOnReg w u r o s).params = s.params := by
  cases u <;> simp [bitOnReg]

@[simp] theorem bitOnMem_segs (w : Size) (u : Option BitUpdate) (ps : List Nat) (o : BitOffset) (s : State) :
    (bitOnMem w u ps o s).segs = s.segs := by
  cases u <;> simp [bitOnMem]

@[simp] theorem bitOnMem_regs (w : Size) (u : Option BitUpdate) (ps : List Nat) (o : BitOffset) (s : State) :
    (bitOnMem w u ps o s).regs = s.regs := by
  cases u <;> simp [bitOnMem]

@[simp] theorem bitOnMem_params (w : Size) (u : Option BitUpdate) (ps : List Nat) (o : BitOffset) (s : State) :
    (bitOnMem w u ps o s).params = s.params := by
  cases u <;> simp [bitOnMem]

/-- A check of a bit form that answers addresses has checked the bytes, and in Protected Mode that they end within 2^A - 1 (R186). -/
theorem bitCheck_ok_iff (w : Size) (u : Option BitUpdate) (pre : List Prefix) (m : MemOp) (a : Nat) (s : State) (ps : List Nat) :
    bitCheck w u pre m a s = .ok ps ↔
      (s.params.mode = .protectedMode → a + w.bytes ≤ 2 ^ (memOpSize m).bits) ∧
        memCheck s (operandSeg pre m) a w.bytes (bitKind u) = .ok ps := by
  have hw : 0 < w.bytes := by cases w <;> decide
  have hp : 0 < 2 ^ (memOpSize m).bits := Nat.two_pow_pos _
  unfold bitCheck
  split
  · rename_i h
    simp only [reduceCtorEq, false_iff, not_and]
    exact fun hle => absurd (hle h.1) (by omega)
  · rename_i h
    exact ⟨fun hc => ⟨fun hm => by by_contra hn; exact h ⟨hm, by omega⟩, hc⟩, fun hc => hc.2⟩

/-- The check of a bit form reads the segment registers and the parameters only. -/
theorem bitCheck_congr {s t : State} (hp : t.params = s.params) (hs : t.segs = s.segs) (w : Size) (u : Option BitUpdate)
    (pre : List Prefix) (m : MemOp) (a : Nat) : bitCheck w u pre m a t = bitCheck w u pre m a s := by
  simp [bitCheck, illegalFault, memCheck_congr hp hs, hp, hs]

/-- Where the bytes end within 2^A - 1, or the mode is not Protected, the check is that of the access. -/
theorem bitCheck_within {w : Size} {u : Option BitUpdate} {pre : List Prefix} {m : MemOp} {a : Nat} {s : State}
    (h : s.params.mode = .protectedMode → a + w.bytes ≤ 2 ^ (memOpSize m).bits) :
    bitCheck w u pre m a s = memCheck s (operandSeg pre m) a w.bytes (bitKind u) :=
  if_neg fun hc => by have := h hc.1; have := hc.2; omega

/-- In Protected Mode bytes past 2^A - 1 make the check raise the fault of an illegal address (42_bit_test.md R186). -/
theorem bitCheck_past {w : Size} {u : Option BitUpdate} {pre : List Prefix} {m : MemOp} {a : Nat} {s : State}
    (hm : s.params.mode = .protectedMode) (h : a + w.bytes > 2 ^ (memOpSize m).bits) :
    bitCheck w u pre m a s = .error (.raise (illegalFault s (operandSeg pre m) a w.bytes (bitKind u))) :=
  if_pos ⟨hm, by have : 0 < 2 ^ (memOpSize m).bits := Nat.two_pow_pos _; omega⟩

/-- What a check of a bit form raises meets the conditions of the exception lists (42_bit_test.md R182). -/
theorem bitCheck_raise {w : Size} {u : Option BitUpdate} {pre : List Prefix} {m : MemOp} {a : Nat} {s : State} {e : Exc}
    (h : bitCheck w u pre m a s = .error (.raise e)) : OperandFault s (operandSeg pre m) a w.bytes (bitKind u) e := by
  unfold bitCheck at h
  split at h
  · cases h
    exact operandFault_illegal (And.left ‹_›) ..
  · exact operandFault_of_translate (memCheck_raise_iff.mp h)

/-- Everything a bit instruction can do that completes: the register form, or the memory form with its address in the space and its
bytes checked. -/
theorem bitOp_eq_next_iff (w : Size) (u : Option BitUpdate) (len : Nat) (pre : List Prefix) (rm : RM) (o : BitOffset)
    (s t : State) :
    bitOp w u len pre rm o s = .next t ↔
      EipFits s len ∧
        ((∃ r, rm = .reg r ∧ t = (bitOnReg w u r o s).setEip (eipAfter s len)) ∨
          ∃ m a ps, rm = .mem m ∧ bitAddrIn w m o s = some a ∧ bitCheck w u pre m a s = .ok ps ∧
            t = (bitOnMem w u ps o s).setEip (eipAfter s len)) := by
  cases rm with
  | reg r => simp [bitOp, complete_eq_next_iff]
  | mem m =>
    simp only [bitOp, RM.mem.injEq, reduceCtorEq, false_and, exists_false, false_or]
    cases ha : bitAddrIn w m o s with
    | none => simp [ha]
    | some a =>
      cases hc : bitCheck w u pre m a s with
      | error e =>
        simp only [hc, stop_ne_next, false_iff]
        rintro ⟨-, m', a', ps, hm, ha', hk, -⟩
        subst hm
        rw [ha] at ha'
        cases ha'
        rw [hc] at hk
        cases hk
      | ok ps =>
        simp only [hc, complete_eq_next_iff]
        constructor
        · rintro ⟨h1, h2⟩
          exact ⟨h1, m, a, ps, rfl, ha, hc, h2⟩
        · rintro ⟨h1, m', a', ps', hm, ha', hk, h2⟩
          subst hm
          rw [ha] at ha'
          cases ha'
          rw [hc] at hk
          cases hk
          exact ⟨h1, h2⟩

/-- Every trap of a bit instruction is a fault of its memory operand. -/
theorem bitOp_eq_fault {w : Size} {u : Option BitUpdate} {len : Nat} {pre : List Prefix} {rm : RM} {o : BitOffset} {s : State}
    {x : Fault} (h : bitOp w u len pre rm o s = .fault x) :
    ∃ e, takeException e s = .fault x ∧ ∃ seg off k kind, OperandFault s seg off k kind e := by
  cases rm with
  | reg r => exact absurd h (complete_ne_fault _ _ _ _)
  | mem m =>
    simp only [bitOp] at h
    split at h
    · cases h
    · split at h
      · obtain ⟨y, rfl, hy⟩ := stop_eq_fault h
        exact ⟨_, hy, _, _, _, _, bitCheck_raise ‹_›⟩
      · exact absurd h (complete_ne_fault _ _ _ _)

/-! ## Every meaning is one of the three operations -/

/-- What a bit instruction does to the bit, as the template takes it. -/
def BitInstr.update : BitInstr → Option BitUpdate
  | .bt => none
  | .btc => some .complement
  | .btr => some .reset
  | .bts => some .set

theorem exec_boundInstr (w : Size) (p : List Prefix) (r : Reg) (m : RM) (s : State) :
    exec (boundInstr w p r m) s = bound w (boundInstr w p r m).length p r m s := by
  cases w <;> rfl

theorem exec_bsfInstr (w : Size) (p : List Prefix) (r : Reg) (m : RM) (s : State) :
    exec (bsfInstr w p r m) s = bitScan w lowestSet (bsfInstr w p r m).length p r m s := by
  cases w <;> rfl

theorem exec_bsrInstr (w : Size) (p : List Prefix) (r : Reg) (m : RM) (s : State) :
    exec (bsrInstr w p r m) s = bitScan w highestSet (bsrInstr w p r m).length p r m s := by
  cases w <;> rfl

theorem exec_withOffset (k : BitInstr) (w : Size) (p : List Prefix) (m : RM) (o : BitOffset) (s : State) :
    exec (k.withOffset w p m o) s = bitOp w k.update (k.withOffset w p m o).length p m o s := by
  cases k <;> cases w <;> cases o <;> rfl

/-- Every instruction is a BOUND, a BSF, a BSR or one of the four bit instructions. -/
theorem instr_shape (i : Instr) :
    (∃ w p r m, i = boundInstr w p r m) ∨ (∃ w p r m, i = bsfInstr w p r m) ∨ (∃ w p r m, i = bsrInstr w p r m) ∨
      ∃ k w p m o, i = BitInstr.withOffset k w p m o := by
  cases i with
  | bound16 p r m => exact .inl ⟨.w16, p, r, m, rfl⟩
  | bound32 p r m => exact .inl ⟨.w32, p, r, m, rfl⟩
  | bsf16 p r m => exact .inr (.inl ⟨.w16, p, r, m, rfl⟩)
  | bsf32 p r m => exact .inr (.inl ⟨.w32, p, r, m, rfl⟩)
  | bsr16 p r m => exact .inr (.inr (.inl ⟨.w16, p, r, m, rfl⟩))
  | bsr32 p r m => exact .inr (.inr (.inl ⟨.w32, p, r, m, rfl⟩))
  | btReg16 p m r => exact .inr (.inr (.inr ⟨.bt, .w16, p, m, .reg r, rfl⟩))
  | btReg32 p m r => exact .inr (.inr (.inr ⟨.bt, .w32, p, m, .reg r, rfl⟩))
  | btImm16 p m b => exact .inr (.inr (.inr ⟨.bt, .w16, p, m, .imm b, rfl⟩))
  | btImm32 p m b => exact .inr (.inr (.inr ⟨.bt, .w32, p, m, .imm b, rfl⟩))
  | btcReg16 p m r => exact .inr (.inr (.inr ⟨.btc, .w16, p, m, .reg r, rfl⟩))
  | btcReg32 p m r => exact .inr (.inr (.inr ⟨.btc, .w32, p, m, .reg r, rfl⟩))
  | btcImm16 p m b => exact .inr (.inr (.inr ⟨.btc, .w16, p, m, .imm b, rfl⟩))
  | btcImm32 p m b => exact .inr (.inr (.inr ⟨.btc, .w32, p, m, .imm b, rfl⟩))
  | btrReg16 p m r => exact .inr (.inr (.inr ⟨.btr, .w16, p, m, .reg r, rfl⟩))
  | btrReg32 p m r => exact .inr (.inr (.inr ⟨.btr, .w32, p, m, .reg r, rfl⟩))
  | btrImm16 p m b => exact .inr (.inr (.inr ⟨.btr, .w16, p, m, .imm b, rfl⟩))
  | btrImm32 p m b => exact .inr (.inr (.inr ⟨.btr, .w32, p, m, .imm b, rfl⟩))
  | btsReg16 p m r => exact .inr (.inr (.inr ⟨.bts, .w16, p, m, .reg r, rfl⟩))
  | btsReg32 p m r => exact .inr (.inr (.inr ⟨.bts, .w32, p, m, .reg r, rfl⟩))
  | btsImm16 p m b => exact .inr (.inr (.inr ⟨.bts, .w16, p, m, .imm b, rfl⟩))
  | btsImm32 p m b => exact .inr (.inr (.inr ⟨.bts, .w32, p, m, .imm b, rfl⟩))

/-! ## The flags an instruction writes (10_state.md R26, R27) -/

section
variable (w : Size) (p : List Prefix) (r : Reg) (m : RM) (policy : FlagPolicy) (kept written : Flags)

@[simp] theorem flagsAfter_boundInstr : flagsAfter (boundInstr w p r m) policy kept written = kept := by cases w <;> rfl

@[simp] theorem flagsAfter_bsfInstr :
    flagsAfter (bsfInstr w p r m) policy kept written = flagsAfterScan policy kept written := by
  cases w <;> rfl

@[simp] theorem flagsAfter_bsrInstr :
    flagsAfter (bsrInstr w p r m) policy kept written = flagsAfterScan policy kept written := by
  cases w <;> rfl

@[simp] theorem flagsAfter_withOffset (k : BitInstr) (o : BitOffset) :
    flagsAfter (k.withOffset w p m o) policy kept written = flagsAfterBit policy kept written := by
  cases k <;> cases w <;> cases o <;> rfl

end

/-! ## Steps -/

/-- A step that completes ran the instruction it fetched. -/
theorem step_eq_next {s t : State} (h : step s = .next t) : ∃ i, fetchInstr s = .ok i ∧ exec i s = .next t := by
  unfold step at h
  split at h
  · exact absurd h (stop_ne_next _ _ _)
  · exact ⟨_, ‹_›, h⟩

/-- A step that traps took an exception of its fetch or ran an instruction that trapped. -/
theorem step_eq_fault {s : State} {f : Fault} (h : step s = .fault f) :
    (∃ e, fetchInstr s = .error (.raise e) ∧ takeException e s = .fault f) ∨
      ∃ i, fetchInstr s = .ok i ∧ exec i s = .fault f := by
  unfold step at h
  split at h
  · obtain ⟨x, rfl, hx⟩ := stop_eq_fault h
    exact .inl ⟨x, ‹_›, hx⟩
  · exact .inr ⟨_, ‹_›, h⟩

/-! The four ways a fetch goes on (20_memory.md R69). -/

theorem fetchFrom_more {s : State} {fuel : Nat} {got : List Byte} {b : Byte}
    (h : decode s.params.defaults got = .more) (hb : fetchByte s got.length = .ok b) :
    fetchFrom s (fuel + 1) got = fetchFrom s fuel (got ++ [b]) := by
  rw [fetchFrom]; simp only [h, hb]

theorem fetchFrom_stop {s : State} {fuel : Nat} {got : List Byte} {e : Stop}
    (h : decode s.params.defaults got = .more) (hb : fetchByte s got.length = .error e) :
    fetchFrom s (fuel + 1) got = .error e := by
  rw [fetchFrom]; simp only [h, hb]

theorem fetchFrom_done {s : State} {fuel : Nat} {got : List Byte} {i : Instr} {r : List Byte}
    (h : decode s.params.defaults got = .done i r) :
    fetchFrom s fuel got = .ok i := by
  cases fuel <;> rw [fetchFrom] <;> simp only [h]

theorem fetchFrom_reject {s : State} {fuel : Nat} {got : List Byte} {e : DecodeError}
    (h : decode s.params.defaults got = .reject e) :
    fetchFrom s fuel got = .error (.refuse (refusalOf e)) := by
  cases fuel <;> rw [fetchFrom] <;> simp only [h]

/-- A fetched instruction is one the decoder reads from bytes. -/
theorem fetchFrom_ok {s : State} {fuel : Nat} {got : List Byte} {i : Instr} (h : fetchFrom s fuel got = .ok i) :
    ∃ bs rest, decode s.params.defaults bs = .done i rest := by
  induction fuel generalizing got with
  | zero =>
    unfold fetchFrom at h
    split at h
    · cases h
      exact ⟨_, _, ‹_›⟩
    · cases h
    · cases h
  | succ n ih =>
    unfold fetchFrom at h
    split at h
    · cases h
      exact ⟨_, _, ‹_›⟩
    · cases h
    · simp only at h
      split at h
      · cases h
      · exact ih h

theorem fetchByte_error {s : State} {i : Nat} {e : Stop} (h : fetchByte s i = .error e) :
    (∃ x, translate s .cs (s.eip.toNat + i) 1 .fetch = .error x ∧ e = .raise x) ∨ e = .refuse .notInSpec ∨
      e = .refuse .notRAM := by
  unfold fetchByte at h
  split at h
  · cases h
    exact .inl ⟨_, ‹_›, rfl⟩
  · split at h
    · cases h
      exact .inr (.inl rfl)
    · split at h
      · cases h
        exact .inr (.inr rfl)
      · cases h

/-- A fetch that raises met a fault on some byte. -/
theorem fetchFrom_raise {s : State} {fuel : Nat} {got : List Byte} {e : Exc} (h : fetchFrom s fuel got = .error (.raise e)) :
    ∃ i, translate s .cs (s.eip.toNat + i) 1 .fetch = .error e := by
  induction fuel generalizing got with
  | zero =>
    unfold fetchFrom at h
    split at h <;> cases h
  | succ n ih =>
    unfold fetchFrom at h
    split at h
    · cases h
    · cases h
    · simp only at h
      split at h
      · cases h
        rcases fetchByte_error ‹_› with ⟨x, hx, he⟩ | he | he
        · cases he
          exact ⟨_, hx⟩
        · cases he
        · cases he
      · exact ih h

end Sys2Proof.Machine
end

