-- ==== Sys2Proof/Laws/PerInstr.lean ====
section
/-! SUPPORT. Laws/PerInstr.lean: statements about every instruction as syntax, one lemma per constructor. `EncodeLength`: the length
by which an instruction advances EIP is the number of bytes the encoder writes (spec/30_encoding.md R103). -/

namespace Sys2Proof.Laws.EncodeLength

def Statement (i : Instr) : Prop := (encode i).length = i.length

theorem bound16 (p : List Prefix) (r : Reg) (m : RM) : Statement (.bound16 p r m) := by
  simp [Statement, encode_length, Instr.length, lenOp1, Instr.prefixes, Instr.opcode, Instr.rm, Instr.immBytes]

theorem bound32 (p : List Prefix) (r : Reg) (m : RM) : Statement (.bound32 p r m) := by
  simp [Statement, encode_length, Instr.length, lenOp1, Instr.prefixes, Instr.opcode, Instr.rm, Instr.immBytes]

theorem bsf16 (p : List Prefix) (r : Reg) (m : RM) : Statement (.bsf16 p r m) := by
  simp [Statement, encode_length, Instr.length, lenOp2, Instr.prefixes, Instr.opcode, Instr.rm, Instr.immBytes]

theorem bsf32 (p : List Prefix) (r : Reg) (m : RM) : Statement (.bsf32 p r m) := by
  simp [Statement, encode_length, Instr.length, lenOp2, Instr.prefixes, Instr.opcode, Instr.rm, Instr.immBytes]

theorem bsr16 (p : List Prefix) (r : Reg) (m : RM) : Statement (.bsr16 p r m) := by
  simp [Statement, encode_length, Instr.length, lenOp2, Instr.prefixes, Instr.opcode, Instr.rm, Instr.immBytes]

theorem bsr32 (p : List Prefix) (r : Reg) (m : RM) : Statement (.bsr32 p r m) := by
  simp [Statement, encode_length, Instr.length, lenOp2, Instr.prefixes, Instr.opcode, Instr.rm, Instr.immBytes]

theorem btReg16 (p : List Prefix) (m : RM) (r : Reg) : Statement (.btReg16 p m r) := by
  simp [Statement, encode_length, Instr.length, lenOp2, Instr.prefixes, Instr.opcode, Instr.rm, Instr.immBytes]

theorem btReg32 (p : List Prefix) (m : RM) (r : Reg) : Statement (.btReg32 p m r) := by
  simp [Statement, encode_length, Instr.length, lenOp2, Instr.prefixes, Instr.opcode, Instr.rm, Instr.immBytes]

theorem btImm16 (p : List Prefix) (m : RM) (b : Byte) : Statement (.btImm16 p m b) := by
  simp [Statement, encode_length, Instr.length, lenOp2Imm, Instr.prefixes, Instr.opcode, Instr.rm, Instr.immBytes]

theorem btImm32 (p : List Prefix) (m : RM) (b : Byte) : Statement (.btImm32 p m b) := by
  simp [Statement, encode_length, Instr.length, lenOp2Imm, Instr.prefixes, Instr.opcode, Instr.rm, Instr.immBytes]

theorem btcReg16 (p : List Prefix) (m : RM) (r : Reg) : Statement (.btcReg16 p m r) := by
  simp [Statement, encode_length, Instr.length, lenOp2, Instr.prefixes, Instr.opcode, Instr.rm, Instr.immBytes]

theorem btcReg32 (p : List Prefix) (m : RM) (r : Reg) : Statement (.btcReg32 p m r) := by
  simp [Statement, encode_length, Instr.length, lenOp2, Instr.prefixes, Instr.opcode, Instr.rm, Instr.immBytes]

theorem btcImm16 (p : List Prefix) (m : RM) (b : Byte) : Statement (.btcImm16 p m b) := by
  simp [Statement, encode_length, Instr.length, lenOp2Imm, Instr.prefixes, Instr.opcode, Instr.rm, Instr.immBytes]

theorem btcImm32 (p : List Prefix) (m : RM) (b : Byte) : Statement (.btcImm32 p m b) := by
  simp [Statement, encode_length, Instr.length, lenOp2Imm, Instr.prefixes, Instr.opcode, Instr.rm, Instr.immBytes]

theorem btrReg16 (p : List Prefix) (m : RM) (r : Reg) : Statement (.btrReg16 p m r) := by
  simp [Statement, encode_length, Instr.length, lenOp2, Instr.prefixes, Instr.opcode, Instr.rm, Instr.immBytes]

theorem btrReg32 (p : List Prefix) (m : RM) (r : Reg) : Statement (.btrReg32 p m r) := by
  simp [Statement, encode_length, Instr.length, lenOp2, Instr.prefixes, Instr.opcode, Instr.rm, Instr.immBytes]

theorem btrImm16 (p : List Prefix) (m : RM) (b : Byte) : Statement (.btrImm16 p m b) := by
  simp [Statement, encode_length, Instr.length, lenOp2Imm, Instr.prefixes, Instr.opcode, Instr.rm, Instr.immBytes]

theorem btrImm32 (p : List Prefix) (m : RM) (b : Byte) : Statement (.btrImm32 p m b) := by
  simp [Statement, encode_length, Instr.length, lenOp2Imm, Instr.prefixes, Instr.opcode, Instr.rm, Instr.immBytes]

theorem btsReg16 (p : List Prefix) (m : RM) (r : Reg) : Statement (.btsReg16 p m r) := by
  simp [Statement, encode_length, Instr.length, lenOp2, Instr.prefixes, Instr.opcode, Instr.rm, Instr.immBytes]

theorem btsReg32 (p : List Prefix) (m : RM) (r : Reg) : Statement (.btsReg32 p m r) := by
  simp [Statement, encode_length, Instr.length, lenOp2, Instr.prefixes, Instr.opcode, Instr.rm, Instr.immBytes]

theorem btsImm16 (p : List Prefix) (m : RM) (b : Byte) : Statement (.btsImm16 p m b) := by
  simp [Statement, encode_length, Instr.length, lenOp2Imm, Instr.prefixes, Instr.opcode, Instr.rm, Instr.immBytes]

theorem btsImm32 (p : List Prefix) (m : RM) (b : Byte) : Statement (.btsImm32 p m b) := by
  simp [Statement, encode_length, Instr.length, lenOp2Imm, Instr.prefixes, Instr.opcode, Instr.rm, Instr.immBytes]

end Sys2Proof.Laws.EncodeLength
end

