-- ==== Sys2Proof/Laws/Translate.lean ====
section
/-! SUPPORT. Laws/Translate.lean: parts of an access, and that the plain data of `State` expresses every function that meets the contract
of `Translate` (spec/20_memory.md R64; notes/assumptions/2.md). -/

namespace Sys2Proof.Machine

/-! ## Parts of an access (R64 point 5) -/

/-- A part of an access without a segment-level fault has none. -/
theorem segFault_part {s : State} {seg : Seg} {off k : Nat} {kind : AccessKind} {j n : Nat}
    (h : segFault s seg off k kind = none) (hn : 1 ≤ n) (hj : j + n ≤ k) : segFault s seg (off + j) n kind = none := by
  by_cases hm : s.params.mode = .protectedMode
  · unfold segFault at h ⊢
    simp only [hm] at h ⊢
    split at h
    · cases h
    · rename_i hl
      split at h
      · cases h
      · rename_i hw
        have hl' : (s.segs.get seg).legal (off + j) n kind = true := by
          obtain ⟨h1, x, hx, h2, h3, h4⟩ := (SegReg.legal_iff ..).mp (by simpa using hl)
          exact (SegReg.legal_iff ..).mpr ⟨by omega, x, hx, by omega, by omega, h4⟩
        simp [hw, hl']
  · rw [segFault_low hm] at h ⊢
    split at h
    · cases h
    · rw [if_neg (by omega)]

/-- When a page fault is one of byte `j` of an access. -/
theorem PageFault.strikes_iff {f : PageFault} {seg : Seg} {off k : Nat} {kind : AccessKind} {j : Nat} :
    f.strikes seg off k kind j = true ↔
      f.seg = seg ∧ f.concerns kind = true ∧ f.lo ≤ off + j ∧ off + j ≤ f.hi ∧ f.before ≤ j ∧ j + f.after < k := by
  simp [PageFault.strikes, and_assoc]

/-- Which kinds a page fault concerns: its own, and of a read or a write the read-modify-write too (R64 point 5). -/
theorem PageFault.concerns_iff {f : PageFault} {kind : AccessKind} :
    f.concerns kind = true ↔ f.kind = kind ∨ kind = .rmw ∧ f.kind ≠ .fetch := by
  obtain ⟨_, fk, _⟩ := f
  cases kind <;> cases fk <;> simp [PageFault.concerns]

/-- Which kinds a page run serves: its own; of kind `rmw` reads and writes too; of kind `read` a read-modify-write too. -/
theorem PageRun.serves_iff {r : PageRun} {kind : AccessKind} :
    r.serves kind = true ↔ r.kind = kind ∨ r.kind = .rmw ∧ kind ≠ .fetch ∨ r.kind = .read ∧ kind = .rmw := by
  obtain ⟨_, rk, _⟩ := r
  cases kind <;> cases rk <;> simp [PageRun.serves]

/-- What strikes a byte of a part of an access strikes that byte of the access. -/
theorem PageFault.strikes_part {f : PageFault} {seg : Seg} {off k : Nat} {kind : AccessKind} {i j n : Nat} (hi : i + n ≤ k)
    (h : f.strikes seg (off + i) n kind j = true) : f.strikes seg off k kind (i + j) = true := by
  rw [PageFault.strikes_iff] at h ⊢
  exact ⟨h.1, h.2.1, by omega, by omega, by omega, by omega⟩

/-- What strikes a byte of a read or of a write strikes that byte of the read-modify-write. -/
theorem PageFault.strikes_rmw {f : PageFault} {seg : Seg} {off k : Nat} {kind : AccessKind} {j : Nat} (hk : kind ≠ .fetch)
    (h : f.strikes seg off k kind j = true) : f.strikes seg off k .rmw j = true := by
  rw [PageFault.strikes_iff, PageFault.concerns_iff] at h ⊢
  refine ⟨h.1, ?_, h.2.2⟩
  rcases h.2.1 with rfl | ⟨rfl, hf⟩
  · exact .inr ⟨rfl, hk⟩
  · exact .inr ⟨rfl, hf⟩

/-! ## The contract of `Translate` -/

/-- A segment-level fault of Protected Mode. -/
def SegLevel (r : Except Exc (List Nat)) : Prop := r = .error .gp0 ∨ r = .error .ss0

/-- The contract of R64 for a function of segment, offset, byte count and kind: points 1 to 3 (with R54 and R56), point 5, and of point
6 that a part which has a segment-level fault gives the whole one. Point 4 holds of any function. -/
structure TranslateContract (mode : Mode) (writable : Seg → Bool)
    (F : Seg → Nat → Nat → AccessKind → Except Exc (List Nat)) : Prop where
  length : ∀ {seg off k kind ps}, F seg off k kind = .ok ps → ps.length = k
  real : ∀ {seg off k kind e}, mode = .realAddress → 1 ≤ k →
    (F seg off k kind = .error e ↔ off + k - 1 > 0xFFFF ∧ e = .interrupt13)
  virtualEnd : ∀ {seg off k kind}, mode = .virtual8086 → 1 ≤ k → off + k - 1 > 0xFFFF →
    F seg off k kind = .error .interrupt13
  virtualIn : ∀ {seg off k kind e}, mode = .virtual8086 → 1 ≤ k → off + k - 1 ≤ 0xFFFF →
    F seg off k kind = .error e → ∃ c, e = .pf c
  faults : ∀ {seg off k kind e}, mode = .protectedMode → 1 ≤ k → F seg off k kind = .error e →
    (e = .gp0 ∧ (seg ≠ .ss ∨ kind.stores = true ∧ writable seg = false)) ∨ (e = .ss0 ∧ seg = .ss) ∨ ∃ c, e = .pf c
  nonwritable : ∀ {seg off k kind}, mode = .protectedMode → 1 ≤ k → kind.stores = true → writable seg = false →
    SegLevel (F seg off k kind)
  top : ∀ {seg off k kind}, mode = .protectedMode → 1 ≤ k → off + k - 1 > 0xFFFFFFFF → SegLevel (F seg off k kind)
  part : ∀ {seg off k kind ps j n}, F seg off k kind = .ok ps → 1 ≤ n → j + n ≤ k →
    F seg (off + j) n kind = .ok ((ps.drop j).take n)
  rmw : ∀ {seg off k ps}, F seg off k .rmw = .ok ps → F seg off k .read = .ok ps ∧ F seg off k .write = .ok ps
  segmentPart : ∀ {seg off k kind j n}, mode = .protectedMode → 1 ≤ n → j + n ≤ k → SegLevel (F seg (off + j) n kind) →
    SegLevel (F seg off k kind)
  segmentRmw : ∀ {seg off k kind}, mode = .protectedMode → 1 ≤ k → kind ≠ .fetch → SegLevel (F seg off k kind) →
    SegLevel (F seg off k .rmw)

/-! ## Data for a function -/

/-- The results a function gives on a bounded range of accesses can be listed. -/
theorem exists_list_of_accesses {α : Type} (N : Nat) (P : Seg → Nat → Nat → AccessKind → Option α) :
    ∃ l : List α, ∀ x, x ∈ l ↔ ∃ seg a n kind, a < N ∧ n < N ∧ P seg a n kind = some x := by
  refine ⟨[Seg.es, .cs, .ss, .ds, .fs, .gs].flatMap fun seg => (List.range N).flatMap fun a => (List.range N).flatMap fun n =>
    [AccessKind.fetch, .read, .write, .rmw].filterMap fun kind => P seg a n kind, fun x => ?_⟩
  simp only [List.mem_flatMap, List.mem_filterMap, List.mem_range]
  constructor
  · rintro ⟨seg, -, a, ha, n, hn, kind, -, h⟩
    exact ⟨seg, a, n, kind, ha, hn, h⟩
  · rintro ⟨seg, a, n, kind, ha, hn, h⟩
    exact ⟨seg, by cases seg <;> simp, a, ha, n, hn, kind, by cases kind <;> simp, h⟩

open Classical in
/-- The data that satisfy a predicate at some access in range can be listed. -/
theorem exists_list_of_pred {α : Type} (N : Nat) (Q : Seg → Nat → Nat → AccessKind → Prop) (g : Seg → Nat → Nat → AccessKind → α) :
    ∃ l : List α, ∀ x, x ∈ l ↔ ∃ seg a n kind, a < N ∧ n < N ∧ Q seg a n kind ∧ x = g seg a n kind := by
  obtain ⟨l, hl⟩ := exists_list_of_accesses N fun seg a n kind => if Q seg a n kind then some (g seg a n kind) else none
  refine ⟨l, fun x => (hl x).trans ?_⟩
  constructor
  · rintro ⟨seg, a, n, kind, ha, hn, h⟩
    split at h
    · exact ⟨seg, a, n, kind, ha, hn, ‹_›, (Option.some.inj h).symm⟩
    · cases h
  · rintro ⟨seg, a, n, kind, ha, hn, hq, rfl⟩
    exact ⟨seg, a, n, kind, ha, hn, if_pos hq⟩

section
variable {mode : Mode} {writable : Seg → Bool} {F : Seg → Nat → Nat → AccessKind → Except Exc (List Nat)}

/-- The window of `n` bytes at `a` for a kind. -/
def windowFor (a n : Nat) (kind : AccessKind) : Window :=
  ⟨a, a + n - 1, kind == .fetch, kind == .read || kind == .rmw, kind == .write || kind == .rmw, kind == .rmw⟩

theorem windowFor_admits {a n : Nat} {kind kind' : AccessKind} :
    (windowFor a n kind').admits kind = true ↔ kind' = kind ∨ kind' = .rmw ∧ kind ≠ .fetch := by
  cases kind <;> cases kind' <;> simp [windowFor, Window.admits]

/-- The segment registers that hold a function's segment-level faults, for accesses that end below `N`. -/
theorem exists_segment_data (h : TranslateContract mode writable F) (N : Nat) (seg : Seg) (hm : mode = .protectedMode) :
    ∃ g : SegReg, ∀ s : State, s.params.mode = mode → s.segs.get seg = g → ∀ off k kind, 1 ≤ k → off + k < N →
      (∀ e, SegLevel (F seg off k kind) → F seg off k kind = .error e → segFault s seg off k kind = some e) ∧
        (¬ SegLevel (F seg off k kind) → segFault s seg off k kind = none) := by
  obtain ⟨ws, hws⟩ := exists_list_of_pred N (fun _ a n kind => 1 ≤ n ∧ ¬ SegLevel (F seg a n kind)) fun _ a n kind => windowFor a n kind
  obtain ⟨rs, hrs⟩ := exists_list_of_pred N (fun _ a n kind => F seg a n kind = .error .gp0) fun _ a n kind =>
    (⟨kind, a, a, n, n⟩ : AccessBox)
  refine ⟨⟨0, 0, ws, writable seg, rs⟩, fun s hs hg off k kind hk hN => ?_⟩
  have hsm : s.params.mode = .protectedMode := hs.trans hm
  have hbar : (s.segs.get seg).writeBarred kind = true ↔ kind.stores = true ∧ writable seg = false := by
    rw [hg]
    cases kind <;> simp [SegReg.writeBarred, AccessKind.stores]
  have hfirst : ((s.segs.get seg).rightsFirst.any fun x => x.holds off k kind) = true ↔ F seg off k kind = .error .gp0 := by
    rw [hg]
    simp only [List.any_eq_true]
    constructor
    · rintro ⟨x, hx, hh⟩
      obtain ⟨_, a, n, kind', -, -, hF, rfl⟩ := (hrs x).mp hx
      simp only [AccessBox.holds, Bool.and_eq_true, decide_eq_true_eq, beq_iff_eq] at hh
      obtain ⟨⟨⟨⟨rfl, h1⟩, h2⟩, h3⟩, h4⟩ := hh
      obtain rfl : a = off := by omega
      obtain rfl : n = k := by omega
      exact hF
    · intro hF
      exact ⟨_, (hrs _).mpr ⟨.ds, off, k, kind, by omega, by omega, hF, rfl⟩, by simp [AccessBox.holds]⟩
  have hlegal : (s.segs.get seg).legal off k kind = true → ¬ SegLevel (F seg off k kind) := by
    intro hl hseg
    obtain ⟨-, x, hx, h1, h2, h3⟩ := (SegReg.legal_iff ..).mp hl
    rw [hg] at hx
    obtain ⟨_, a, n, kind', -, -, ⟨hn, hF⟩, rfl⟩ := (hws x).mp hx
    refine hF ?_
    have h1' : a ≤ off := h1
    have h2' : off + k - 1 ≤ a + n - 1 := h2
    have hwhole : SegLevel (F seg a n kind) := by
      refine h.segmentPart (j := off - a) (n := k) hm hk (by omega) ?_
      rwa [show a + (off - a) = off by omega]
    rcases windowFor_admits.mp h3 with rfl | ⟨rfl, hkind⟩
    · exact hwhole
    · exact h.segmentRmw hm hn hkind hwhole
  have hlegal' : ¬ SegLevel (F seg off k kind) → (s.segs.get seg).legal off k kind = true := by
    intro hF
    refine (SegReg.legal_iff ..).mpr ⟨?_, windowFor off k kind, ?_, Nat.le_refl _, Nat.le_refl _, windowFor_admits.mpr (.inl rfl)⟩
    · by_contra ho
      exact hF (h.top hm hk (by omega))
    · rw [hg]
      exact (hws _).mpr ⟨.ds, off, k, kind, by omega, by omega, ⟨hk, hF⟩, rfl⟩
  have hnot : ¬ SegLevel (F seg off k kind) → (s.segs.get seg).writeBarred kind = false := by
    intro hF
    by_contra hb
    obtain ⟨h1, h2⟩ := hbar.mp (by simpa using hb)
    exact hF (h.nonwritable hm hk h1 h2)
  constructor
  · intro e hseg he
    have hl : (s.segs.get seg).legal off k kind = false := by
      cases hc : (s.segs.get seg).legal off k kind with
      | false => rfl
      | true => exact absurd hseg (hlegal hc)
    have hsf : segFault s seg off k kind = some (illegalFault s seg off k kind) := by
      unfold segFault
      simp [hsm, hl]
    rw [hsf, Option.some.injEq]
    unfold illegalFault
    simp only
    rcases h.faults hm hk he with ⟨rfl, hgp⟩ | ⟨rfl, rfl⟩ | ⟨c, rfl⟩
    · by_cases hb : (s.segs.get seg).writeBarred kind = true
      · rw [if_pos (by rw [Bool.and_eq_true]; exact ⟨hb, hfirst.mpr he⟩)]
      · have hss : seg ≠ .ss := hgp.resolve_right fun hw => hb (hbar.mpr hw)
        rw [if_neg (by simp [hb])]
        cases seg <;> first | rfl | exact absurd rfl hss
    · have hf : ((s.segs.get .ss).rightsFirst.any fun x => x.holds off k kind) = false := by
        rw [Bool.eq_false_iff]
        intro hc
        rw [hfirst.mp hc] at he
        cases he
      simp [hf, illegalAddress]
    · rcases hseg with hx | hx <;> rw [hx] at he <;> cases he
  · intro hF
    unfold segFault
    simp [hsm, hnot hF, hlegal' hF]

/-- The page runs that hold where a function finds each byte, for accesses that end below `N`. -/
theorem exists_page_runs (h : TranslateContract mode writable F) (N : Nat) :
    ∃ runs : List PageRun, ∀ s : State, s.params.mode = mode → s.params.pages = runs → ∀ seg off kind p, off + 1 < N →
      F seg off 1 kind = .ok [p] → byteAddr s seg kind off = p := by
  obtain ⟨rs, hrs⟩ := exists_list_of_accesses N fun seg a n kind =>
    match kind, F seg a 1 kind with
    | .rmw, _ => none
    | _, .ok [p] => if n = 0 then some (⟨seg, kind, a, 1, p⟩ : PageRun) else none
    | _, _ => none
  refine ⟨rs, fun s hs hr => ?_⟩
  have mem : ∀ {r}, r ∈ rs → r.kind ≠ .rmw ∧ r.len = 1 ∧ F r.seg r.lo 1 r.kind = .ok [r.phys] := by
    intro r hr
    obtain ⟨seg, a, n, kind, -, -, hP⟩ := (hrs r).mp hr
    split at hP
    · cases hP
    · rename_i hne hF
      split at hP
      · cases hP
        exact ⟨hne, rfl, hF⟩
      · cases hP
    · cases hP
  have key : ∀ seg off kind kind' p, off + 1 < N → kind' ≠ .rmw → (kind' = kind ∨ kind = .rmw ∧ kind' = .read) →
      F seg off 1 kind' = .ok [p] → mappedByte s seg kind off = p := by
    intro seg off kind kind' p hoff hk' hkk hF
    unfold mappedByte
    rw [hr]
    cases hf : rs.find? fun r => r.seg == seg && r.serves kind && r.lo ≤ off && off < r.lo + r.len with
    | some r =>
      have hm := mem (List.mem_of_find?_eq_some hf)
      have hp := List.find?_some hf
      simp only [Bool.and_eq_true, decide_eq_true_eq, beq_iff_eq] at hp
      obtain ⟨⟨⟨rfl, hserve⟩, h1⟩, h2⟩ := hp
      rw [hm.2.1] at h2
      obtain rfl : r.lo = off := by omega
      have hkind : r.kind = kind' := by
        rcases PageRun.serves_iff.mp hserve with h1 | ⟨h1, -⟩ | ⟨h1, h2⟩
        · rcases hkk with rfl | ⟨rfl, rfl⟩
          · exact h1
          · exact absurd h1 hm.1
        · exact absurd h1 hm.1
        · rcases hkk with rfl | ⟨-, rfl⟩
          · exact absurd h2 hk'
          · exact h1
      have := hm.2.2
      rw [hkind, hF] at this
      cases this
      simp
    | none =>
      exfalso
      have hin : (⟨seg, kind', off, 1, p⟩ : PageRun) ∈ rs := by
        refine (hrs _).mpr ⟨seg, off, 0, kind', by omega, by omega, ?_⟩
        cases kind' <;> first | exact absurd rfl hk' | simp [hF]
      refine List.find?_eq_none.mp hf _ hin ?_
      have hserve : (⟨seg, kind', off, 1, p⟩ : PageRun).serves kind = true :=
        PageRun.serves_iff.mpr (hkk.imp id fun h => .inr ⟨h.2, h.1⟩)
      simp [hserve]
  intro seg off kind p hoff hF
  have wide : mode ≠ .realAddress ∨ kind ≠ .write → byteAddr s seg kind off = mappedByte s seg kind off := by
    intro hc
    unfold byteAddr
    split
    · rename_i hm
      rw [hs] at hm
      exact absurd rfl (hc.resolve_left fun hc => hc hm)
    · rfl
  by_cases hreal : mode = .realAddress ∧ kind = .write
  · obtain ⟨hm, rfl⟩ := hreal
    have hb : byteAddr s seg .write off = mappedByte s seg .read off := by
      unfold byteAddr
      simp [hs, hm]
    rw [hb]
    have hin : ¬ off + 1 - 1 > 0xFFFF := by
      intro ho
      rw [(h.real hm (Nat.le_refl 1)).mpr ⟨ho, rfl⟩] at hF
      cases hF
    cases hx : F seg off 1 .rmw with
    | error e => exact absurd ((h.real hm (Nat.le_refl 1)).mp hx).1 hin
    | ok ps =>
      have := h.rmw hx
      rw [hF] at this
      cases this.2
      exact key seg off .read .read p hoff (by simp) (.inl rfl) this.1
  · rw [wide (by by_cases hm : mode = .realAddress
                 · exact .inr fun hk => hreal ⟨hm, hk⟩
                 · exact .inl hm)]
    by_cases hk : kind = .rmw
    · subst hk
      exact key seg off .rmw .read p hoff (by simp) (.inr ⟨rfl, rfl⟩) (h.rmw hF).1
    · exact key seg off kind kind p hoff hk (.inl rfl) hF

/-- What a listed page fault for `n` bytes at `a` is. -/
def faultFor (seg : Seg) (kind : AccessKind) (a n c : Nat) : PageFault := ⟨seg, kind, a, a, 0, n - 1, c⟩

theorem faultFor_strikes {seg seg' : Seg} {kind kind' : AccessKind} {off k a n c j : Nat} :
    (faultFor seg' kind' a n c).strikes seg off k kind j = true ↔
      seg' = seg ∧ (kind' = kind ∨ kind = .rmw ∧ kind' ≠ .fetch) ∧ a = off + j ∧ j + (n - 1) < k := by
  rw [PageFault.strikes_iff, PageFault.concerns_iff]
  simp only [faultFor, Nat.zero_le, true_and]
  constructor
  · rintro ⟨h1, h2, h3, h4, h5⟩
    exact ⟨h1, h2, by omega, h5⟩
  · rintro ⟨h1, h2, h3, h4⟩
    exact ⟨h1, h2, by omega, by omega, h4⟩

/-- The page faults that hold a function's, for accesses of at most `M` bytes that end below `N`: each is listed, none else, and the
first that strikes an access's lowest byte is the access's own. -/
theorem exists_page_faults (F : Seg → Nat → Nat → AccessKind → Except Exc (List Nat)) (N M : Nat) :
    ∃ fs : List PageFault,
      (∀ f ∈ fs, ∃ seg kind a n c, 1 ≤ n ∧ F seg a n kind = .error (.pf c) ∧ f = faultFor seg kind a n c) ∧
      ∀ seg off k kind c, 1 ≤ k → k ≤ M → off + k < N → F seg off k kind = .error (.pf c) →
        ∃ f, fs.find? (fun f => f.strikes seg off k kind 0) = some f ∧ f.code = c := by
  induction M with
  | zero => exact ⟨[], by simp, fun _ _ _ _ _ h1 h2 => absurd h1 (by omega)⟩
  | succ M ih =>
    obtain ⟨fs, hall, hfind⟩ := ih
    have block : ∀ Q : AccessKind → Prop, ∃ l : List PageFault, ∀ f, f ∈ l ↔
        ∃ seg a kind c, a < N ∧ Q kind ∧ F seg a (M + 1) kind = .error (.pf c) ∧ f = faultFor seg kind a (M + 1) c := by
      intro Q
      classical
      obtain ⟨l, hl⟩ := exists_list_of_accesses N fun seg a n kind =>
        match F seg a (M + 1) kind with
        | .error (.pf c) => if n = 0 ∧ Q kind then some (faultFor seg kind a (M + 1) c) else none
        | _ => none
      refine ⟨l, fun f => (hl f).trans ⟨?_, ?_⟩⟩
      · rintro ⟨seg, a, n, kind, ha, -, h⟩
        split at h
        · rename_i c hF
          split at h
          · rename_i hq
            exact ⟨seg, a, kind, c, ha, hq.2, hF, (Option.some.inj h).symm⟩
          · cases h
        · cases h
      · rintro ⟨seg, a, kind, c, ha, hq, hF, rfl⟩
        exact ⟨seg, a, 0, kind, ha, by omega, by simp [hF, hq]⟩
    obtain ⟨l₁, h₁⟩ := block (· = .rmw)
    obtain ⟨l₂, h₂⟩ := block (· ≠ .rmw)
    refine ⟨l₁ ++ (l₂ ++ fs), ?_, ?_⟩
    · intro f hf
      rcases List.mem_append.mp hf with hf | hf
      · obtain ⟨seg, a, kind, c, -, -, hF, rfl⟩ := (h₁ f).mp hf
        exact ⟨seg, kind, a, M + 1, c, by omega, hF, rfl⟩
      · rcases List.mem_append.mp hf with hf | hf
        · obtain ⟨seg, a, kind, c, -, -, hF, rfl⟩ := (h₂ f).mp hf
          exact ⟨seg, kind, a, M + 1, c, by omega, hF, rfl⟩
        · exact hall f hf
    · intro seg off k kind c hk hkM hN hF
      have strikes : ∀ {seg' a kind' c'}, (faultFor seg' kind' a (M + 1) c').strikes seg off k kind 0 = true ↔
          seg' = seg ∧ a = off ∧ M < k ∧ (kind' = kind ∨ kind = .rmw ∧ kind' ≠ .fetch) := by
        intro seg' a kind' c'
        rw [faultFor_strikes]
        constructor
        · rintro ⟨h1, h2, h3, h4⟩
          exact ⟨h1, by omega, by omega, h2⟩
        · rintro ⟨h1, h2, h3, h4⟩
          exact ⟨h1, h4, by omega, by omega⟩
      by_cases hkM' : k ≤ M
      · have hnone : ∀ l : List PageFault,
            (∀ f ∈ l, ∃ seg a kind c, f = faultFor seg kind a (M + 1) c) → l.find? (fun f => f.strikes seg off k kind 0) = none := by
          intro l hl
          refine List.find?_eq_none.mpr fun f hf hs => ?_
          obtain ⟨seg', a, kind', c', rfl⟩ := hl f hf
          have := (strikes.mp hs).2.2.1
          omega
        rw [List.find?_append, List.find?_append,
          hnone l₁ fun f hf => by obtain ⟨seg, a, kind, c, -, -, -, rfl⟩ := (h₁ f).mp hf; exact ⟨_, _, _, _, rfl⟩,
          hnone l₂ fun f hf => by obtain ⟨seg, a, kind, c, -, -, -, rfl⟩ := (h₂ f).mp hf; exact ⟨_, _, _, _, rfl⟩]
        exact hfind seg off k kind c hk hkM' hN hF
      · obtain rfl : k = M + 1 := by omega
        have own : ∀ l : List PageFault, (∀ f, f ∈ l → f.strikes seg off (M + 1) kind 0 = true → f.code = c) →
            faultFor seg kind off (M + 1) c ∈ l →
            ∃ f, l.find? (fun f => f.strikes seg off (M + 1) kind 0) = some f ∧ f.code = c := by
          intro l hl hin
          cases hf : l.find? (fun f => f.strikes seg off (M + 1) kind 0) with
          | some f =>
            have hs := List.find?_some (p := fun f : PageFault => f.strikes seg off (M + 1) kind 0) hf
            exact ⟨f, rfl, hl f (List.mem_of_find?_eq_some hf) hs⟩
          | none => exact absurd (strikes.mpr ⟨rfl, rfl, by omega, .inl rfl⟩) (List.find?_eq_none.mp hf _ hin)
        have same : ∀ {kind' a seg' c'}, kind' = kind → seg' = seg → a = off → F seg' a (M + 1) kind' = .error (.pf c') → c' = c := by
          rintro _ _ _ c' rfl rfl rfl h
          rw [hF] at h
          cases h
          rfl
        rw [List.find?_append]
        by_cases hkind : kind = .rmw
        · obtain ⟨f, hf, hc⟩ := own l₁ (fun f hf hs => by
            obtain ⟨seg', a, kind', c', -, rfl, hF', rfl⟩ := (h₁ f).mp hf
            obtain ⟨hs1, hs2, -, -⟩ := strikes.mp hs
            exact same hkind.symm hs1 hs2 hF') ((h₁ _).mpr ⟨seg, off, kind, c, by omega, hkind, hF, rfl⟩)
          exact ⟨f, by rw [hf]; rfl, hc⟩
        · have hnone : l₁.find? (fun f => f.strikes seg off (M + 1) kind 0) = none := by
            refine List.find?_eq_none.mpr fun f hf hs => ?_
            obtain ⟨seg', a, kind', c', -, rfl, hF', rfl⟩ := (h₁ f).mp hf
            rcases (strikes.mp hs).2.2.2 with h | h
            · exact hkind h.symm
            · exact hkind h.1
          obtain ⟨f, hf, hc⟩ := own l₂ (fun f hf hs => by
            obtain ⟨seg', a, kind', c', -, -, hF', rfl⟩ := (h₂ f).mp hf
            obtain ⟨hs1, hs2, -, hs4⟩ := strikes.mp hs
            exact same (hs4.resolve_right fun h => hkind h.1) hs1 hs2 hF') ((h₂ _).mpr ⟨seg, off, kind, c, by omega, hkind, hF, rfl⟩)
          exact ⟨f, by rw [hnone, List.find?_append, hf]; rfl, hc⟩

/-- A page fault at the lowest byte is the access's. -/
theorem pageFault_of_lowest {s : State} {seg : Seg} {off k : Nat} {kind : AccessKind} {c : Nat} (hk : 1 ≤ k)
    (h : byteFault s seg off k kind 0 = some c) : pageFault s seg off k kind = some c := by
  obtain ⟨n, rfl⟩ : ∃ n, k = n + 1 := ⟨k - 1, by omega⟩
  simp [pageFault, List.range_succ_eq_map, h]

/-- Every function that meets the contract of R64 is the `translate` of some data, on all accesses that end below a bound. -/
theorem translate_expresses_every_contract (h : TranslateContract mode writable F) (N : Nat) :
    ∃ (g : SegRegs) (runs : List PageRun) (fs : List PageFault), ∀ s : State,
      s.params.mode = mode → s.segs = g → s.params.pages = runs → s.params.pageFaults = fs →
      ∀ seg off k kind, 1 ≤ k → off + k < N → translate s seg off k kind = F seg off k kind := by
  have hseg : ∀ seg, ∃ g : SegReg, mode = .protectedMode → ∀ s : State, s.params.mode = mode → s.segs.get seg = g →
      ∀ off k kind, 1 ≤ k → off + k < N →
        (∀ e, SegLevel (F seg off k kind) → F seg off k kind = .error e → segFault s seg off k kind = some e) ∧
          (¬ SegLevel (F seg off k kind) → segFault s seg off k kind = none) := by
    intro seg
    by_cases hm : mode = .protectedMode
    · obtain ⟨g, hg⟩ := exists_segment_data h N seg hm
      exact ⟨g, fun _ => hg⟩
    · exact ⟨.atReset 0 0, fun hc => absurd hc hm⟩
  choose g hg using hseg
  obtain ⟨runs, hruns⟩ := exists_page_runs h N
  obtain ⟨fs, hall, hfind⟩ := exists_page_faults F N N
  refine ⟨⟨g .es, g .cs, g .ss, g .ds, g .fs, g .gs⟩, runs, fs, fun s hm hs hr hf seg off k kind hk hN => ?_⟩
  have hget : s.segs.get seg = g seg := by
    rw [hs]
    cases seg <;> rfl
  have addrs : ∀ {ps kind}, F seg off k kind = .ok ps → ps = (List.range k).map fun j => byteAddr s seg kind (off + j) := by
    intro ps kind hF
    have hl := h.length hF
    refine List.ext_getElem (by simp [hl]) fun j h1 h2 => ?_
    have hp := h.part (j := j) (n := 1) hF (Nat.le_refl 1) (by omega)
    have hone : (ps.drop j).take 1 = [ps[j]] := by rw [List.drop_eq_getElem_cons h1]; rfl
    rw [hone] at hp
    simpa using (hruns s hm hr seg (off + j) kind _ (by omega) hp).symm
  have noFault : ∀ {ps}, F seg off k kind = .ok ps → pageFault s seg off k kind = none := by
    intro ps hF
    by_cases hreal : s.params.mode = .realAddress
    · exact pageFault_real hreal ..
    · refine pageFault_eq_none_iff.mpr fun j hj => (byteFault_eq_none_iff hreal).mpr ⟨fun f hfm => ?_, ?_⟩
      · rw [hf] at hfm
        obtain ⟨seg', kind', a, n, c, hn, hF', rfl⟩ := hall f hfm
        rw [Bool.eq_false_iff]
        intro hst
        obtain ⟨rfl, hc, rfl, h4⟩ := faultFor_strikes.mp hst
        have hp := h.part (j := j) (n := n) hF hn (by omega)
        have hok : ∃ qs, F seg' (off + j) n kind' = .ok qs := by
          rcases hc with rfl | ⟨rfl, hne⟩
          · exact ⟨_, hp⟩
          · cases kind' with
            | fetch => exact absurd rfl hne
            | read => exact ⟨_, (h.rmw hp).1⟩
            | write => exact ⟨_, (h.rmw hp).2⟩
            | rmw => exact ⟨_, hp⟩
        obtain ⟨qs, hq⟩ := hok
        rw [hF'] at hq
        cases hq
      · rintro rfl
        have h1 := addrs (h.rmw hF).1
        have h2 := addrs (h.rmw hF).2
        rw [h1] at h2
        have := congrArg (fun l => l[j]?) h2
        simpa [hj] using this
  have fault : ∀ {c}, mode ≠ .realAddress → F seg off k kind = .error (.pf c) → pageFault s seg off k kind = some c := by
    intro c hreal hF
    obtain ⟨f, h1, h2⟩ := hfind seg off k kind c hk (by omega) hN hF
    refine pageFault_of_lowest hk ?_
    have hreal' : s.params.mode ≠ .realAddress := hm ▸ hreal
    unfold byteFault
    rw [hf, h1]
    cases hmm : s.params.mode with
    | realAddress => exact absurd hmm hreal'
    | protectedMode => simp [h2]
    | virtual8086 => simp [h2]
  have pageLevel : segFault s seg off k kind = none →
      (∀ e, F seg off k kind = .error e → (∃ c, e = .pf c) ∧ mode ≠ .realAddress) → translate s seg off k kind = F seg off k kind := by
    intro hsf he
    rw [translate_eq, hsf]
    cases hF : F seg off k kind with
    | ok ps => rw [noFault hF, addrs hF]
    | error e =>
      obtain ⟨⟨c, rfl⟩, hreal⟩ := he e hF
      rw [fault hreal hF]
  cases hmode : mode with
  | protectedMode =>
    have hd := hg seg hmode s hm hget off k kind hk hN
    by_cases hsl : SegLevel (F seg off k kind)
    · obtain ⟨e, he⟩ : ∃ e, F seg off k kind = .error e := by
        rcases hsl with h | h
        · exact ⟨_, h⟩
        · exact ⟨_, h⟩
      rw [translate_eq, hd.1 e hsl he, he]
    · refine pageLevel (hd.2 hsl) fun e he => ⟨?_, by simp [hmode]⟩
      rcases h.faults hmode hk he with ⟨rfl, -⟩ | ⟨rfl, -⟩ | hc
      · exact absurd (.inl he) hsl
      · exact absurd (.inr he) hsl
      · exact hc
  | realAddress =>
    have hlow := segFault_low (s := s) (seg := seg) (off := off) (k := k) (kind := kind) (by simp [hm, hmode])
    by_cases ho : off + k - 1 > 0xFFFF
    · rw [if_pos ho] at hlow
      rw [translate_eq, hlow, (h.real hmode hk).mpr ⟨ho, rfl⟩]
    · rw [if_neg ho] at hlow
      exact pageLevel hlow fun e he => absurd ((h.real hmode hk).mp he).1 ho
  | virtual8086 =>
    have hlow := segFault_low (s := s) (seg := seg) (off := off) (k := k) (kind := kind) (by simp [hm, hmode])
    by_cases ho : off + k - 1 > 0xFFFF
    · rw [if_pos ho] at hlow
      rw [translate_eq, hlow, h.virtualEnd hmode hk ho]
    · rw [if_neg ho] at hlow
      exact pageLevel hlow fun e he => ⟨h.virtualIn hmode hk (by omega) he, by simp [hmode]⟩

end

end Sys2Proof.Machine
end

