-- ==== Sys2Proof/Tests/Slice0.lean ====
section
/-! SUPPORT. Tests/Slice0.lean: the model's own tests. Expected results are the spec's vectors (95_test_vectors.md E1 to E49, B1 to B13,
S1 to S14, T1 to T35, X1 to X28), or hand calculation from the rule named. After the tests: for every statement that has hypotheses, a
witness that meets them together. -/

namespace Sys2Proof.Tests

open Sys2Proof Sys2Proof.Machine

/-! ## Helpers: the setups of 95_test_vectors.md section 0 -/

/-- All general registers zero. -/
def zeroRegs : Regs := ⟨0, 0, 0, 0, 0, 0, 0, 0⟩

/-- A segment at base 0 with one window from 0 to a limit. -/
def segTo (limit : Nat) (writable : Bool) : SegReg := ⟨0, 0, [⟨0, limit, true, true, true, true⟩], writable, []⟩

/-- A machine with its program at `pc` and data at one address. -/
def machine (mode : Mode) (sz : Size) (seg : SegReg) (pc : Nat) (program : List Byte) (g : Regs) (at_ : Nat) (data : List Byte) :
    State where
  regs := g
  eip := BitVec.ofNat 32 pc
  flags := State.reset.flags
  segs := ⟨seg, seg, seg, seg, seg, seg⟩
  mem :=
    Memory.setBytes (Memory.setBytes [] ((List.range program.length).map (pc + ·)) program)
      ((List.range data.length).map (at_ + ·)) data
  params :=
    { mode := mode
      defaults := ⟨sz, sz⟩
      pages := []
      pageFaults := []
      splitFault := 0
      ram := [⟨0, 0xFFFFFFFF⟩]
      code := [⟨pc, pc + program.length - 1⟩]
      flagsUnlisted := .preserve }
  draws := 0

/-- `Flat32`, `pc` = 1000H. -/
def flat32 : List Byte → Regs → Nat → List Byte → State := machine .protectedMode .w32 (segTo 0xFFFFFFFF true) 0x1000

/-- `Lim32(8FFFH)`. -/
def lim32 : List Byte → Regs → Nat → List Byte → State := machine .protectedMode .w32 (segTo 0x8FFF true) 0x1000

/-- `RO32`. -/
def ro32 : List Byte → Regs → Nat → List Byte → State := machine .protectedMode .w32 (segTo 0xFFFFFFFF false) 0x1000

/-- `Real16`. -/
def real16 : Nat → List Byte → Regs → Nat → List Byte → State := machine .realAddress .w16 (segTo 0xFFFF true)

/-- The next state, if the step completes. -/
def nextOf : Host.Outcome State Fault Refusal → Option State
  | .next t => some t
  | .fault _ => none
  | .refused _ => none

/-- Vector, error code, return address, and whether the state carried is the one before, if the step traps. -/
def trapOf (s : State) : Host.Outcome State Fault Refusal → Option (Nat × Option Nat × Dword × Bool)
  | .next _ => none
  | .fault f => some (f.record.vector, f.record.errorCode, f.record.returnEip, f.record.state == s)
  | .refused _ => none

/-- The refusal, if the step is refused. -/
def refusalIn : Host.Outcome State Fault Refusal → Option Refusal
  | .next _ => none
  | .fault _ => none
  | .refused r => some r

/-- 32-bit defaults. -/
def d32 : Defaults := ⟨.w32, .w32⟩

/-- 16-bit defaults. -/
def d16 : Defaults := ⟨.w16, .w16⟩

/-! ## Well-formedness: each check refuses a term (30_encoding.md R91 to R99) -/

theorem test_wellFormed_accepts : wellFormed d32 (.bsf32 [] .eax (.mem (.sib 2 .esi .ebp (.d8 0)))) = true := by decide

theorem test_wellFormed_repeated_operand_size_prefix :
    wellFormed d32 (.bsf32 [.opSize, .opSize] .eax (.reg .ebx)) = false := by decide

theorem test_wellFormed_two_segment_overrides :
    wellFormed d32 (.bsf32 [.seg .es, .seg .ss] .eax (.mem (.base32 .ebx .none))) = false := by decide

theorem test_wellFormed_operand_size : wellFormed d32 (.bsf16 [] .eax (.reg .ebx)) = false := by decide

theorem test_wellFormed_address_size : wellFormed d32 (.bsf32 [] .eax (.mem (.base16 .bx .none))) = false := by decide

theorem test_wellFormed_bp_without_displacement :
    wellFormed d16 (.bsf16 [] .eax (.mem (.base16 .bp .none))) = false := by decide

theorem test_wellFormed_esp_needs_sib : wellFormed d32 (.bsf32 [] .eax (.mem (.base32 .esp .none))) = false := by decide

theorem test_wellFormed_ebp_without_displacement :
    wellFormed d32 (.bsf32 [] .eax (.mem (.base32 .ebp .none))) = false := by decide

theorem test_wellFormed_sib_ebp_without_displacement :
    wellFormed d32 (.bsf32 [] .eax (.mem (.sib 0 .eax .ebp .none))) = false := by decide

/-! ## Decoding: a word of every constructor, written out from 30_encoding.md R90 to R102 (E vectors where the spec has one) -/

/-- E2. -/
theorem test_decode_bound16 : decode d32 [0x66, 0x62, 0x03] = .done (.bound16 [.opSize] .eax (.mem (.base32 .ebx .none))) [] := by decide
/-- E3. -/
theorem test_decode_bound32 : decode d32 [0x62, 0x4E, 0x08] = .done (.bound32 [] .ecx (.mem (.base32 .esi (.d8 8)))) [] := by decide
/-- E42. -/
theorem test_decode_bsf16 : decode d16 [0x0F, 0xBC, 0x4A, 0x02] = .done (.bsf16 [] .ecx (.mem (.base16 .bpSi (.d8 2)))) [] := by decide
/-- E10. -/
theorem test_decode_bsf32 : decode d32 [0x0F, 0xBC, 0x45, 0x00] = .done (.bsf32 [] .eax (.mem (.base32 .ebp (.d8 0)))) [] := by decide
/-- E13. -/
theorem test_decode_bsr16 : decode d32 [0x66, 0x0F, 0xBD, 0xC8] = .done (.bsr16 [.opSize] .ecx (.reg .eax)) [] := by decide
/-- E12. -/
theorem test_decode_bsr32 :
    decode d32 [0x0F, 0xBD, 0x54, 0xB3, 0x10] = .done (.bsr32 [] .edx (.mem (.sib 2 .esi .ebx (.d8 0x10)))) [] := by decide
/-- E47. -/
theorem test_decode_btReg16 : decode d16 [0x0F, 0xA3, 0x46, 0x02] = .done (.btReg16 [] (.mem (.base16 .bp (.d8 2))) .eax) [] := by decide
/-- E14. -/
theorem test_decode_btReg32 : decode d32 [0x0F, 0xA3, 0xC8] = .done (.btReg32 [] (.reg .eax) .ecx) [] := by decide
/-- E48. -/
theorem test_decode_btImm16 : decode d16 [0x0F, 0xBA, 0x20, 0x03] = .done (.btImm16 [] (.mem (.base16 .bxSi .none)) 3) [] := by decide
/-- E17. -/
theorem test_decode_btImm32 :
    decode d32 [0x0F, 0xBA, 0x63, 0x04, 0x05] = .done (.btImm32 [] (.mem (.base32 .ebx (.d8 4))) 5) [] := by decide
/-- R94 row 11: `0F BB /r`, ModRM 11 010 001. -/
theorem test_decode_btcReg16 : decode d16 [0x0F, 0xBB, 0xD1] = .done (.btcReg16 [] (.reg .ecx) .edx) [] := by decide
/-- E23. -/
theorem test_decode_btcReg32 : decode d32 [0x0F, 0xBB, 0xD1] = .done (.btcReg32 [] (.reg .ecx) .edx) [] := by decide
/-- R94 row 13: `0F BA /7 ib`, ModRM 10 111 011 with disp16 of BP + DI. -/
theorem test_decode_btcImm16 :
    decode d16 [0x0F, 0xBA, 0xBB, 0x34, 0x12, 0x0F] = .done (.btcImm16 [] (.mem (.base16 .bpDi (.d16 0x1234))) 15) [] := by decide
/-- E25. -/
theorem test_decode_btcImm32 :
    decode d32 [0x0F, 0xBA, 0x3D, 0x00, 0x10, 0x00, 0x00, 0x07] = .done (.btcImm32 [] (.mem (.abs32 0x1000)) 7) [] := by decide
/-- R94 row 15: `0F B3 /r`, ModRM 00 110 101. -/
theorem test_decode_btrReg16 : decode d16 [0x0F, 0xB3, 0x35] = .done (.btrReg16 [] (.mem (.base16 .di .none)) .esi) [] := by decide
/-- E28. -/
theorem test_decode_btrReg32 : decode d32 [0x0F, 0xB3, 0x77, 0xFC] = .done (.btrReg32 [] (.mem (.base32 .edi (.d8 0xFC))) .esi) [] := by decide
/-- R94 row 17: `0F BA /6 ib`, ModRM 11 110 111. -/
theorem test_decode_btrImm16 : decode d16 [0x0F, 0xBA, 0xF7, 0x0A] = .done (.btrImm16 [] (.reg .edi) 10) [] := by decide
/-- E27. -/
theorem test_decode_btrImm32 : decode d32 [0x0F, 0xBA, 0xF0, 0x03] = .done (.btrImm32 [] (.reg .eax) 3) [] := by decide
/-- E30. -/
theorem test_decode_btsReg16 : decode d32 [0x66, 0x0F, 0xAB, 0x03] = .done (.btsReg16 [.opSize] (.mem (.base32 .ebx .none)) .eax) [] := by decide
/-- E33. -/
theorem test_decode_btsReg32 : decode d32 [0x36, 0x0F, 0xAB, 0x03] = .done (.btsReg32 [.seg .ss] (.mem (.base32 .ebx .none)) .eax) [] := by decide
/-- E43. -/
theorem test_decode_btsImm16 :
    decode d16 [0x0F, 0xBA, 0x2E, 0x34, 0x12, 0x09] = .done (.btsImm16 [] (.mem (.abs16 0x1234)) 9) [] := by decide
/-- E32. -/
theorem test_decode_btsImm32 :
    decode d32 [0x0F, 0xBA, 0x6C, 0x24, 0x04, 0x01] = .done (.btsImm32 [] (.mem (.sib 0 .esp .esp (.d8 4))) 1) [] := by decide

/-- SIB with no base (30_encoding.md R98): mod 0, SIB 01 001 101, disp32. -/
theorem test_decode_sib_without_base :
    decode d32 [0x0F, 0xBC, 0x04, 0x4D, 0x10, 0x00, 0x00, 0x80] = .done (.bsf32 [] .eax (.mem (.sibAbs 1 .ecx 0x80000010))) [] := by
  decide

/-- X19, X20, X23. -/
theorem test_decode_prefixes_refused :
    decode d32 [0xF0] = .reject .prefixNotAdmitted ∧ decode d32 [0x66, 0x66] = .reject .prefixNotAdmitted ∧
      decode d32 [0x26, 0x36] = .reject .prefixNotAdmitted := by decide

/-- X21, X22. -/
theorem test_decode_not_in_spec :
    decode d32 [0x0F, 0xBA, 0xC0] = .reject .notInSpec ∧ decode d32 [0x90] = .reject .notInSpec := by decide

/-- 30_encoding.md R109: the table's numbers are read in their own order; other numbers byte by byte from the low end. -/
theorem test_decodeTableWord :
    decodeTableWord 16 0x6200 = some (.bound16 [] .eax (.mem (.base16 .bxSi .none))) ∧
      decodeTableWord 24 0x0FBA28 = some (.btsImm16 [] (.mem (.base16 .bxSi .none)) 0) ∧
      decodeTableWord 24 0xC8BC0F = some (.bsf16 [] .ecx (.reg .eax)) := by decide

/-- The word placed by `withFetchWord` at reset is the instruction fetched. -/
theorem test_withFetchWord : fetchInstr (State.reset.withFetchWord 24 0x0FBDC8) = .ok (.bsr16 [] .ecx (.reg .eax)) := by rfl

/-! ## Steps -/

/-- B13: W = 16, A = 16, a misaligned block, bounds -2 and 3. -/
theorem test_bound16 :
    (nextOf (step (real16 0x1000 [0x62, 0x87, 0xF1, 0x1F] { zeroRegs with eax := 3, ebx := 0x10 } 0x2001 [0xFE, 0xFF, 0x03, 0x00]))).map (fun t => (t.eip)) =
      some (0x1004) := by
  decide

/-- B7: only AX counts, and it is -1. -/
theorem test_bound16_traps :
    (let s := (flat32 [0x66, 0x62, 0x03] { zeroRegs with eax := 0x1234FFFF, ebx := 0x2000 } 0x2000 [0x00, 0x00, 0x0A, 0x00])
     trapOf s (step s)) = some (5, none, 0x1000, true) := by
  decide

/-- B6: -16 <= -1 <= 16, which an unsigned comparison would fail. -/
theorem test_bound32 :
    (nextOf (step (flat32 [0x62, 0x03] { zeroRegs with eax := 0xFFFFFFFF, ebx := 0x2000 } 0x2000 [0xF0, 0xFF, 0xFF, 0xFF, 0x10, 0x00, 0x00, 0x00]))).map (fun t => (t.eip, t.regs.eax)) =
      some (0x1002, 0xFFFFFFFF) := by
  decide

/-- B4: one above the upper bound. -/
theorem test_bound32_traps :
    (let s := (flat32 [0x62, 0x03] { zeroRegs with eax := 10, ebx := 0x2000 } 0x2000 [0x00, 0x00, 0x00, 0x00, 0x09, 0x00, 0x00, 0x00])
     trapOf s (step s)) = some (5, none, 0x1000, true) := by
  decide

/-- S14: 16-bit addressing, 16-bit destination. -/
theorem test_bsf16 :
    (nextOf (step (real16 0x1000 [0x0F, 0xBC, 0x4A, 0x02] { zeroRegs with ecx := 0x22222222, ebp := 0x3000, esi := 4 } 0x3006 [0x60, 0x00]))).map (fun t => (t.regs.ecx, t.flags.ZF)) =
      some (0x22220005, false) := by
  decide

/-- S5: bit 16 of the source is not seen, bits 31:16 of the destination stay. -/
theorem test_bsf16_register :
    (nextOf (step (flat32 [0x66, 0x0F, 0xBC, 0xC3] { zeroRegs with eax := 0xAAAA0000, ebx := 0x18000 } 0 []))).map (fun t => (t.regs.eax, t.flags.ZF)) =
      some (0xAAAA000F, false) := by
  decide

/-- S1: bit 0 set, the destination is written. -/
theorem test_bsf32 :
    (nextOf (step (flat32 [0x0F, 0xBC, 0xC8] { zeroRegs with eax := 1, ecx := 77 } 0 []))).map (fun t => (t.regs.ecx, t.flags.ZF, t.eip)) =
      some (0, false, 0x1003) := by
  decide

/-- S3: ZF is 1 and one undefined value was drawn. -/
theorem test_bsf32_of_zero :
    (nextOf (step (flat32 [0x0F, 0xBC, 0xC8] zeroRegs 0 []))).map (fun t => (t.flags.ZF, t.draws, t.regs.eax)) =
      some (true, 1, 0) := by
  decide

/-- S11: AX is 0 although EAX is not; bits 31:16 of ECX stay. -/
theorem test_bsr16 :
    (nextOf (step (flat32 [0x66, 0x0F, 0xBD, 0xC8] { zeroRegs with eax := 0x10000, ecx := 0xCCCCCCCC } 0 []))).map (fun t => (t.flags.ZF, t.draws)) =
      some (true, 1) := by
  decide

/-- S8: the highest of bits 3, 4, 6. -/
theorem test_bsr32 :
    (nextOf (step (flat32 [0x0F, 0xBD, 0xC8] { zeroRegs with eax := 0x58 } 0 []))).map (fun t => (t.regs.ecx, t.flags.ZF)) =
      some (6, false) := by
  decide

/-- S12: ea = 3000H + 4*4 + 10H. -/
theorem test_bsr32_memory :
    (nextOf (step (flat32 [0x0F, 0xBD, 0x54, 0xB3, 0x10] { zeroRegs with ebx := 0x3000, esi := 4 } 0x3020 [0x00, 0x00, 0xF0, 0x00]))).map (fun t => (t.regs.edx, t.flags.ZF)) =
      some (0x17, false) := by
  decide

/-- T12: AX = -1, the word below the base, bit 15. -/
theorem test_btReg16 :
    (nextOf (step (flat32 [0x66, 0x0F, 0xA3, 0x03] { zeroRegs with eax := 0xFFFF, ebx := 0x4002 } 0x4000 [0x00, 0x80]))).map (fun t => (t.flags.CF)) =
      some (true) := by
  decide

/-- T13: offset 16 is bit 0 of the next word. -/
theorem test_btReg16_next_word :
    (nextOf (step (flat32 [0x66, 0x0F, 0xA3, 0x03] { zeroRegs with eax := 0x10, ebx := 0x4000 } 0x4000 [0x00, 0x00, 0x01, 0x00]))).map (fun t => (t.flags.CF)) =
      some (true) := by
  decide

/-- T11: -33 fdiv 32 = -2, bit 31; a truncating division would look 4 bytes higher. -/
theorem test_btReg32 :
    (nextOf (step (flat32 [0x0F, 0xA3, 0x03] { zeroRegs with eax := 0xFFFFFFDF, ebx := 0x4008 } 0x4000 [0x00, 0x00, 0x00, 0x80, 0x00, 0x00, 0x00, 0x00]))).map (fun t => (t.flags.CF)) =
      some (true) := by
  decide

/-- X14: bit 0 lies inside the limit, the four bytes checked do not. -/
theorem test_btReg32_footprint :
    (let s := (lim32 [0x0F, 0xA3, 0x03] { zeroRegs with ebx := 0x8FFD } 0 [])
     trapOf s (step s)) = some (13, some 0, 0x1000, true) := by
  decide

/-- T6: 19 fmod 16 = 3. -/
theorem test_btImm16 :
    (nextOf (step (flat32 [0x66, 0x0F, 0xBA, 0xE0, 0x13] { zeroRegs with eax := 0x80008 } 0 []))).map (fun t => (t.flags.CF, t.eip)) =
      some (true, 0x1005) := by
  decide

/-- T7: bit 3 of the word at the effective address, not of the next. -/
theorem test_btImm16_memory :
    (nextOf (step (flat32 [0x66, 0x0F, 0xBA, 0x23, 0x13] { zeroRegs with ebx := 0x4000 } 0x4000 [0x08, 0x00, 0x00, 0x00]))).map (fun t => (t.flags.CF)) =
      some (true) := by
  decide

/-- T14: immediate 37 is bit 5 of the doubleword at the effective address. -/
theorem test_btImm32 :
    (nextOf (step (flat32 [0x0F, 0xBA, 0x23, 0x25] { zeroRegs with ebx := 0x4000 } 0x4000 [0x20, 0x00, 0x00, 0x00, 0x00, 0x00, 0x00, 0x00]))).map (fun t => (t.flags.CF, t.flags.ZF)) =
      some (true, false) := by
  decide

/-- 42_bit_test.md R176 by hand: offset 18 fmod 16 = 2; bit 2 of 0FH is 1 and becomes 0; bits 31:16 stay. -/
theorem test_btcReg16 :
    (nextOf (step (flat32 [0x66, 0x0F, 0xBB, 0xD1] { zeroRegs with ecx := 0xFFFF000F, edx := 0x12 } 0 []))).map (fun t => (t.flags.CF, t.regs.ecx)) =
      some (true, 0xFFFF000B) := by
  decide

/-- T22: the offset is taken from the old EAX. -/
theorem test_btcReg32 :
    (nextOf (step (flat32 [0x0F, 0xBB, 0xC0] { zeroRegs with eax := 0x25 } 0 []))).map (fun t => (t.flags.CF, t.regs.eax)) =
      some (true, 5) := by
  decide

/-- 42_bit_test.md R177 by hand: 31 fmod 16 = 15; the bit was 0. -/
theorem test_btcImm16 :
    (nextOf (step (flat32 [0x66, 0x0F, 0xBA, 0xF8, 0x1F] { zeroRegs with eax := 0xFFFF0000 } 0 []))).map (fun t => (t.flags.CF, t.regs.eax)) =
      some (false, 0xFFFF8000) := by
  decide

/-- T21: the top bit. -/
theorem test_btcImm32 :
    (nextOf (step (flat32 [0x0F, 0xBA, 0xF8, 0x1F] zeroRegs 0 []))).map (fun t => (t.flags.CF, t.regs.eax)) =
      some (false, 0x80000000) := by
  decide

/-- 42_bit_test.md R178 by hand: bit 3 of FFFFH cleared. -/
theorem test_btrReg16 :
    (nextOf (step (flat32 [0x66, 0x0F, 0xB3, 0xC8] { zeroRegs with eax := 0xFFFFFFFF, ecx := 3 } 0 []))).map (fun t => (t.flags.CF, t.regs.eax)) =
      some (true, 0xFFFFFFF7) := by
  decide

/-- T27: 69 fdiv 32 = 2: the doubleword at 400CH, bit 5. -/
theorem test_btrReg32 :
    (nextOf (step (flat32 [0x0F, 0xB3, 0x77, 0xFC] { zeroRegs with esi := 0x45, edi := 0x4008 } 0x400C [0xFF, 0xFF, 0xFF, 0xFF]))).map (fun t => (t.flags.CF, readByte t 0x400C, readByte t 0x400D)) =
      some (true, 0xDF, 0xFF) := by
  decide

/-- X10: a bit already 0 in a nonwritable segment still faults. -/
theorem test_btrReg32_nonwritable :
    (let s := (ro32 [0x0F, 0xB3, 0x03] { zeroRegs with eax := 3, ebx := 0x4000 } 0x4000 [0x00, 0x00, 0x00, 0x00])
     trapOf s (step s)) = some (13, some 0, 0x1000, true) := by
  decide

/-- 42_bit_test.md R179 by hand: 19 fmod 16 = 3. -/
theorem test_btrImm16 :
    (nextOf (step (flat32 [0x66, 0x0F, 0xBA, 0xF0, 0x13] { zeroRegs with eax := 0x80008 } 0 []))).map (fun t => (t.flags.CF, t.regs.eax)) =
      some (true, 0x80000) := by
  decide

/-- T25. -/
theorem test_btrImm32 :
    (nextOf (step (flat32 [0x0F, 0xBA, 0xF0, 0x03] { zeroRegs with eax := 0x58 } 0 []))).map (fun t => (t.flags.CF, t.regs.eax)) =
      some (true, 0x50) := by
  decide

/-- X5: the last bit of the 64 KB space. -/
theorem test_btsReg16 :
    (nextOf (step (real16 0x1000 [0x0F, 0xAB, 0x07] { zeroRegs with eax := 0xF, ebx := 0xFFFE } 0xFFFE [0x00, 0x00]))).map (fun t => (t.flags.CF, readByte t 0xFFFE, readByte t 0xFFFF)) =
      some (false, 0, 0x80) := by
  decide

/-- X4: the address sum is 10000H. -/
theorem test_btsReg16_address :
    refusalIn (step (real16 0x1000 [0x0F, 0xAB, 0x07] { zeroRegs with eax := 0x10, ebx := 0xFFFE } 0 [])) = some .addressArithmeticOverflow := by
  decide

/-- T35: the most negative offset reaches address 0. -/
theorem test_btsReg32 :
    (nextOf (step (flat32 [0x0F, 0xAB, 0x03] { zeroRegs with eax := 0x80000000, ebx := 0x10000000 } 0 [0x00, 0x00, 0x00, 0x00]))).map (fun t => (t.flags.CF, readByte t 0)) =
      some (false, 1) := by
  decide

/-- R186 with R54, R56: BT DWORD PTR [0FFFDH],0 at A = 16 in `Flat32`: its last byte is at 10000H, past 2^16 - 1. -/
theorem test_btImm32_past_the_space :
    let s := flat32 [0x67, 0x0F, 0xBA, 0x26, 0xFD, 0xFF, 0x00] zeroRegs 0 []
    trapOf s (step s) = some (13, some 0, 0x1000, true) := by
  decide

/-- The same of BTS in SS: SS(0). -/
theorem test_btsImm32_past_the_space :
    let s := flat32 [0x36, 0x67, 0x0F, 0xBA, 0x2E, 0xFD, 0xFF, 0x00] zeroRegs 0 []
    trapOf s (step s) = some (12, some 0, 0x1000, true) := by
  decide

/-- X28: BTS into its own bytes. -/
theorem test_btsReg32_code :
    refusalIn (step (flat32 [0x0F, 0xAB, 0x03] { zeroRegs with ebx := 0x1000 } 0 [])) = some .codeOverwrite := by
  decide

/-- T15: 31 fmod 16 = 15; bits 31:16 stay. -/
theorem test_btsImm16 :
    (nextOf (step (flat32 [0x66, 0x0F, 0xBA, 0xE8, 0x1F] { zeroRegs with eax := 0xFFFF0000 } 0 []))).map (fun t => (t.flags.CF, t.regs.eax)) =
      some (false, 0xFFFF8000) := by
  decide

/-- T29: byte 5003H from 7FH to FFH. -/
theorem test_btsImm32 :
    (nextOf (step (flat32 [0x0F, 0xBA, 0x6D, 0x00, 0x1F] { zeroRegs with ebp := 0x5000 } 0x5000 [0xFF, 0xFF, 0xFF, 0x7F]))).map (fun t => (t.flags.CF, readByte t 0x5003, t.eip)) =
      some (false, 0xFF, 0x1005) := by
  decide

/-! The fetch, the priority of faults, and the modes. -/

/-- X18: the whole block is checked before the bounds. -/
theorem test_bound_block_before_bounds :
    (let s := (lim32 [0x62, 0x03] { zeroRegs with eax := 100, ebx := 0x8FFC } 0x8FFC [0xC8, 0x00, 0x00, 0x00])
     trapOf s (step s)) = some (13, some 0, 0x1000, true) := by
  decide

/-- X9: an SS override changes the fault. -/
theorem test_stack_segment :
    (let s := (lim32 [0x36, 0x0F, 0xA3, 0x43, 0x08] { zeroRegs with ebx := 0x9000 } 0 [])
     trapOf s (step s)) = some (12, some 0, 0x1000, true) := by
  decide

/-- X6: in Real Address Mode vector 13 without an error code, in SS too. -/
theorem test_real_mode_stack_segment :
    (let s := (real16 0x1000 [0x0F, 0xA3, 0x46, 0x00] { zeroRegs with ebp := 0xFFFF } 0 [])
     trapOf s (step s)) = some (13, none, 0x1000, true) := by
  decide

/-- X26: the third byte of the instruction lies at offset 10000H. -/
theorem test_fetch_past_the_segment :
    (let s := (real16 0xFFFE [0x0F, 0xBC, 0xC8] zeroRegs 0 [])
     trapOf s (step s)) = some (13, none, 0xFFFE, true) := by
  decide

/-- X24: every byte is fetched, but EIP would be 10000H. -/
theorem test_eip_past_the_top :
    refusalIn (step (real16 0xFFFD [0x0F, 0xBC, 0xC8] zeroRegs 0 [])) = some .addressArithmeticOverflow := by
  decide

/-- X27: `RAM` lacks 4003H, and bit 0 of byte 4000H needs it. -/
theorem test_hole :
    refusalIn (step { flat32 [0x0F, 0xBA, 0x23, 0x00] { zeroRegs with ebx := 0x4000 } 0 [] with params.ram := [⟨0, 0x4002⟩, ⟨0x4004, 0xFFFFFFFF⟩] }) = some .notRAM := by
  decide

/-- 20_memory.md R69: the byte after `CODE`. -/
theorem test_fetch_outside_code :
    refusalIn (step (flat32 [0x0F, 0xBC] zeroRegs 0 [])) = some .notInSpec := by
  decide

/-- 70_reset_and_hazards.md R246: BSF of 58H takes 19 clocks and BSR of 58H at W = 32 takes 85. -/
theorem test_clocks :
    (clocksOf (.bsf32 [] .ecx (.reg .eax))).figure false (forwardZeros 3) = 19 ∧
      (clocksOf (.bsr32 [] .ecx (.reg .eax))).figure false (reverseZeros .w32 6) = 85 := by
  decide

/-! ## Witnesses: concrete operands and states that meet the hypotheses of each statement -/

/-- The addresses of k bytes. -/
def span (a k : Nat) : List Nat := (List.range k).map (a + ·)

/-- `DecodeOfEncodeIsTheInstruction`, `AdmittedInstructionHasTwoToTwelveBytes`: the shortest and the longest instruction (E1, E46). -/
theorem witness_wellFormed :
    wellFormed d32 (.bound32 [] .eax (.mem (.base32 .ebx .none))) = true ∧
      (Instr.bound32 [] .eax (.mem (.base32 .ebx .none))).length = 2 ∧
      wellFormed d16 (.btsImm32 [.seg .es, .addrSize, .opSize] (.mem (.sib 0 .esp .esp (.d32 0x12345678))) 0x1F) = true ∧
      (Instr.btsImm32 [.seg .es, .addrSize, .opSize] (.mem (.sib 0 .esp .esp (.d32 0x12345678))) 0x1F).length = 12 := by
  decide

/-- `DecodedBytesAreTheEncoding`, `OperandSizeSelectsTheRow`, `AddressSizeSelectsTheTable`: with neither size prefix and with both
(E48, E45). -/
theorem witness_decoded :
    decode d16 [0x0F, 0xBA, 0x20, 0x03, 0x90] = .done (.btImm16 [] (.mem (.base16 .bxSi .none)) 3) [0x90] ∧
      Prefix.opSize ∉ (Instr.btImm16 [] (.mem (.base16 .bxSi .none)) 3).prefixes ∧
      Prefix.addrSize ∉ (Instr.btImm16 [] (.mem (.base16 .bxSi .none)) 3).prefixes ∧
      decode d16 [0x67, 0x66, 0x0F, 0xBD, 0x03] = .done (.bsr32 [.addrSize, .opSize] .eax (.mem (.base32 .ebx .none))) [] ∧
      Prefix.opSize ∈ (Instr.bsr32 [.addrSize, .opSize] .eax (.mem (.base32 .ebx .none))).prefixes ∧
      Prefix.addrSize ∈ (Instr.bsr32 [.addrSize, .opSize] .eax (.mem (.base32 .ebx .none))).prefixes ∧
      (Instr.bsr32 [.addrSize, .opSize] .eax (.mem (.base32 .ebx .none))).rm = .mem (.base32 .ebx .none) := by
  decide

/-- `DecoderAsksOnlyForTheBytesItNeeds`, first clause: no byte read, and all but the last. -/
theorem witness_prefix_of_an_encoding :
    wellFormed d32 (.bsf32 [] .ecx (.reg .eax)) = true ∧ 0 < (Instr.bsf32 [] .ecx (.reg .eax)).length ∧
      2 < (Instr.bsf32 [] .ecx (.reg .eax)).length := by
  decide

/-- `DecoderAsksOnlyForTheBytesItNeeds`, second clause: nothing read, and E46 but its last byte. -/
theorem witness_more :
    decode d16 [] = .more ∧ decode d16 [0x26, 0x67, 0x66, 0x0F, 0xBA, 0xAC, 0x24, 0x78, 0x56, 0x34, 0x12] = .more := by
  decide

/-- `OpcodeTableSelectsExactlyTheRow`: rows of the table, the first and the last. -/
theorem witness_table_row :
    (⟨"BOUND r16,m16&16", 2, 0xFF00, 0x6200, .w16⟩ : TableRow) ∈ opcodeTable ∧
      (⟨"BTS r/m32,imm8", 3, 0xFFFF38, 0x0FBA28, .w32⟩ : TableRow) ∈ opcodeTable := by
  decide

/-- `InadmissiblePrefixesAreRefused`, `BytesOutsideTheTwentyTwoFormsAreRefused`: no prefix, and one of each class; each clause. -/
theorem witness_refused_bytes :
    prefixesOk [] = true ∧ prefixesOk [.seg .gs, .addrSize, .opSize] = true ∧
      Prefix.seg .gs ∈ [Prefix.seg .gs, .addrSize, .opSize] ∧ (Prefix.seg .es).sameClass (.seg .gs) = true ∧
      (0x90 : Byte) ∉ ([0x62, 0x0F, 0x66, 0x67, 0x26, 0x2E, 0x36, 0x3E, 0x64, 0x65, 0xF0, 0xF2, 0xF3] : List Byte) ∧
      (0x0B : Byte) ∉ ([0xBC, 0xBD, 0xA3, 0xAB, 0xB3, 0xBB, 0xBA] : List Byte) ∧
      (midField 0xC0).toNat < 4 ∧ (midField 0xDF).toNat < 4 := by
  decide

/-- S1 and the steps' state: BSF ECX,EAX at 1000H. -/
def bsfState : State := flat32 [0x0F, 0xBC, 0xC8] { zeroRegs with eax := 0x58 } 0 []

/-- `StepRunsTheDecodedInstruction`. -/
theorem witness_step :
    wellFormed bsfState.params.defaults (.bsf32 [] .ecx (.reg .eax)) = true ∧
      ∀ (n : Nat) (h : n < (encode (.bsf32 [] .ecx (.reg .eax))).length),
        fetchByte bsfState n = .ok (encode (.bsf32 [] .ecx (.reg .eax)))[n] := by
  refine ⟨by decide, fun n h => ?_⟩
  have : n < 3 := h
  interval_cases n <;> rfl

/-- `StepStopsWhereTheFetchStops`: X26, the third byte. -/
theorem witness_fetch_stops :
    let s := real16 0xFFFE [0x0F, 0xBC, 0xC8] zeroRegs 0 []
    decode s.params.defaults [0x0F, 0xBC] = .more ∧
      (∀ (n : Nat) (h : n < ([0x0F, 0xBC] : List Byte).length), fetchByte s n = .ok ([0x0F, 0xBC] : List Byte)[n]) ∧
      fetchByte s ([0x0F, 0xBC] : List Byte).length = .error (.raise .interrupt13) := by
  refine ⟨by decide, fun n h => ?_, rfl⟩
  have : n < 2 := h
  interval_cases n <;> rfl

/-- `StepRefusesWhatTheDecoderRejects`: X21, the third byte. -/
theorem witness_decoder_rejects :
    let s := flat32 [0x0F, 0xBA, 0xC0, 0x01] zeroRegs 0 []
    decode s.params.defaults [0x0F, 0xBA] = .more ∧
      (∀ (n : Nat) (h : n < ([0x0F, 0xBA] : List Byte).length), fetchByte s n = .ok ([0x0F, 0xBA] : List Byte)[n]) ∧
      fetchByte s ([0x0F, 0xBA] : List Byte).length = .ok 0xC0 ∧
      decode s.params.defaults ([0x0F, 0xBA] ++ [0xC0]) = .reject .notInSpec := by
  refine ⟨by decide, fun n h => ?_, rfl, by decide⟩
  have : n < 2 := h
  interval_cases n <;> rfl

/-- BOUND EAX,[EBX] with bounds 0 and 9 (B2 to B5). -/
def boundState (index : Dword) : State :=
  flat32 [0x62, 0x03] { zeroRegs with eax := index, ebx := 0x2000 } 0x2000 [0, 0, 0, 0, 9, 0, 0, 0]

/-- The memory hypotheses of `BoundPassesExactlyWithinItsBounds` and `BoundOutsideBoundsRaisesInterrupt5`, at each index used below. -/
theorem witness_bound_block :
    ∀ index ∈ ([0, 9, 10, 0xFFFFFFFF] : List Dword),
      memCheck (boundState index) (operandSeg [] (.base32 .ebx .none)) (effAddr (.base32 .ebx .none) (boundState index).regs)
          (2 * Size.w32.bytes) .read = .ok (span 0x2000 8) ∧
        memRead (boundState index) (operandSeg [] (.base32 .ebx .none)) (effAddr (.base32 .ebx .none) (boundState index).regs)
          Size.w32.bytes = .ok 0 ∧
        memRead (boundState index) (operandSeg [] (.base32 .ebx .none))
          (effAddr (.base32 .ebx .none) (boundState index).regs + Size.w32.bytes) Size.w32.bytes = .ok 9 := by
  intro index h
  simp only [List.mem_cons, List.not_mem_nil, or_false] at h
  rcases h with rfl | rfl | rfl | rfl <;> exact ⟨by decide, by decide, by decide⟩

/-- `BoundPassesExactlyWithinItsBounds`: the index at the lower and at the upper bound (B2, B3), one that completes. -/
theorem witness_bound_within :
    (sint .w32 0 ≤ sint .w32 (readReg .w32 .eax (boundState 0)).toNat ∧
        sint .w32 (readReg .w32 .eax (boundState 0)).toNat ≤ sint .w32 9) ∧
      (sint .w32 0 ≤ sint .w32 (readReg .w32 .eax (boundState 9)).toNat ∧
        sint .w32 (readReg .w32 .eax (boundState 9)).toNat ≤ sint .w32 9) ∧
      EipFits (boundState 0) (boundInstr .w32 [] .eax (.mem (.base32 .ebx .none))).length := by
  decide

/-- `BoundOutsideBoundsRaisesInterrupt5`: one below and one above (B5, B4); the second clause: such an exception. -/
theorem witness_bound_outside :
    sint .w32 (readReg .w32 .eax (boundState 0xFFFFFFFF)).toNat < sint .w32 0 ∧
      sint .w32 9 < sint .w32 (readReg .w32 .eax (boundState 10)).toNat ∧
      ∃ t, exec (.bound32 [] .eax (.mem (.base32 .ebx .none))) (boundState 10) = .fault (.interrupt5 t) :=
  ⟨by decide, by decide, _, rfl⟩

/-- `BoundWithRegisterRaisesUd`: 62 C0 (the first such byte), 62 C3 and bytes outside the 22 forms (B12, X22). -/
theorem witness_ud :
    (0xC0 : Byte) ≤ 0xC0 ∧ (0xC0 : Byte) ≤ 0xFF ∧
      fetchByte (flat32 [0x62, 0xC0] zeroRegs 0 []) 0 = .ok 0x62 ∧ fetchByte (flat32 [0x62, 0xC0] zeroRegs 0 []) 1 = .ok 0xC0 ∧
      (∃ t, exec (.bound32 [] .eax (.reg .ebx)) (boundState 5) = .fault (.ud t)) ∧
      (∃ t, step (flat32 [0x62, 0xC3] zeroRegs 0 []) = .fault (.ud t)) ∧
      fetchInstr (flat32 [0x90] zeroRegs 0 []) = .error (.refuse .notInSpec) :=
  ⟨by decide, by decide, rfl, rfl, ⟨_, rfl⟩, ⟨_, rfl⟩, rfl⟩

/-- `BoundBlockIsCheckedFirst`: X18. -/
theorem witness_bound_block_stops :
    let s := lim32 [0x62, 0x03] { zeroRegs with eax := 100, ebx := 0x8FFC } 0x8FFC [0xC8, 0, 0, 0]
    memCheck s (operandSeg [] (.base32 .ebx .none)) (effAddr (.base32 .ebx .none) s.regs) (2 * Size.w32.bytes) .read =
      .error (.raise .gp0) :=
  rfl

/-- `BoundChangesOnlyEip`: a BOUND that completes. -/
theorem witness_bound_next : ∃ t, exec (boundInstr .w32 [] .eax (.mem (.base32 .ebx .none))) (boundState 5) = .next t :=
  ⟨_, rfl⟩

/-- `BsfLoadsTheLowestSetBit`: EAX = 58H, lowest bit 3. -/
theorem witness_bsf :
    readRM .w32 [] (.reg .eax) bsfState = .ok (0x58 : Dword) ∧ (0x58 : Dword).getLsbD 3 = true ∧
      (∀ j < 3, (0x58 : Dword).getLsbD j = false) ∧ EipFits bsfState (bsfInstr .w32 [] .ecx (.reg .eax)).length :=
  ⟨rfl, by decide, by decide, by decide⟩

/-- `BsrLoadsTheHighestSetBit`: EAX = 58H, highest bit 6. -/
theorem witness_bsr :
    readRM .w32 [] (.reg .eax) bsfState = .ok (0x58 : Dword) ∧ (0x58 : Dword).getLsbD 6 = true ∧
      (∀ j, 6 < j → (0x58 : Dword).getLsbD j = false) ∧ EipFits bsfState (bsrInstr .w32 [] .ecx (.reg .eax)).length := by
  refine ⟨rfl, by decide, fun j hj => ?_, by decide⟩
  by_cases h : j < 32
  · interval_cases j <;> rfl
  · exact BitVec.getLsbD_of_ge _ _ (by omega)

/-- `ScanOfZeroDrawsTheDestination`: EBX = 0. -/
theorem witness_scan_of_zero :
    readRM .w32 [] (.reg .ebx) bsfState = .ok 0 ∧ EipFits bsfState (bsrInstr .w32 [] .ecx (.reg .ebx)).length :=
  ⟨rfl, by decide⟩

/-- `ZeroFlagTellsAZeroSource`, `ScanFrame`: a scan that completes, of a source that is not 0 and of one that is. -/
theorem witness_scan_next :
    readRM .w32 [] (.reg .eax) bsfState = .ok (0x58 : Dword) ∧
      (∃ t, exec (bsfInstr .w32 [] .ecx (.reg .eax)) bsfState = .next t ∧ t.flags.ZF = false) ∧
      readRM .w32 [] (.reg .ebx) bsfState = .ok 0 ∧
      ∃ t, exec (bsrInstr .w32 [] .ecx (.reg .ebx)) bsfState = .next t ∧ t.flags.ZF = true :=
  ⟨rfl, ⟨_, rfl, rfl⟩, rfl, _, rfl, rfl⟩

/-- `ExceptionsOfTheScans`: X3, past the end of the space, and a fault. -/
theorem witness_scan_stops :
    let s := real16 0x1000 [0x0F, 0xBC, 0x07] { zeroRegs with ebx := 0xFFFF } 0 []
    memCheck s (operandSeg [] (.base16 .bx .none)) (effAddr (.base16 .bx .none) s.regs) Size.w16.bytes .read =
        .error (.raise .interrupt13) ∧
      s.params.mode ≠ .protectedMode ∧ effAddr (.base16 .bx .none) s.regs + Size.w16.bytes - 1 > 0xFFFF ∧
      ∃ f, exec (bsfInstr .w16 [] .eax (.mem (.base16 .bx .none))) s = .fault f :=
  ⟨rfl, by decide, by decide, _, rfl⟩

/-- `ScanIndexLaws`: BSF and BSR of 58H both complete, with 3 and 6. -/
theorem witness_scan_index :
    readRM .w32 [] (.reg .eax) bsfState = .ok (0x58 : Dword) ∧ (0x58 : Dword) ≠ 0 ∧
      ∃ t t', exec (bsfInstr .w32 [] .ecx (.reg .eax)) bsfState = .next t ∧
        exec (bsrInstr .w32 [] .edx (.reg .eax)) bsfState = .next t' ∧
        3 = (readReg .w32 .ecx t).toNat ∧ 6 = (readReg .w32 .edx t').toNat :=
  ⟨rfl, by decide, _, _, rfl, rfl, rfl, rfl⟩

/-- `SegmentOfAMemoryOperand`: an override, and none. -/
theorem witness_segment :
    prefixesOk [.opSize, .seg .gs] = true ∧ Prefix.seg .gs ∈ [Prefix.opSize, .seg .gs] ∧ prefixesOk [.opSize] = true ∧
      ∀ g : Seg, Prefix.seg g ∉ [Prefix.opSize] := by
  refine ⟨by decide, by decide, by decide, fun g => by simp⟩

/-- `BitOfRegisterByRegisterOffset`, `BitOfRegisterByImmediateOffset`: offset 32 of EAX is bit 0 (T3), and 31 is bit 31. -/
theorem witness_bit_of_register :
    let s := flat32 [0x0F, 0xA3, 0xC8] { zeroRegs with eax := 1, ecx := 0x20 } 0 []
    0 = (readReg .w32 .ecx s).toNat % Size.w32.bits ∧ true = (s.regs.get .eax).getLsbD 0 ∧
      EipFits s (BitInstr.bt.withReg .w32 [] (.reg .eax) .ecx).length ∧
      31 = (0xFF : Byte).toNat % Size.w32.bits ∧ false = (s.regs.get .eax).getLsbD 31 ∧
      EipFits s (BitInstr.btc.withImm .w32 [] (.reg .eax) 0xFF).length := by
  decide

/-- BTS DWORD PTR [EBX],EAX with EBX = 4004H, memory at 4000H to 4007H writable. -/
def btsState (offset : Dword) : State :=
  flat32 [0x0F, 0xAB, 0x03] { zeroRegs with eax := offset, ebx := 0x4004 } 0x4000 [0, 0, 0, 0, 0, 0, 0, 0x80]

/-- `BitOfMemoryByRegisterOffset`: offset -1, the last bit of the four bytes below (T33); offset 31, the last bit at the address. -/
theorem witness_bit_of_memory_register :
    (-1 : Int) = sint .w32 (readReg .w32 .eax (btsState 0xFFFFFFFF)).toNat ∧
      ((0x4000 : Nat) : Int) = effAddr (.base32 .ebx .none) (btsState 0xFFFFFFFF).regs + Size.w32.bytes * ((-1 : Int) / (Size.w32.bits : Int)) ∧
      0x4000 + Size.w32.bytes ≤ 2 ^ (memOpSize (.base32 .ebx .none)).bits ∧ ((31 : Nat) : Int) = (-1 : Int) % (Size.w32.bits : Int) ∧
      memCheck (btsState 0xFFFFFFFF) (operandSeg [] (.base32 .ebx .none)) 0x4000 Size.w32.bytes
        (if BitInstr.bts.writes then .rmw else .read) = .ok (span 0x4000 4) ∧ (span 0x4000 4).Nodup ∧
      false = (leValue (loadBytes (btsState 0xFFFFFFFF) (span 0x4000 4))).testBit 31 ∧
      EipFits (btsState 0xFFFFFFFF) (BitInstr.bts.withReg .w32 [] (.mem (.base32 .ebx .none)) .eax).length ∧
      (31 : Int) = sint .w32 (readReg .w32 .eax (btsState 31)).toNat ∧
      ((0x4004 : Nat) : Int) = effAddr (.base32 .ebx .none) (btsState 31).regs + Size.w32.bytes * ((31 : Int) / (Size.w32.bits : Int)) ∧
      memCheck (btsState 31) (operandSeg [] (.base32 .ebx .none)) 0x4004 Size.w32.bytes
        (if BitInstr.bt.writes then .rmw else .read) = .ok (span 0x4004 4) ∧
      true = (leValue (loadBytes (btsState 31) (span 0x4004 4))).testBit 31 :=
  ⟨by decide, by decide, by decide, by decide, rfl, by decide, by decide, by decide, by decide, by decide, rfl, by decide⟩

/-- `BitOfMemoryByImmediateOffset`: immediate 63 is bit 31 at the effective address. -/
theorem witness_bit_of_memory_immediate :
    31 = (63 : Byte).toNat % Size.w32.bits ∧
      effAddr (.base32 .ebx .none) (btsState 0).regs + Size.w32.bytes ≤ 2 ^ (memOpSize (.base32 .ebx .none)).bits ∧
      memCheck (btsState 0) (operandSeg [] (.base32 .ebx .none)) (effAddr (.base32 .ebx .none) (btsState 0).regs) Size.w32.bytes
        (if BitInstr.btr.writes then .rmw else .read) = .ok (span 0x4004 4) ∧ (span 0x4004 4).Nodup ∧
      true = (leValue (loadBytes (btsState 0) (span 0x4004 4))).testBit 31 ∧
      EipFits (btsState 0) (BitInstr.btr.withImm .w32 [] (.mem (.base32 .ebx .none)) 63).length :=
  ⟨by decide, by decide, rfl, by decide, by decide, by decide⟩

/-- X15. -/
def belowState : State := flat32 [0x0F, 0xA3, 0x03] { zeroRegs with eax := 0xFFFFFFFF, ebx := 2 } 0 []

/-- X4. -/
def aboveState : State := real16 0x1000 [0x0F, 0xAB, 0x07] { zeroRegs with eax := 0x10, ebx := 0xFFFE } 0 []

/-- `BitAddressOverflowIsRefused`: the sum 2 - 4 (X15) and the sum 10000H at A = 16 (X4); the clause of the immediate at any EIP in
reach. -/
theorem witness_bit_address_overflow :
    (effAddr (.base32 .ebx .none) belowState.regs : Int) +
        Size.w32.bytes * (sint .w32 (readReg .w32 .eax belowState).toNat / (Size.w32.bits : Int)) < 0 ∧
      (effAddr (.base16 .bx .none) aboveState.regs : Int) +
          Size.w16.bytes * (sint .w16 (readReg .w16 .eax aboveState).toNat / (Size.w16.bits : Int)) >
        2 ^ (memOpSize (.base16 .bx .none)).bits - 1 ∧
      EipFits (btsState 0) (BitInstr.bt.withImm .w32 [] (.mem (.base32 .ebx .none)) 0).length := by
  decide

/-- `BitAddressOverflowIsRefused`, `ExceptionsOfTheBitInstructions`, the bytes past 2^A - 1: a sum within, 0FFFDH to 0FFFFH, with its last
byte at 10000H, in Protected Mode at A = 16, in and outside SS, and in Real Address Mode; one byte lower all are within. -/
theorem witness_bit_past_the_space :
    let s := flat32 [] { zeroRegs with ecx := 31 } 0 []
    let r := real16 0x1000 [] zeroRegs 0 []
    let m := MemOp.abs16 0xFFFD
    let step : Int := Size.w32.bytes * (sint .w32 (readReg .w32 .ecx s).toNat / (Size.w32.bits : Int))
    step = 0 ∧ 0 ≤ effAddr m s.regs + step ∧ effAddr m s.regs + step ≤ 2 ^ (memOpSize m).bits - 1 ∧
      effAddr m s.regs + step + Size.w32.bytes - 1 > 2 ^ (memOpSize m).bits - 1 ∧
      bitAddrIn .w32 m (.reg .ecx) s = some 0xFFFD ∧ 0xFFFD + Size.w32.bytes > 2 ^ (memOpSize m).bits ∧
      ¬ effAddr (.abs16 0xFFFC) s.regs + Size.w32.bytes > 2 ^ (memOpSize m).bits ∧
      s.params.mode = .protectedMode ∧ operandSeg [] m = .ds ∧ operandSeg [.seg .ss] m = .ss ∧
      r.params.mode ≠ .protectedMode ∧ bitAddrIn .w16 (.abs16 0xFFFF) (.imm 0) r = some 0xFFFF ∧
      0xFFFF + Size.w16.bytes > 2 ^ (memOpSize (.abs16 0xFFFF)).bits := by
  decide

/-- `ExceptionsOfTheBitInstructions`: X10, a nonwritable segment, and an address past the end of the space of Real Address Mode. -/
theorem witness_bit_stops :
    let s := ro32 [0x0F, 0xB3, 0x03] { zeroRegs with eax := 3, ebx := 0x4000 } 0x4000 [0, 0, 0, 0]
    let r := real16 0x1000 [0x0F, 0xA3, 0x07] { zeroRegs with ebx := 0xFFFF } 0 []
    bitAddrIn .w32 (.base32 .ebx .none) (.reg .eax) s = some 0x4000 ∧
      memCheck s (operandSeg [] (.base32 .ebx .none)) 0x4000 Size.w32.bytes (if BitInstr.btr.writes then .rmw else .read) =
        .error (.raise .gp0) ∧
      s.params.mode = .protectedMode ∧ BitInstr.btr.writes = true ∧
      (s.segs.get (operandSeg [] (.base32 .ebx .none))).writable = false ∧
      (∃ f, exec (BitInstr.btr.withOffset .w32 [] (.mem (.base32 .ebx .none)) (.reg .eax)) s = .fault f) ∧
      0x4000 + Size.w32.bytes ≤ 2 ^ (memOpSize (.base32 .ebx .none)).bits ∧
      bitAddrIn .w16 (.base16 .bx .none) (.reg .eax) r = some 0xFFFF ∧ r.params.mode ≠ .protectedMode ∧
      0xFFFF + Size.w16.bytes - 1 > 0xFFFF :=
  ⟨by decide, rfl, rfl, rfl, rfl, ⟨_, rfl⟩, by decide, by decide, by decide, by decide⟩

/-- `BitOfRegisterFrame`, `BtcTwiceRestoresTheDestination`: BTC twice, by an immediate and by another register's offset. -/
theorem witness_bit_of_register_next :
    (∃ t u, exec (BitInstr.btc.withOffset .w32 [] (.reg .eax) (.imm 31)) (btsState 0) = .next t ∧
        exec (BitInstr.btc.withOffset .w32 [] (.reg .eax) (.imm 31)) t = .next u) ∧
      BitOffset.reg .ebx ≠ .reg .eax ∧
      ∃ t u, exec (BitInstr.btc.withOffset .w32 [] (.reg .eax) (.reg .ebx)) (btsState 0) = .next t ∧
        exec (BitInstr.btc.withOffset .w32 [] (.reg .eax) (.reg .ebx)) t = .next u :=
  ⟨⟨_, _, rfl, rfl⟩, by decide, _, _, rfl, rfl⟩

/-- `BtcTwiceRestoresTheDestination`, memory: BTC twice on bit -1 of the bytes; the bytes are distinct by `witness_bytes_distinct`. -/
theorem witness_btc_of_memory_next :
    ∃ t u, exec (BitInstr.btc.withOffset .w32 [] (.mem (.base32 .ebx .none)) (.reg .eax)) (btsState 0xFFFFFFFF) = .next t ∧
      exec (BitInstr.btc.withOffset .w32 [] (.mem (.base32 .ebx .none)) (.reg .eax)) t = .next u :=
  ⟨_, _, rfl, rfl⟩

/-- `ScanFrame`, `BitOfRegisterFrame`, `BitOfMemoryFrame`: each completes under `FLAGS_UNLISTED = draw`. -/
theorem witness_flags_drawn :
    let s : State := { btsState 0 with params := { (btsState 0).params with flagsUnlisted := .draw } }
    s.params.flagsUnlisted = .draw ∧ (∃ t, exec (bsfInstr .w32 [] .ecx (.reg .eax)) s = .next t ∧ t.draws = 6) ∧
      (∃ t, exec (BitInstr.bts.withOffset .w32 [] (.reg .eax) (.imm 0)) s = .next t ∧ t.draws = 5) ∧
      ∃ t, exec (BitInstr.bts.withOffset .w32 [] (.mem (.base32 .ebx .none)) (.imm 0)) s = .next t ∧ t.draws = 5 :=
  ⟨rfl, ⟨_, rfl, rfl⟩, ⟨_, rfl, rfl⟩, _, rfl, rfl⟩

/-- `BitOfMemoryFrame`, `BtAfterBtsOrBtrSeesTheBit`: BTS then BT; the address and the translation they name. -/
theorem witness_bit_of_memory_next :
    bitAddrIn .w32 (.base32 .ebx .none) (.reg .eax) (btsState 0xFFFFFFFF) = some 0x4000 ∧
      translate (btsState 0xFFFFFFFF) (operandSeg [] (.base32 .ebx .none)) 0x4000 Size.w32.bytes .rmw = .ok (span 0x4000 4) ∧
      ∃ t u, exec (BitInstr.bts.withOffset .w32 [] (.mem (.base32 .ebx .none)) (.reg .eax)) (btsState 0xFFFFFFFF) = .next t ∧
        exec (BitInstr.bt.withOffset .w32 [] (.mem (.base32 .ebx .none)) (.reg .eax)) t = .next u :=
  ⟨by decide, rfl, _, _, rfl, rfl⟩

/-- `BtAfterBtsOrBtrSeesTheBit`, `BtcTwiceRestoresTheDestination`: under flat translation the bytes are distinct, whatever the address. -/
theorem witness_bytes_distinct :
    ∀ a ps, translate (btsState 0xFFFFFFFF) (operandSeg [] (.base32 .ebx .none)) a Size.w32.bytes .rmw = .ok ps → ps.Nodup := by
  intro a ps h
  unfold Machine.translate at h
  split at h
  · cases h
  · have e : (List.range Size.w32.bytes).map (fun j => byteAddr (btsState 0xFFFFFFFF) (operandSeg [] (.base32 .ebx .none)) .rmw (a + j)) =
        [0 + (a + 0), 0 + (a + 1), 0 + (a + 2), 0 + (a + 3)] := rfl
    rw [e] at h
    split at h <;> cases h
    simp

/-- `SplitBitOffsetNamesTheSameBit`: the smallest and the largest k at W = 32. -/
theorem witness_split : (3 : Nat) ≤ 3 ∧ 2 ^ 3 ≤ Size.w32.bits ∧ (3 : Nat) ≤ 5 ∧ 2 ^ 5 ≤ Size.w32.bits := by decide

/-- `V86_16` with a page whose reads fault. -/
def v86State : State :=
  { real16 0x1000 [0x62, 0x07] zeroRegs 0 [] with
    params.mode := .virtual8086, params.pageFaults := [⟨.ds, .read, 0xF000, 0xFFFF, 0, 0, 4⟩] }

/-- `RealAddressOperandFaults`, `Virtual8086OperandFaults`: two bytes at 0FFFFH, and at 0FFFEH. -/
theorem witness_sixteen_bit_modes :
    (real16 0x1000 [0x62, 0x07] zeroRegs 0 []).params.mode = .realAddress ∧
      translate (real16 0x1000 [0x62, 0x07] zeroRegs 0 []) .ds 0xFFFF 2 .read = .error .interrupt13 ∧
      translate (real16 0x1000 [0x62, 0x07] zeroRegs 0 []) .ds 0xFFFE 2 .read = .ok [0xFFFE, 0xFFFF] ∧
      v86State.params.mode = .virtual8086 ∧ translate v86State .ds 0xFFFF 2 .read = .error .interrupt13 ∧
      translate v86State .ds 0xFFFE 2 .read = .error (.pf 4) := by
  decide

/-- `RealAddressOperandFaults`, `Virtual8086OperandFaults`, their clauses by instruction, at both sides of the end of the
space: the address of each operand. -/
theorem witness_real_address_operands :
    effAddr (.abs16 0xFFFD) zeroRegs + 2 * Size.w16.bytes - 1 > 0xFFFF ∧
      ¬ effAddr (.abs16 0xFFFC) zeroRegs + 2 * Size.w16.bytes - 1 > 0xFFFF ∧
      effAddr (.abs16 0xFFFF) zeroRegs + Size.w16.bytes - 1 > 0xFFFF ∧
      ¬ effAddr (.abs16 0xFFFE) zeroRegs + Size.w16.bytes - 1 > 0xFFFF ∧
      bitAddrIn .w16 (.abs16 0xFFFD) (.reg .ecx) (real16 0x1000 [] { zeroRegs with ecx := 16 } 0 []) = some 0xFFFF ∧
      bitAddrIn .w16 (.abs16 0xFFFE) (.imm 15) (real16 0x1000 [] zeroRegs 0 []) = some 0xFFFE ∧
      bitAddrIn .w16 (.abs16 0xFFFE) (.imm 15) v86State = some 0xFFFE := by
  decide

/-- `ProtectedModeOperandFaults`: a write to SS where it is not writable, and a byte past the top of the offsets. -/
theorem witness_protected_mode :
    let s := ro32 [0x0F, 0xB3, 0x03] zeroRegs 0 []
    s.params.mode = .protectedMode ∧ translate s .ss 0x4000 4 .rmw = .error .gp0 ∧ (s.segs.get .ss).writable = false ∧
      AccessKind.rmw.stores = true ∧ translate s .ss 0xFFFFFFFF 2 .read = .error .ss0 ∧ 0xFFFFFFFF + 2 - 1 > 0xFFFFFFFF :=
  ⟨rfl, rfl, rfl, rfl, rfl, by decide⟩

/-- `ProtectedModeOperandFaults`, its clauses about legal addresses: at both sides of the end of a window, with and without a write to a
nonwritable segment. -/
theorem witness_legal_addresses :
    let s := lim32 [0x62, 0x03] zeroRegs 0 []
    let r := ro32 [0x0F, 0xB3, 0x03] zeroRegs 0 []
    s.params.mode = .protectedMode ∧ (s.segs.get .ds).legal 0x8FFE 2 .read = true ∧ (s.segs.get .ds).legal 0x8FFF 2 .read = false ∧
      (s.segs.get .ds).writable = true ∧ translate s .ss 0x8FFF 2 .read = .error .ss0 ∧
      (r.segs.get .ss).legal 0xFFFFFFFE 2 .rmw = true ∧ (r.segs.get .ss).writable = false ∧
      translate { r with segs.ss.rightsFirst := [⟨.rmw, 0, 0xFFFFFFFF, 1, 8⟩] } .ss 0xFFFFFFFF 2 .rmw = .error .gp0 :=
  ⟨rfl, rfl, rfl, rfl, rfl, rfl, rfl, rfl⟩

/-- `Translate` may hold a byte at different addresses for fetching, reading and writing (20_memory.md R64); a read-modify-write then
faults, in Real Address Mode reads and writes agree. -/
theorem test_addresses_by_kind :
    let p : List PageRun := [⟨.ds, .fetch, 0, 16, 0x100⟩, ⟨.ds, .read, 0, 16, 0x200⟩, ⟨.ds, .write, 0, 16, 0x300⟩]
    let s : State := { flat32 [] zeroRegs 0 [] with params.pages := p, params.splitFault := 9 }
    let r : State := { real16 0 [] zeroRegs 0 [] with params.pages := p }
    translate s .ds 15 2 .fetch = .ok [0x10F, 16] ∧ translate s .ds 1 2 .read = .ok [0x201, 0x202] ∧
      translate s .ds 1 1 .write = .ok [0x301] ∧ translate s .ds 15 2 .rmw = .error (.pf 9) ∧ translate s .es 1 1 .rmw = .ok [1] ∧
      translate r .ds 1 1 .write = .ok [0x201] ∧ translate r .ds 1 1 .rmw = .ok [0x201] :=
  ⟨rfl, rfl, rfl, rfl, rfl, rfl, rfl⟩

/-- `translate_expresses_every_contract`: a function that meets the contract, with fetches and data at different addresses. -/
theorem witness_contract :
    TranslateContract .realAddress (fun _ => true) fun _ off k kind =>
      if off + k - 1 > 0xFFFF then .error .interrupt13
      else .ok ((List.range k).map fun j => if kind = .fetch then off + j + 0x100000 else off + j) where
  length := by intro _ off k _ ps h; split at h <;> cases h; simp
  real := by intro _ off k _ e _ _; split <;> simp_all [eq_comm]
  virtualEnd := by intro _ _ _ _ h; cases h
  virtualIn := by intro _ _ _ _ _ h; cases h
  faults := by intro _ _ _ _ _ h; cases h
  nonwritable := by intro _ _ _ _ h; cases h
  top := by intro _ _ _ _ h; cases h
  part := by
    intro _ off k kind ps j n h hn hj
    split at h
    · cases h
    · cases h
      rw [if_neg (by omega)]
      refine congrArg _ (List.ext_getElem (by simp; omega) fun i h1 h2 => ?_)
      simp [Nat.add_assoc]
  rmw := by intro _ off k ps h; split at h <;> cases h; simp_all
  segmentPart := by intro _ _ _ _ _ _ h; cases h
  segmentRmw := by intro _ _ _ _ h; cases h

/-- `TranslationOfAPartOfAnAccess`, `TranslationForReadModifyWrite`, `HolesAndCodeAreRefused`, `ReadAfterWriteReturnsTheValue`:
accesses that translate, into `RAM`, into `CODE` and outside `RAM`. -/
theorem witness_access :
    translate (btsState 0) .ds 0x4000 8 .read = .ok (span 0x4000 8) ∧ 1 ≤ 1 ∧ 7 + 1 ≤ 8 ∧
      translate (btsState 0) .ds 0x4000 8 .rmw = .ok (span 0x4000 8) ∧
      memCheck (btsState 0) .ds 0x4000 4 .rmw = .ok (span 0x4000 4) ∧ (span 0x4000 4).Nodup ∧ 0xFFFFFFFF < 2 ^ (8 * 4) ∧
      (∃ t, memWrite (btsState 0) .ds 0x4000 4 0xFFFFFFFF = .ok t) ∧
      (∃ p ∈ span 0x1000 4, inRanges (btsState 0).params.code p = true) ∧
      (∀ p ∈ span 0x1000 4, inRanges (btsState 0).params.ram p = true) ∧
      translate (btsState 0) .ds 0x1000 4 .rmw = .ok (span 0x1000 4) ∧
      translate (btsState 0) .cs ((btsState 0).eip.toNat + 3) 1 .fetch = .ok [0x1003] ∧
      inRanges (btsState 0).params.code 0x1003 = false ∧
      inRanges { btsState 0 with params.ram := [⟨0, 0x4002⟩] }.params.ram 0x4003 = false :=
  ⟨rfl, by decide, by decide, rfl, rfl, by decide, by decide, ⟨_, rfl⟩, by decide, by decide, rfl, rfl, by decide, by decide⟩

/-- `SegmentFaultsBeforePageFaults`: a page fault on the second byte, and what strikes it. -/
theorem witness_page_fault :
    translate v86State .ds 0xEFFF 2 .read = .error (.pf 4) ∧
      (⟨.ds, .read, 0xF000, 0xFFFF, 0, 0, 4⟩ : PageFault) ∈ v86State.params.pageFaults ∧
      (⟨.ds, .read, 0xF000, 0xFFFF, 0, 0, 4⟩ : PageFault).strikes .ds 0xEFFF 2 .read 1 = true ∧
      v86State.params.mode ≠ .realAddress ∧ segFault v86State .ds 0xEFFF 2 .read = none := by
  decide

/-- `MemoryIsLittleEndian`: a read and a write that complete. -/
theorem witness_little_endian :
    memRead (btsState 0) .ds 0x4004 4 = .ok 0x80000000 ∧ ∃ t, memWrite (btsState 0) .ds 0x4000 4 0x12345678 = .ok t :=
  ⟨by decide, _, rfl⟩

/-- `StepKeepsMachineInv`: a state that meets the invariant and steps. -/
theorem witness_invariant : MachineInv bsfState ∧ ∃ t, step bsfState = .next t := by
  refine ⟨⟨by decide, by unfold EipInSpace; decide, fun a h => ?_⟩, _, rfl⟩
  simp only [bsfState, flat32, machine, inRanges, List.any_cons, List.any_nil, Bool.or_false, Bool.and_eq_true,
    decide_eq_true_eq, List.length_cons, List.length_nil] at h ⊢
  omega

/-- `StepNeverChangesCode`, `StepKeepsParametersAndSegments`, `StepAdvancesEipByTheLength`, `NoInstructionReadsAFlag`: a step that
completes, and an address in `CODE`. -/
theorem witness_step_next : (∃ t, step bsfState = .next t) ∧ inRanges bsfState.params.code 0x1000 = true :=
  ⟨⟨_, rfl⟩, by decide⟩

/-- `StepAdvancesEipByTheLength`, its last two clauses: BSF AX,CX in the last three bytes of the space, fine but for EIP; one byte lower
it fits. -/
theorem witness_past_the_top :
    let s := real16 0xFFFD [0x0F, 0xBC, 0xC1] { zeroRegs with ecx := 1 } 0 []
    let i := Instr.bsf16 [] .eax (.reg .ecx)
    fetchInstr s = .ok i ∧ (∃ t, exec i { s with eip := 0 } = .next t) ∧ ¬ EipFits s i.length ∧
      EipFits { s with eip := 0xFFFC } i.length :=
  ⟨rfl, ⟨_, rfl⟩, by decide, by decide⟩

/-- `TrapCarriesTheStateBefore`, `ExceptionsByMode`, `NoInstructionReadsAFlag`: a step that traps, and one that is refused. -/
theorem witness_step_trap :
    (∃ f, step (boundState 10) = .fault f) ∧ step (flat32 [0x90] zeroRegs 0 []) = .refused .notInSpec :=
  ⟨⟨_, rfl⟩, rfl⟩

/-- `SixteenBitInstructionsKeepUpperHalves`: a 16-bit instruction that completes. -/
theorem witness_sixteen_bit :
    (Instr.bsf16 [.opSize] .ecx (.reg .eax)).width = .w16 ∧
      ∃ t, exec (.bsf16 [.opSize] .ecx (.reg .eax)) bsfState = .next t :=
  ⟨rfl, _, rfl⟩

/-- `GoodRunEndsAtEndEip`: P1's first instruction, run to the address after it. -/
theorem witness_good_run : ∃ t, runTo 0x1003 1 bsfState = .good t := ⟨_, rfl⟩

/-- `ResetStateAsLogged`: a register other than EDX. -/
theorem witness_other_register : Reg.eax ≠ Reg.edx := by decide

end Sys2Proof.Tests
end

section
/-! Memory operands outside Protected Mode (spec/20_memory.md R55, R57): what each instruction raises is what `Translate` raises for its
bytes, and what `Translate` raises is decided by the last offset and, in Virtual 8086 Mode, by the page faults. -/

namespace Sys2Proof.Machine

/-! ## An instruction raises what `Translate` raises -/

/-- Interrupt 5 is left out because BOUND raises it of its own, after the check (40_bound.md R143). -/
theorem exec_boundInstr_mem_raise_iff {w : Size} {pre : List Prefix} {r : Reg} {m : MemOp} {s : State} {e : Exc}
    (he : e ≠ .interrupt5) :
    exec (boundInstr w pre r (.mem m)) s = takeException e s ↔
      translate s (operandSeg pre m) (effAddr m s.regs) (2 * w.bytes) .read = .error e := by
  rw [exec_boundInstr, ← memCheck_raise_iff]
  simp only [bound]
  cases memCheck s (operandSeg pre m) (effAddr m s.regs) (2 * w.bytes) .read with
  | error x => simp [stop_eq_takeException_iff]
  | ok ps =>
    simp only [reduceCtorEq, iff_false]
    split
    · rw [takeException_inj]
      exact he.symm
    · exact complete_ne_takeException _ _ _ _ _

theorem bitScan_mem_raise_iff {w : Size} {scan : BitVec w.bits → Nat} {len : Nat} {pre : List Prefix} {dst : Reg} {m : MemOp}
    {s : State} {e : Exc} :
    bitScan w scan len pre dst (.mem m) s = takeException e s ↔
      translate s (operandSeg pre m) (effAddr m s.regs) w.bytes .read = .error e := by
  rw [← memCheck_raise_iff, ← memRead_error_iff]
  simp only [bitScan, readRM]
  cases memRead s (operandSeg pre m) (effAddr m s.regs) w.bytes with
  | error x => simp [stop_eq_takeException_iff]
  | ok v => simp [complete_ne_takeException]

theorem exec_scan_mem_raise_iff {w : Size} {pre : List Prefix} {r : Reg} {m : MemOp} {i : Instr}
    (hi : i = bsfInstr w pre r (.mem m) ∨ i = bsrInstr w pre r (.mem m)) {s : State} {e : Exc} :
    exec i s = takeException e s ↔
      translate s (operandSeg pre m) (effAddr m s.regs) w.bytes .read = .error e := by
  rcases hi with rfl | rfl
  · rw [exec_bsfInstr, bitScan_mem_raise_iff]
  · rw [exec_bsrInstr, bitScan_mem_raise_iff]

theorem BitInstr.bitKind_update (k : BitInstr) : bitKind k.update = if k.writes then .rmw else .read := by
  cases k <;> rfl

/-- In Protected Mode the check of a bit form raises more than `Translate` does (42_bit_test.md R186). -/
theorem exec_withOffset_mem_raise_iff {k : BitInstr} {w : Size} {pre : List Prefix} {m : MemOp} {o : BitOffset} {a : Nat}
    {s : State} {e : Exc} (hm : s.params.mode ≠ .protectedMode) (ha : bitAddrIn w m o s = some a) :
    exec (k.withOffset w pre (.mem m) o) s = takeException e s ↔
      translate s (operandSeg pre m) a w.bytes (if k.writes then .rmw else .read) = .error e := by
  rw [exec_withOffset, ← k.bitKind_update, ← memCheck_raise_iff, ← bitCheck_within fun h => absurd h hm]
  simp only [bitOp, ha]
  cases bitCheck w k.update pre m a s with
  | error x => simp [stop_eq_takeException_iff]
  | ok ps => simp [complete_ne_takeException]

/-! ## What `Translate` raises outside Protected Mode -/

theorem translate_interrupt13_iff {s : State} (hm : s.params.mode ≠ .protectedMode) {seg : Seg} {off k : Nat}
    {kind : AccessKind} : translate s seg off k kind = .error .interrupt13 ↔ off + k - 1 > 0xFFFF := by
  rw [translate_eq, segFault_low hm]
  by_cases h : off + k - 1 > 0xFFFF
  · simp [h]
  · cases pageFault s seg off k kind <;> simp [h]

theorem translate_error_real {s : State} (hm : s.params.mode = .realAddress) {seg : Seg} {off k : Nat} {kind : AccessKind}
    {e : Exc} (h : translate s seg off k kind = .error e) : e = .interrupt13 := by
  rcases translate_error h with ⟨he, -⟩ | ⟨-, hp⟩ | ⟨c, -, hr⟩
  · exact he
  · simp [hm] at hp
  · exact absurd hm hr

theorem translate_error_real_iff {s : State} (hm : s.params.mode = .realAddress) {seg : Seg} {off k : Nat} {kind : AccessKind}
    {e : Exc} : translate s seg off k kind = .error e ↔ off + k - 1 > 0xFFFF ∧ e = .interrupt13 := by
  rw [← translate_interrupt13_iff (s := s) (seg := seg) (kind := kind) (by simp [hm])]
  constructor
  · intro h
    obtain rfl := translate_error_real hm h
    exact ⟨h, rfl⟩
  · rintro ⟨h, rfl⟩
    exact h

theorem translate_error_v86 {s : State} (hm : s.params.mode = .virtual8086) {seg : Seg} {off k : Nat} {kind : AccessKind}
    {e : Exc} (h : translate s seg off k kind = .error e) : e = .interrupt13 ∨ ∃ c, e = .pf c := by
  rcases translate_error h with ⟨he, -⟩ | ⟨-, hp⟩ | ⟨c, he, -⟩
  · exact .inl he
  · simp [hm] at hp
  · exact .inr ⟨c, he⟩

/-! ## Interrupt 13, by instruction -/

section
variable {s : State} (hm : s.params.mode ≠ .protectedMode)
include hm

theorem exec_boundInstr_interrupt13_iff {w : Size} {pre : List Prefix} {r : Reg} {m : MemOp} :
    exec (boundInstr w pre r (.mem m)) s = takeException .interrupt13 s ↔ effAddr m s.regs + 2 * w.bytes - 1 > 0xFFFF :=
  (exec_boundInstr_mem_raise_iff (by decide)).trans (translate_interrupt13_iff hm)

theorem exec_scan_interrupt13_iff {w : Size} {pre : List Prefix} {r : Reg} {m : MemOp} {i : Instr}
    (hi : i = bsfInstr w pre r (.mem m) ∨ i = bsrInstr w pre r (.mem m)) :
    exec i s = takeException .interrupt13 s ↔ effAddr m s.regs + w.bytes - 1 > 0xFFFF :=
  (exec_scan_mem_raise_iff hi).trans (translate_interrupt13_iff hm)

theorem exec_withOffset_interrupt13_iff {k : BitInstr} {w : Size} {pre : List Prefix} {m : MemOp} {o : BitOffset} {a : Nat}
    (ha : bitAddrIn w m o s = some a) :
    exec (k.withOffset w pre (.mem m) o) s = takeException .interrupt13 s ↔ a + w.bytes - 1 > 0xFFFF :=
  (exec_withOffset_mem_raise_iff hm ha).trans (translate_interrupt13_iff hm)

end

/-! ## The two modes -/

/-- Settles O39: this mode has no page fault (R64 point 1), so Interrupt 13 is all that `Translate` can raise. -/
theorem realAddressOperandFaults : Obligations.RealAddressOperandFaults := by
  intro s hm
  have hp : s.params.mode ≠ .protectedMode := by simp [hm]
  refine ⟨fun seg off k kind e _ => translate_error_real_iff hm, rfl, fun w pre r m => ⟨?_, ?_, ?_⟩,
    fun k w pre m o a ha => exec_withOffset_interrupt13_iff hp ha⟩
  · exact exec_boundInstr_interrupt13_iff hp
  · exact exec_scan_interrupt13_iff hp (.inl rfl)
  · exact exec_scan_interrupt13_iff hp (.inr rfl)

/-- Settles O40: a page fault of an instruction is the one `Translate` reports, since no instruction raises one of its own. -/
theorem virtual8086OperandFaults : Obligations.Virtual8086OperandFaults := by
  intro s hm
  have hp : s.params.mode ≠ .protectedMode := by simp [hm]
  refine ⟨fun seg off k kind _ => ⟨translate_interrupt13_iff hp, fun e => translate_error_v86 hm⟩,
    fun w pre r m => ⟨?_, fun c => ?_, fun i hi => ⟨?_, fun c => ?_⟩⟩, fun k w pre m o a ha => ⟨?_, fun c => ?_⟩⟩
  · exact exec_boundInstr_interrupt13_iff hp
  · exact exec_boundInstr_mem_raise_iff (by simp)
  · exact exec_scan_interrupt13_iff hp hi
  · exact exec_scan_mem_raise_iff hi
  · exact exec_withOffset_interrupt13_iff hp ha
  · exact exec_withOffset_mem_raise_iff hp ha

end Sys2Proof.Machine
end

section
/-! BOUND within its bounds (spec/40_bound.md R141, R142): the bounds the instruction compares are the values of the two reads of its
block, and their signed comparison alone decides between completing and Interrupt 5. -/

namespace Sys2Proof.Machine

/-! ## The parts of a checked access, and the value it reads -/

/-- A checked access and a checked part of it place the bytes they share alike (20_memory.md R64 point 5). -/
theorem memCheck_part_eq {s : State} {seg : Seg} {off k j n : Nat} {kind : AccessKind} {ps qs : List Nat}
    (h : memCheck s seg off k kind = .ok ps) (hpart : memCheck s seg (off + j) n kind = .ok qs) (hn : j + n ≤ k) :
    qs = (ps.drop j).take n := by
  obtain ⟨ht, -⟩ := (memCheck_ok_iff ..).mp h
  obtain ⟨htp, -⟩ := (memCheck_ok_iff ..).mp hpart
  obtain ⟨-, -, rfl⟩ := (translate_ok_iff ..).mp ht
  obtain ⟨-, -, rfl⟩ := (translate_ok_iff ..).mp htp
  refine List.ext_getElem (by simp; omega) fun i _ _ => ?_
  simp [Nat.add_assoc]

/-- A read of a part of a checked block gives the value of that part's bytes. -/
theorem memRead_part_eq {s : State} {seg : Seg} {off k j n v : Nat} {ps : List Nat}
    (h : memCheck s seg off k .read = .ok ps) (hr : memRead s seg (off + j) n = .ok v) (hn : j + n ≤ k) :
    v = leValue (loadBytes s ((ps.drop j).take n)) := by
  obtain ⟨qs, hq, rfl⟩ := (memRead_ok_iff ..).mp hr
  rw [memCheck_part_eq h hq hn]

theorem memRead_lt {s : State} {seg : Seg} {off k v : Nat} (h : memRead s seg off k = .ok v) : v < 256 ^ k := by
  obtain ⟨ps, hp, rfl⟩ := (memRead_ok_iff ..).mp h
  simpa [memCheck_length hp] using leValue_lt (loadBytes s ps)

theorem two_pow_bits_eq (w : Size) : 2 ^ w.bits = 256 ^ w.bytes := by
  cases w <;> rfl

/-- The operand that a read of its width gives, as a signed integer (00_scope.md R10). -/
theorem toInt_ofNat_memRead {w : Size} {s : State} {seg : Seg} {off v : Nat} (h : memRead s seg off w.bytes = .ok v) :
    (BitVec.ofNat w.bits v).toInt = sint w v := by
  have hv : v < 2 ^ w.bits := two_pow_bits_eq w ▸ memRead_lt h
  rw [← sint_eq_toInt, BitVec.toNat_ofNat, Nat.mod_eq_of_lt hv]

/-! ## BOUND -/

/-- BOUND over a checked block: it completes where the index lies within both bounds (R142), and raises Interrupt 5 elsewhere (R143). -/
theorem exec_boundInstr_of_block {w : Size} {pre : List Prefix} {reg : Reg} {m : MemOp} {s : State} {ps : List Nat} {lo up : Nat}
    (hc : memCheck s (operandSeg pre m) (effAddr m s.regs) (2 * w.bytes) .read = .ok ps)
    (hlo : memRead s (operandSeg pre m) (effAddr m s.regs) w.bytes = .ok lo)
    (hup : memRead s (operandSeg pre m) (effAddr m s.regs + w.bytes) w.bytes = .ok up) :
    exec (boundInstr w pre reg (.mem m)) s =
      if sint w lo ≤ sint w (readReg w reg s).toNat ∧ sint w (readReg w reg s).toNat ≤ sint w up then
        complete (boundInstr w pre reg (.mem m)).length s s
      else takeException .interrupt5 s := by
  have hlower : lo = leValue (loadBytes s (ps.take w.bytes)) := memRead_part_eq (j := 0) hc hlo (by omega)
  have hupper : up = leValue (loadBytes s (ps.drop w.bytes)) := by
    rw [memRead_part_eq hc hup (by omega), List.take_of_length_le]
    simp only [List.length_drop, memCheck_length hc]
    omega
  rw [exec_boundInstr, sint_eq_toInt, ← toInt_ofNat_memRead hlo, ← toInt_ofNat_memRead hup, hlower, hupper, ← ite_not]
  simp only [bound, hc, not_and_or, not_le, gt_iff_lt]

/-- Settles O16: a state in which the index is outside the bounds has no next state, since Interrupt 5 is raised there. -/
theorem boundPassesExactlyWithinItsBounds : Obligations.BoundPassesExactlyWithinItsBounds := by
  intro w pre reg m s ps lo up hc hlo hup hfits
  rw [exec_boundInstr_of_block hc hlo hup]
  refine ⟨fun hin => ?_, fun t ht => ?_⟩
  · rw [if_pos hin, complete_of_fits hfits, State.setEip]
  · by_contra hout
    rw [if_neg hout] at ht
    exact takeException_ne_next _ _ _ ht

end Sys2Proof.Machine
end

section
/-! What stops BSF and BSR (spec/41_bit_scan.md R155): the read of a memory source and nothing else. -/

namespace Sys2Proof.Machine

/-- BSF and BSR differ only in the direction of the scan (41_bit_scan.md R150). -/
theorem exec_scan_eq_bitScan {w : Size} {pre : List Prefix} {dst : Reg} {rm : RM} {i : Instr}
    (hi : i = bsfInstr w pre dst rm ∨ i = bsrInstr w pre dst rm) (s : State) :
    ∃ scan, exec i s = bitScan w scan i.length pre dst rm s := by
  rcases hi with rfl | rfl
  · exact ⟨_, exec_bsfInstr ..⟩
  · exact ⟨_, exec_bsrInstr ..⟩

theorem readRM_mem_of_memCheck_error {w : Size} {pre : List Prefix} {m : MemOp} {s : State} {e : Stop}
    (h : memCheck s (operandSeg pre m) (effAddr m s.regs) w.bytes .read = .error e) : readRM w pre (.mem m) s = .error e := by
  simp [readRM, (memRead_error_iff ..).mpr h]

theorem bitScan_of_readRM_error {w : Size} {scan : BitVec w.bits → Nat} {len : Nat} {pre : List Prefix} {dst : Reg} {rm : RM}
    {s : State} {e : Stop} (h : readRM w pre rm s = .error e) : bitScan w scan len pre dst rm s = stop e s := by
  simp [bitScan, h]

/-- A trap of a scan comes from the read of its source: once the source is read, the scan completes or is refused. -/
theorem readRM_of_bitScan_eq_fault {w : Size} {scan : BitVec w.bits → Nat} {len : Nat} {pre : List Prefix} {dst : Reg} {rm : RM}
    {s : State} {f : Fault} (h : bitScan w scan len pre dst rm s = .fault f) :
    ∃ e, readRM w pre rm s = .error (.raise e) ∧ takeException e s = .fault f := by
  cases hr : readRM w pre rm s with
  | error x =>
    rw [bitScan_of_readRM_error hr] at h
    obtain ⟨e, rfl, he⟩ := stop_eq_fault h
    exact ⟨e, rfl, he⟩
  | ok src =>
    simp only [bitScan, hr] at h
    exact absurd h (complete_ne_fault _ _ _ _)

/-- Every trap of BSF and BSR is one that `Translate` reports for the read of their memory source. -/
theorem exec_scan_eq_fault {w : Size} {pre : List Prefix} {dst : Reg} {rm : RM} {i : Instr}
    (hi : i = bsfInstr w pre dst rm ∨ i = bsrInstr w pre dst rm) {s : State} {f : Fault} (h : exec i s = .fault f) :
    ∃ m e, rm = .mem m ∧ translate s (operandSeg pre m) (effAddr m s.regs) w.bytes .read = .error e ∧
      takeException e s = .fault f := by
  obtain ⟨scan, hscan⟩ := exec_scan_eq_bitScan hi s
  obtain ⟨e, hr, he⟩ := readRM_of_bitScan_eq_fault (hscan.symm.trans h)
  obtain ⟨m, rfl, hc⟩ := readRM_error hr
  exact ⟨m, e, rfl, memCheck_raise_iff.mp hc, he⟩

theorem exec_scan_of_memCheck_error {w : Size} {pre : List Prefix} {dst : Reg} {m : MemOp} {i : Instr}
    (hi : i = bsfInstr w pre dst (.mem m) ∨ i = bsrInstr w pre dst (.mem m)) {s : State} {e : Stop}
    (h : memCheck s (operandSeg pre m) (effAddr m s.regs) w.bytes .read = .error e) : exec i s = stop e s := by
  obtain ⟨scan, hscan⟩ := exec_scan_eq_bitScan hi s
  rw [hscan, bitScan_of_readRM_error (readRM_mem_of_memCheck_error h)]

/-- Settles O25: a trap is one that `Translate` reports for the read, and each of those meets the conditions of its mode. -/
theorem exceptionsOfTheScans : Obligations.ExceptionsOfTheScans := by
  intro w pre dst s
  refine ⟨fun x i f hi hf => ?_, fun m i hi => ⟨fun e => exec_scan_of_memCheck_error hi, fun f hf => ?_,
    fun hm => (exec_scan_interrupt13_iff hm hi).mpr⟩⟩
  · obtain ⟨m, -, hreg, -⟩ := exec_scan_eq_fault hi hf
    cases hreg
  · obtain ⟨m, e, ⟨⟩, ht, he⟩ := exec_scan_eq_fault hi hf
    exact ⟨by rw [takeException_eq_fault he, trapRecord], e, hf.trans he.symm, ht, operandFault_of_translate ht⟩

end Sys2Proof.Machine
end

section
/-! Interrupt 5 and UD (spec/60_exceptions.md R201, R202): BOUND raises each of its own, one with a memory operand and the other with a
register operand, and every other trap is a fault of an operand or of the fetch, which is neither. -/

namespace Sys2Proof.Machine

/-! ## Which exception a trap is -/

theorem takeException_eq_interrupt5 {e : Exc} {s : State} {t : TrapRecord} (h : takeException e s = .fault (.interrupt5 t)) :
    e = .interrupt5 := by
  cases e <;> cases h
  rfl

theorem takeException_eq_ud {e : Exc} {s : State} {t : TrapRecord} (h : takeException e s = .fault (.ud t)) : e = .ud := by
  cases e <;> cases h
  rfl

/-- Every trap of an instruction is UD of a BOUND with a register, Interrupt 5 of a BOUND with memory, or a fault of a memory operand. -/
theorem exec_eq_fault {i : Instr} {s : State} {f : Fault} (h : exec i s = .fault f) :
    ∃ e, takeException e s = .fault f ∧
      ((e = .ud ∧ ∃ w pre reg x, i = boundInstr w pre reg (.reg x)) ∨
        (e = .interrupt5 ∧ ∃ w pre reg m, i = boundInstr w pre reg (.mem m)) ∨
        ∃ seg off k kind, OperandFault s seg off k kind e) := by
  rcases instr_shape i with ⟨w, pre, reg, rm, rfl⟩ | ⟨w, pre, dst, rm, rfl⟩ | ⟨w, pre, dst, rm, rfl⟩ | ⟨k, w, pre, rm, o, rfl⟩
  · cases rm with
    | reg x =>
      rw [exec_boundInstr] at h
      exact ⟨.ud, h, .inl ⟨rfl, w, pre, reg, x, rfl⟩⟩
    | mem m =>
      obtain ⟨e, he, hcause⟩ := bound_eq_fault ((exec_boundInstr ..).symm.trans h)
      by_cases h5 : e = .interrupt5
      · exact ⟨e, he, .inr (.inl ⟨h5, w, pre, reg, m, rfl⟩)⟩
      · have ht := (exec_boundInstr_mem_raise_iff h5).mp (h.trans he.symm)
        exact ⟨e, he, .inr (.inr ⟨_, _, _, _, operandFault_of_translate ht⟩)⟩
  · obtain ⟨e, he, hop⟩ := bitScan_eq_fault ((exec_bsfInstr ..).symm.trans h)
    exact ⟨e, he, .inr (.inr hop)⟩
  · obtain ⟨e, he, hop⟩ := bitScan_eq_fault ((exec_bsrInstr ..).symm.trans h)
    exact ⟨e, he, .inr (.inr hop)⟩
  · obtain ⟨e, he, hop⟩ := bitOp_eq_fault ((exec_withOffset ..).symm.trans h)
    exact ⟨e, he, .inr (.inr hop)⟩

/-! ## Interrupt 5 -/

theorem boundInstr_mem_of_interrupt5 {i : Instr} {s : State} {t : TrapRecord} (h : exec i s = .fault (.interrupt5 t)) :
    ∃ w pre reg m, i = boundInstr w pre reg (.mem m) := by
  obtain ⟨e, he, hcause⟩ := exec_eq_fault h
  obtain rfl := takeException_eq_interrupt5 he
  rcases hcause with ⟨hud, -⟩ | ⟨-, hbound⟩ | ⟨_, _, _, _, hop⟩
  · cases hud
  · exact hbound
  · exact hop.elim

/-- Settles O17: outside its bounds BOUND takes the branch of `exec_boundInstr_of_block` that raises, and no operand fault is
Interrupt 5. -/
theorem boundOutsideBoundsRaisesInterrupt5 : Obligations.BoundOutsideBoundsRaisesInterrupt5 := by
  refine ⟨fun w pre reg m s ps lo up hc hlo hup hout => ?_, fun i s t => boundInstr_mem_of_interrupt5⟩
  rw [exec_boundInstr_of_block hc hlo hup, if_neg (by omega)]
  rfl

/-! ## UD: the instruction, its bytes, the step -/

theorem exec_boundInstr_reg (w : Size) (pre : List Prefix) (reg x : Reg) (s : State) :
    exec (boundInstr w pre reg (.reg x)) s = takeException .ud s :=
  exec_boundInstr ..

theorem boundRow_eq_boundInstr (w : Size) (pre : List Prefix) (reg : Reg) (rm : RM) :
    boundRow w pre reg rm = boundInstr w pre reg rm := by
  cases w <;> rfl

/-- The ModRM bytes `C0` to `FF` have `mod` = 3 (30_encoding.md R95). -/
theorem hiField_of_ge {m : Byte} (h : 0xC0 ≤ m) : hiField m = 3 := by
  have hm := m.isLt
  have hge : 192 ≤ m.toNat := h
  apply BitVec.eq_of_toNat_eq
  rw [hiField, BitVec.extractLsb'_toNat, Nat.shiftRight_eq_div_pow]
  change m.toNat / 2 ^ 6 % 2 ^ 2 = 3
  omega

/-- A ModRM byte with `mod` = 3 is the encoding of the registers in its two fields (30_encoding.md R95). -/
theorem encodeRM_reg_fields {m : Byte} (h : hiField m = 3) :
    encodeRM (Reg.ofBits (midField m)).toBits (.reg (Reg.ofBits (lowField m))) = [m] := by
  rw [encodeRM, Reg.toBits_ofBits, Reg.toBits_ofBits, ← h, fieldByte_fields]

theorem decode_boundInstr_reg (d : Defaults) {m : Byte} (h : hiField m = 3) (bs : List Byte) :
    decode d (0x62 :: m :: bs) =
      .done (boundInstr d.opSize [] (Reg.ofBits (midField m)) (.reg (Reg.ofBits (lowField m)))) bs := by
  rw [decode, decodeFrom_opcode d [] 0x62 _ (by decide) (by decide), ← boundRow_eq_boundInstr]
  have hop := decodeOpcode_bound (opSizeOf d.opSize []) (addrSizeOf d.addrSize []) [] (Reg.ofBits (midField m))
    (.reg (Reg.ofBits (lowField m))) bs rfl
  rw [encodeRM_reg_fields h] at hop
  exact hop

theorem fetchInstr_boundInstr_reg {s : State} {m : Byte} (h : hiField m = 3) (h0 : fetchByte s 0 = .ok 0x62)
    (h1 : fetchByte s 1 = .ok m) :
    fetchInstr s =
      .ok (boundInstr s.params.defaults.opSize [] (Reg.ofBits (midField m)) (.reg (Reg.ofBits (lowField m)))) :=
  calc fetchInstr s = fetchFrom s 11 [0x62] := fetchFrom_more rfl h0
    _ = fetchFrom s 10 [0x62, m] := fetchFrom_more rfl h1
    _ = _ := fetchFrom_done (decode_boundInstr_reg s.params.defaults h [])

theorem step_of_fetchInstr {s : State} {i : Instr} (h : fetchInstr s = .ok i) : step s = exec i s := by
  simp only [step, h]

theorem step_of_fetchInstr_error {s : State} {e : Stop} (h : fetchInstr s = .error e) : step s = stop e s := by
  simp only [step, h]

/-! ## UD: nothing else raises it -/

theorem boundInstr_reg_of_ud {i : Instr} {s : State} {t : TrapRecord} (h : exec i s = .fault (.ud t)) :
    ∃ w pre reg x, i = boundInstr w pre reg (.reg x) := by
  obtain ⟨e, he, hcause⟩ := exec_eq_fault h
  obtain rfl := takeException_eq_ud he
  rcases hcause with ⟨-, hbound⟩ | ⟨h5, -⟩ | ⟨_, _, _, _, hop⟩
  · exact hbound
  · cases h5
  · exact hop.elim

/-- The fetch raises what `Translate` reports, which is never UD. -/
theorem fetchInstr_boundInstr_reg_of_ud {s : State} {t : TrapRecord} (h : step s = .fault (.ud t)) :
    ∃ w pre reg x, fetchInstr s = .ok (boundInstr w pre reg (.reg x)) := by
  rcases step_eq_fault h with ⟨e, hfetch, he⟩ | ⟨i, hfetch, hi⟩
  · obtain rfl := takeException_eq_ud he
    obtain ⟨_, ht⟩ := fetchFrom_raise hfetch
    exact (operandFault_of_translate ht).elim
  · obtain ⟨w, pre, reg, x, rfl⟩ := boundInstr_reg_of_ud hi
    exact ⟨w, pre, reg, x, hfetch⟩

/-- Settles O18: `mod` = 3 in `62 /r` is the register form, whose meaning is UD, and no fault of an operand or of the fetch is UD. -/
theorem boundWithRegisterRaisesUd : Obligations.BoundWithRegisterRaisesUd := by
  refine ⟨exec_boundInstr_reg,
    fun d m bs hm => ⟨_, _, decode_boundInstr_reg d (hiField_of_ge hm) bs⟩, fun s m hm h0 h1 => ?_,
    fun i s t => boundInstr_reg_of_ud, fun s t => fetchInstr_boundInstr_reg_of_ud, fun s => step_of_fetchInstr_error⟩
  rw [step_of_fetchInstr (fetchInstr_boundInstr_reg (hiField_of_ge hm) h0 h1), exec_boundInstr_reg]
  rfl

end Sys2Proof.Machine
end

section
/-! The opcode table's rows, and decoding what the encoder writes (spec/30_encoding.md R90 to R106). -/

namespace Sys2Proof

/-! ## The three kinds of row (R94) -/

/-- An instruction of width `w` with prefixes `p` and operand `m`, written as the prefixes and then `bs`. -/
structure IsRow (i : Instr) (w : Size) (p : List Prefix) (m : RM) (bs : List Byte) : Prop where
  width : i.width = w
  prefixes : i.prefixes = p
  rm : i.rm = m
  encode : encode i = p.map Prefix.byte ++ bs

theorem boundRow_isRow (w : Size) (p : List Prefix) (r : Reg) (m : RM) :
    IsRow (boundRow w p r m) w p m (0x62 :: encodeRM r.toBits m) := by
  cases w <;> constructor <;>
    simp [boundRow, Instr.width, Instr.prefixes, Instr.rm, encode, Instr.opcode, Instr.regField, Instr.immBytes]

theorem regRow_isRow {w : Size} {c : Byte} {mk : List Prefix → Reg → RM → Instr} (h : regRow w c = some mk) (p : List Prefix)
    (r : Reg) (m : RM) : IsRow (mk p r m) w p m (0x0F :: c :: encodeRM r.toBits m) := by
  unfold regRow at h
  split_ifs at h <;> subst c <;> cases h <;> cases w <;> constructor <;>
    simp [Instr.width, Instr.prefixes, Instr.rm, encode, Instr.opcode, Instr.regField, Instr.immBytes]

theorem groupRow_isRow {w : Size} {g : BitVec 3} {mk : List Prefix → RM → Byte → Instr} (h : groupRow w g = some mk)
    (p : List Prefix) (m : RM) (b : Byte) : IsRow (mk p m b) w p m (0x0F :: 0xBA :: (encodeRM g m ++ [b])) := by
  unfold groupRow at h
  split_ifs at h <;> subst g <;> cases h <;> cases w <;> constructor <;>
    simp [Instr.width, Instr.prefixes, Instr.rm, encode, Instr.opcode, Instr.regField, Instr.immBytes]

/-- Every instruction stands in one of the three kinds of row. -/
theorem instr_row (i : Instr) :
    (∃ w p r m, i = boundRow w p r m) ∨ (∃ w c mk p r m, regRow w c = some mk ∧ i = mk p r m) ∨
      ∃ w g mk p m b, groupRow w g = some mk ∧ i = mk p m b := by
  cases i with
  | bound16 p r m => exact .inl ⟨.w16, p, r, m, rfl⟩
  | bound32 p r m => exact .inl ⟨.w32, p, r, m, rfl⟩
  | bsf16 p r m => exact .inr (.inl ⟨.w16, 0xBC, _, p, r, m, rfl, rfl⟩)
  | bsf32 p r m => exact .inr (.inl ⟨.w32, 0xBC, _, p, r, m, rfl, rfl⟩)
  | bsr16 p r m => exact .inr (.inl ⟨.w16, 0xBD, _, p, r, m, rfl, rfl⟩)
  | bsr32 p r m => exact .inr (.inl ⟨.w32, 0xBD, _, p, r, m, rfl, rfl⟩)
  | btReg16 p m r => exact .inr (.inl ⟨.w16, 0xA3, _, p, r, m, rfl, rfl⟩)
  | btReg32 p m r => exact .inr (.inl ⟨.w32, 0xA3, _, p, r, m, rfl, rfl⟩)
  | btsReg16 p m r => exact .inr (.inl ⟨.w16, 0xAB, _, p, r, m, rfl, rfl⟩)
  | btsReg32 p m r => exact .inr (.inl ⟨.w32, 0xAB, _, p, r, m, rfl, rfl⟩)
  | btrReg16 p m r => exact .inr (.inl ⟨.w16, 0xB3, _, p, r, m, rfl, rfl⟩)
  | btrReg32 p m r => exact .inr (.inl ⟨.w32, 0xB3, _, p, r, m, rfl, rfl⟩)
  | btcReg16 p m r => exact .inr (.inl ⟨.w16, 0xBB, _, p, r, m, rfl, rfl⟩)
  | btcReg32 p m r => exact .inr (.inl ⟨.w32, 0xBB, _, p, r, m, rfl, rfl⟩)
  | btImm16 p m b => exact .inr (.inr ⟨.w16, 4, _, p, m, b, rfl, rfl⟩)
  | btImm32 p m b => exact .inr (.inr ⟨.w32, 4, _, p, m, b, rfl, rfl⟩)
  | btsImm16 p m b => exact .inr (.inr ⟨.w16, 5, _, p, m, b, rfl, rfl⟩)
  | btsImm32 p m b => exact .inr (.inr ⟨.w32, 5, _, p, m, b, rfl, rfl⟩)
  | btrImm16 p m b => exact .inr (.inr ⟨.w16, 6, _, p, m, b, rfl, rfl⟩)
  | btrImm32 p m b => exact .inr (.inr ⟨.w32, 6, _, p, m, b, rfl, rfl⟩)
  | btcImm16 p m b => exact .inr (.inr ⟨.w16, 7, _, p, m, b, rfl, rfl⟩)
  | btcImm32 p m b => exact .inr (.inr ⟨.w32, 7, _, p, m, b, rfl, rfl⟩)

theorem wellFormed_iff (d : Defaults) (i : Instr) :
    wellFormed d i = true ↔
      prefixesOk i.prefixes = true ∧ opSizeOf d.opSize i.prefixes = i.width ∧
        rmOk (addrSizeOf d.addrSize i.prefixes) i.rm = true := by
  simp [wellFormed, and_assoc]

/-! ## Decoding an encoding -/

/-- Settles O1: after its prefixes, each of the three kinds of row is read back by `decodeOpcode`. -/
theorem decodeOfEncodeIsTheInstruction : Obligations.DecodeOfEncodeIsTheInstruction := by
  intro d i rest hwf
  obtain ⟨hpre, hw, hrm⟩ := (wellFormed_iff d i).mp hwf
  have read : ∀ (b : Byte) (bs : List Byte), encode i = i.prefixes.map Prefix.byte ++ b :: bs →
      Prefix.ofByte b = none → ¬ (b = 0xF0 ∨ b = 0xF2 ∨ b = 0xF3) →
      decode d (encode i ++ rest) = decodeOpcode i.width (addrSizeOf d.addrSize i.prefixes) i.prefixes b (bs ++ rest) := by
    intro b bs he hb hb'
    rw [he, List.append_assoc, decode_prefixes d _ _ hpre, List.cons_append, decodeFrom_opcode d _ b _ hb hb', hw]
  rcases instr_row i with ⟨w, p, r, m, hi⟩ | ⟨w, c, mk, p, r, m, hc, hi⟩ | ⟨w, g, mk, p, m, imm, hg, hi⟩
  · obtain ⟨rfl, rfl, rfl, he⟩ := hi ▸ boundRow_isRow w p r m
    rw [read _ _ he rfl (by decide), decodeOpcode_bound _ _ _ r i.rm rest hrm, ← hi]
  · obtain ⟨rfl, rfl, rfl, he⟩ := hi ▸ regRow_isRow hc p r m
    rw [read _ _ he rfl (by decide), List.cons_append, decodeOpcode_regRow hc r rest hrm, ← hi]
  · obtain ⟨rfl, rfl, rfl, he⟩ := hi ▸ groupRow_isRow hg p m imm
    rw [read _ _ he rfl (by decide), List.cons_append, List.append_assoc, List.singleton_append,
      decodeOpcode_groupRow hg imm rest hrm, ← hi]

end Sys2Proof
end

section
/-! The length of an instruction (spec/30_encoding.md R103). -/

namespace Sys2Proof

/-! ## Prefixes of one class (R91) -/

/-- The three classes of admitted prefixes, numbered (R91). -/
def Prefix.classNumber : Prefix → Fin 3
  | .opSize => 0
  | .addrSize => 1
  | .seg _ => 2

theorem Prefix.sameClass_eq (p q : Prefix) : p.sameClass q = (p.classNumber == q.classNumber) := by
  cases p <;> cases q <;> rfl

theorem prefixesOk_cons {p : Prefix} {ps : List Prefix} :
    prefixesOk (p :: ps) = true ↔ (∀ q ∈ ps, p.sameClass q = false) ∧ prefixesOk ps = true := by
  simp [prefixesOk]

theorem prefixesOk_iff_nodup {ps : List Prefix} : prefixesOk ps = true ↔ (ps.map Prefix.classNumber).Nodup := by
  induction ps with
  | nil => simp [prefixesOk]
  | cons p ps ih => simp [prefixesOk_cons, ih, Prefix.sameClass_eq, eq_comm (a := p.classNumber)]

theorem prefixesOk_length_le {ps : List Prefix} (h : prefixesOk ps = true) : ps.length ≤ 3 := by
  simpa using (prefixesOk_iff_nodup.mp h).length_le_card

/-! ## The bytes of an instruction -/

theorem length_encode (i : Instr) : (encode i).length = i.length := by
  open Laws.EncodeLength in
  cases i
  exacts [bound16 .., bound32 .., bsf16 .., bsf32 .., bsr16 .., bsr32 .., btReg16 .., btReg32 .., btImm16 .., btImm32 ..,
    btcReg16 .., btcReg32 .., btcImm16 .., btcImm32 .., btrReg16 .., btrReg32 .., btrImm16 .., btrImm32 ..,
    btsReg16 .., btsReg32 .., btsImm16 .., btsImm32 ..]

theorem RM.length_bounds (m : RM) : 1 ≤ m.length ∧ m.length ≤ 6 := by
  have h16 (d : Disp16) : d.length ≤ 2 := by cases d <;> simp [Disp16.length]
  have h32 (d : Disp32) : d.length ≤ 4 := by cases d <;> simp [Disp32.length]
  rcases m with x | ⟨b, d⟩ | d | ⟨b, d⟩ | d | ⟨s, x, b, d⟩ | ⟨s, x, d⟩ <;> simp only [RM.length]
  case mem.base16 => have := h16 d; omega
  case mem.base32 | mem.sib => have := h32 d; omega
  all_goals omega

/-- Besides its prefixes an instruction has one to three bytes of opcode and immediate, and its operand. -/
theorem Instr.length_bounds (i : Instr) :
    i.prefixes.length + i.rm.length + 1 ≤ i.length ∧ i.length ≤ i.prefixes.length + i.rm.length + 3 := by
  rw [← length_encode]
  rcases instr_row i with ⟨w, p, r, m, hi⟩ | ⟨w, c, mk, p, r, m, hc, hi⟩ | ⟨w, g, mk, p, m, imm, hg, hi⟩
  · obtain ⟨-, rfl, rfl, he⟩ := hi ▸ boundRow_isRow w p r m
    simp only [he, List.length_append, List.length_map, List.length_cons, encodeRM_length]
    omega
  · obtain ⟨-, rfl, rfl, he⟩ := hi ▸ regRow_isRow hc p r m
    simp only [he, List.length_append, List.length_map, List.length_cons, encodeRM_length]
    omega
  · obtain ⟨-, rfl, rfl, he⟩ := hi ▸ groupRow_isRow hg p m imm
    simp only [he, List.length_append, List.length_map, List.length_cons, List.length_nil, encodeRM_length]
    omega

/-- Settles O4: three prefixes, three bytes of opcode and immediate and six of the operand are the most there can be. -/
theorem admittedInstructionHasTwoToTwelveBytes : Obligations.AdmittedInstructionHasTwoToTwelveBytes := by
  intro d i hwf
  have hpre := prefixesOk_length_le ((wellFormed_iff d i).mp hwf).1
  have hrm := i.rm.length_bounds
  have hlen := i.length_bounds
  omega

end Sys2Proof
end

section
/-! What the decoder reads (spec/30_encoding.md R106, 20_memory.md R69): on any bytes each of its parts reads the whole encoding of
one of its terms, or asks for more at a proper beginning of one, or rejects whatever follows. -/

namespace Sys2Proof

/-! ## Reading a term, or asking for more -/

/-- `r` is what a part of the decoder answers on `bs` when it goes on with `k`: it has read the encoding of a term of its kind, or
`bs` is a proper beginning of one and it asks for more. -/
def Reads {α : Type} (ok : α → Prop) (enc : α → List Byte) (bs : List Byte) (k : α → List Byte → Decoded)
    (r : Decoded) : Prop :=
  (∃ x rest, ok x ∧ bs = enc x ++ rest ∧ r = k x rest) ∨
    r = .more ∧ ∃ x needed, ok x ∧ needed ≠ [] ∧ enc x = bs ++ needed

section
variable {α β : Type} {ok : α → Prop} {enc : α → List Byte} {bs : List Byte} {r : Decoded}

/-- A part that makes a term of another and the bytes before it. -/
theorem Reads.map {ok' : β → Prop} {enc' : β → List Byte} {k : β → List Byte → Decoded} {bs' : List Byte} (g : α → β)
    (before : List Byte) (h : Reads ok enc bs (fun x => k (g x)) r) (hbs : bs' = before ++ bs)
    (hg : ∀ x, ok x → ok' (g x) ∧ enc' (g x) = before ++ enc x) : Reads ok' enc' bs' k r := by
  subst hbs
  rcases h with ⟨x, rest, hx, rfl, rfl⟩ | ⟨rfl, x, needed, hx, hn, he⟩
  · exact .inl ⟨g x, rest, (hg x hx).1, by rw [(hg x hx).2, List.append_assoc], rfl⟩
  · exact .inr ⟨rfl, g x, needed, (hg x hx).1, hn, by rw [(hg x hx).2, he, List.append_assoc]⟩

theorem Reads.exists_ok {k : α → List Byte → Decoded} (h : Reads ok enc bs k r) : ∃ x, ok x := by
  rcases h with ⟨x, _, hx, -⟩ | ⟨-, x, _, hx, -⟩ <;> exact ⟨x, hx⟩

/-- A part followed by another. -/
theorem Reads.andThen {ok' : β → Prop} {enc' : β → List Byte} {k : α → List Byte → Decoded}
    {k' : α × β → List Byte → Decoded} (h : Reads ok enc bs k r) (hother : ∃ y, ok' y)
    (h' : ∀ x rest, Reads ok' enc' rest (fun y => k' (x, y)) (k x rest)) :
    Reads (fun x : α × β => ok x.1 ∧ ok' x.2) (fun x => enc x.1 ++ enc' x.2) bs k' r := by
  rcases h with ⟨x, rest, hx, rfl, rfl⟩ | ⟨rfl, x, needed, hx, hn, he⟩
  · rcases h' x rest with ⟨y, rest', hy, rfl, hr⟩ | ⟨hr, y, needed, hy, hn, he⟩
    · exact .inl ⟨(x, y), rest', ⟨hx, hy⟩, by rw [List.append_assoc], hr⟩
    · exact .inr ⟨hr, (x, y), needed, ⟨hx, hy⟩, hn, by simp only [he, List.append_assoc]⟩
  · obtain ⟨y, hy⟩ := hother
    exact .inr ⟨rfl, (x, y), needed ++ enc' y, ⟨hx, hy⟩, by simp [hn], by simp only [he, List.append_assoc]⟩

end

/-! ## Bytes and displacements (R101) -/

theorem need8_reads (bs : List Byte) (k : Byte → List Byte → Decoded) :
    Reads (fun _ => True) (fun b => [b]) bs k (need8 bs k) := by
  match bs with
  | [] => exact .inr ⟨rfl, 0, [0], trivial, by simp, rfl⟩
  | b :: rest => exact .inl ⟨b, rest, trivial, rfl, rfl⟩

theorem need16_reads (bs : List Byte) (k : Word → List Byte → Decoded) :
    Reads (fun _ => True) wordBytes bs k (need16 bs k) := by
  match bs with
  | [] => exact .inr ⟨rfl, 0, wordBytes 0, trivial, by simp [wordBytes], rfl⟩
  | [b0] => exact .inr ⟨rfl, word2 b0 0, [0], trivial, by simp, wordBytes_word2 ..⟩
  | b0 :: b1 :: rest => exact .inl ⟨word2 b0 b1, rest, trivial, by simp [wordBytes_word2], rfl⟩

theorem need32_reads (bs : List Byte) (k : Dword → List Byte → Decoded) :
    Reads (fun _ => True) dwordBytes bs k (need32 bs k) := by
  match bs with
  | [] => exact .inr ⟨rfl, 0, dwordBytes 0, trivial, by simp [dwordBytes], rfl⟩
  | [b0] => exact .inr ⟨rfl, dword4 b0 0 0 0, [0, 0, 0], trivial, by simp, dwordBytes_dword4 ..⟩
  | [b0, b1] => exact .inr ⟨rfl, dword4 b0 b1 0 0, [0, 0], trivial, by simp, dwordBytes_dword4 ..⟩
  | [b0, b1, b2] => exact .inr ⟨rfl, dword4 b0 b1 b2 0, [0], trivial, by simp, dwordBytes_dword4 ..⟩
  | b0 :: b1 :: b2 :: b3 :: rest => exact .inl ⟨dword4 b0 b1 b2 b3, rest, trivial, by simp [dwordBytes_dword4], rfl⟩

/-- The only `mod` of a memory operand besides 0 and 1 (R97, R99). -/
theorem mod_eq_two {mod : BitVec 2} (h3 : mod ≠ 3) (h0 : mod ≠ 0) (h1 : mod ≠ 1) : mod = 2 := by
  revert mod; decide

theorem decodeDisp16_reads {mod : BitVec 2} (hmod : mod ≠ 3) (bs : List Byte) (k : Disp16 → List Byte → Decoded) :
    Reads (fun d => d.mod = mod) Disp16.bytes bs k (decodeDisp16 mod bs k) := by
  unfold decodeDisp16
  split_ifs with h0 h1
  · exact .inl ⟨.none, bs, h0.symm, rfl, rfl⟩
  · exact (need8_reads bs _).map .d8 [] rfl fun d _ => ⟨h1.symm, rfl⟩
  · exact (need16_reads bs _).map .d16 [] rfl fun d _ => ⟨(mod_eq_two hmod h0 h1).symm, rfl⟩

theorem decodeDisp32_reads {mod : BitVec 2} (hmod : mod ≠ 3) (bs : List Byte) (k : Disp32 → List Byte → Decoded) :
    Reads (fun d => d.mod = mod) Disp32.bytes bs k (decodeDisp32 mod bs k) := by
  unfold decodeDisp32
  split_ifs with h0 h1
  · exact .inl ⟨.none, bs, h0.symm, rfl, rfl⟩
  · exact (need8_reads bs _).map .d8 [] rfl fun d _ => ⟨h1.symm, rfl⟩
  · exact (need32_reads bs _).map .d32 [] rfl fun d _ => ⟨(mod_eq_two hmod h0 h1).symm, rfl⟩

/-! ## Operands (R95 to R99) -/

theorem Reg.eq_ofBits_iff {b : BitVec 3} {r : Reg} : Reg.ofBits b = r ↔ b = r.toBits :=
  ⟨fun h => by rw [← h, Reg.toBits_ofBits], fun h => by rw [h, Reg.ofBits_toBits]⟩

theorem Base16.eq_ofBits_iff {b : BitVec 3} {r : Base16} : Base16.ofBits b = r ↔ b = r.toBits :=
  ⟨fun h => by rw [← h, Base16.toBits_ofBits], fun h => by rw [h, Base16.ofBits_toBits]⟩

theorem memOpOk_base16 {a : Size} {b : Base16} {d : Disp16} :
    memOpOk a (.base16 b d) = true ↔ a = .w16 ∧ ¬ (d.mod = 0 ∧ b = .bp) := by
  cases b <;> cases d <;> simp [memOpOk, Disp16.mod]

theorem memOpOk_base32 {a : Size} {b : Reg} {d : Disp32} :
    memOpOk a (.base32 b d) = true ↔ a = .w32 ∧ b ≠ .esp ∧ ¬ (d.mod = 0 ∧ b = .ebp) := by
  cases b <;> cases d <;> simp [memOpOk, Disp32.mod]

theorem memOpOk_sib {a : Size} {sc : BitVec 2} {x b : Reg} {d : Disp32} :
    memOpOk a (.sib sc x b d) = true ↔ a = .w32 ∧ ¬ (d.mod = 0 ∧ b = .ebp) := by
  cases b <;> cases d <;> simp [memOpOk, Disp32.mod]

/-- A ModRM byte with some of its fields known. -/
theorem fieldByte_eq {m : Byte} {hi : BitVec 2} {low : BitVec 3} (hhi : hiField m = hi) (hlow : lowField m = low) :
    fieldByte hi (midField m) low = m := by
  rw [← hhi, ← hlow, fieldByte_fields]

theorem decodeMem16_reads {m : Byte} (hmod : hiField m ≠ 3) (bs : List Byte) (k : MemOp → List Byte → Decoded) :
    Reads (fun x => memOpOk .w16 x = true) (fun x => encodeRM (midField m) (.mem x)) (m :: bs) k
      (decodeMem16 (hiField m) (lowField m) bs k) := by
  unfold decodeMem16
  split_ifs with h
  · exact (need16_reads bs _).map .abs16 [m] rfl fun d _ => ⟨rfl, congrArg (· :: wordBytes d) (fieldByte_eq h.1 h.2)⟩
  · refine (decodeDisp16_reads hmod bs _).map (.base16 _) [m] rfl fun d hd => ⟨memOpOk_base16.mpr ⟨rfl, ?_⟩, ?_⟩
    · rwa [hd, Base16.eq_ofBits_iff]
    · simp [encodeRM, fieldByte_eq hd.symm]

theorem decodeSib_reads {mod : BitVec 2} (hmod : mod ≠ 3) (g : BitVec 3) (sib : Byte) (bs : List Byte)
    (k : MemOp → List Byte → Decoded) :
    Reads (fun x => memOpOk .w32 x = true) (fun x => encodeRM g (.mem x)) (fieldByte mod g 4 :: sib :: bs) k
      (decodeSib mod sib bs k) := by
  unfold decodeSib
  split_ifs with h
  · refine (need32_reads bs _).map (.sibAbs _ _) [fieldByte mod g 4, sib] rfl fun d _ => ⟨rfl, ?_⟩
    rw [encodeRM, Reg.toBits_ofBits, fieldByte_eq rfl h.2, h.1]
    rfl
  · refine (decodeDisp32_reads hmod bs _).map (.sib _ _ _) [fieldByte mod g 4, sib] rfl fun d hd =>
      ⟨memOpOk_sib.mpr ⟨rfl, ?_⟩, ?_⟩
    · rwa [hd, Reg.eq_ofBits_iff]
    · simp [encodeRM, hd]

theorem decodeMem32_reads {m : Byte} (hmod : hiField m ≠ 3) (bs : List Byte) (k : MemOp → List Byte → Decoded) :
    Reads (fun x => memOpOk .w32 x = true) (fun x => encodeRM (midField m) (.mem x)) (m :: bs) k
      (decodeMem32 (hiField m) (lowField m) bs k) := by
  unfold decodeMem32
  split_ifs with h4 h
  · have hm : fieldByte (hiField m) (midField m) 4 = m := fieldByte_eq rfl h4
    match bs with
    | [] =>
      obtain ⟨d, hd⟩ := (decodeDisp32_reads hmod [] fun _ _ => .more).exists_ok
      refine .inr ⟨rfl, .sib 0 .eax .eax d, fieldByte 0 0 0 :: d.bytes, by simp [memOpOk_sib], by simp, ?_⟩
      change fieldByte d.mod (midField m) 4 :: _ = _
      rw [hd, hm]
      rfl
    | sib :: bs => simpa only [need8, hm] using decodeSib_reads hmod (midField m) sib bs k
  · exact (need32_reads bs _).map .abs32 [m] rfl fun d _ => ⟨rfl, congrArg (· :: dwordBytes d) (fieldByte_eq h.1 h.2)⟩
  · refine (decodeDisp32_reads hmod bs _).map (.base32 _) [m] rfl fun d hd => ⟨memOpOk_base32.mpr ⟨rfl, ?_, ?_⟩, ?_⟩
    · rwa [Ne, Reg.eq_ofBits_iff]
    · rwa [hd, Reg.eq_ofBits_iff]
    · simp [encodeRM, fieldByte_eq hd.symm]

theorem decodeRM_reads (a : Size) (m : Byte) (bs : List Byte) (k : RM → List Byte → Decoded) :
    Reads (fun rm => rmOk a rm = true) (encodeRM (midField m)) (m :: bs) k (decodeRM a (hiField m) (lowField m) bs k) := by
  unfold decodeRM
  split_ifs with h
  · exact .inl ⟨.reg (Reg.ofBits (lowField m)), bs, rfl, by rw [encodeRM, Reg.toBits_ofBits, fieldByte_eq h rfl]; rfl, rfl⟩
  · cases a with
    | w16 => exact (decodeMem16_reads h bs _).map .mem [] rfl fun x hx => ⟨hx, rfl⟩
    | w32 => exact (decodeMem32_reads h bs _).map .mem [] rfl fun x hx => ⟨hx, rfl⟩

theorem afterModRM_reads (a : Size) (bs : List Byte) (f : BitVec 3 → RM → List Byte → Decoded) :
    Reads (fun x : BitVec 3 × RM => rmOk a x.2 = true) (fun x => encodeRM x.1 x.2) bs (fun x => f x.1 x.2)
      (afterModRM a bs f) := by
  match bs with
  | [] => exact .inr ⟨rfl, (0, .reg .eax), encodeRM 0 (.reg .eax), rfl, by simp [encodeRM], rfl⟩
  | m :: bs => exact (decodeRM_reads a m bs _).map (fun rm => (midField m, rm)) [] rfl fun rm h => ⟨h, rfl⟩

/-! ## Opcodes (R94), one equation per branch of `decodeOpcode` -/

section
variable {w : Size} (a : Size) (pre : List Prefix) {c m : Byte} (bs : List Byte)

theorem decodeOpcode_62 (w : Size) :
    decodeOpcode w a pre 0x62 bs = afterModRM a bs fun r rm => .done (boundRow w pre (Reg.ofBits r) rm) :=
  if_pos rfl

theorem decodeOpcode_other (w : Size) {b : Byte} (h62 : b ≠ 0x62) (h0F : b ≠ 0x0F) :
    decodeOpcode w a pre b bs = .reject .notInSpec := by
  rw [decodeOpcode, if_neg h62, if_neg h0F]

theorem decodeOpcode_0F_none (hBA : c ≠ 0xBA) (hc : regRow w c = none) :
    decodeOpcode w a pre 0x0F (c :: bs) = .reject .notInSpec := by
  rw [decodeOpcode, if_neg (by decide), if_pos rfl, need8]
  simp only [if_neg hBA, hc]

theorem decodeOpcode_0F_some {mk : List Prefix → Reg → RM → Instr} (hBA : c ≠ 0xBA) (hc : regRow w c = some mk) :
    decodeOpcode w a pre 0x0F (c :: bs) = afterModRM a bs fun r rm => .done (mk pre (Reg.ofBits r) rm) := by
  rw [decodeOpcode, if_neg (by decide), if_pos rfl, need8]
  simp only [if_neg hBA, hc]
  rfl

theorem decodeOpcode_BA_none (hg : groupRow w (midField m) = none) :
    decodeOpcode w a pre 0x0F (0xBA :: m :: bs) = .reject .notInSpec := by
  rw [decodeOpcode, if_neg (by decide), if_pos rfl, need8]
  simp only [need8, hg]
  rfl

theorem decodeOpcode_BA_some {mk : List Prefix → RM → Byte → Instr} (hg : groupRow w (midField m) = some mk) :
    decodeOpcode w a pre 0x0F (0xBA :: m :: bs) =
      decodeRM a (hiField m) (lowField m) bs fun rm bs => need8 bs fun imm => .done (mk pre rm imm) := by
  rw [decodeOpcode, if_neg (by decide), if_pos rfl, need8]
  simp only [need8, hg]
  rfl

end

/-! ## Instructions -/

/-- What can be read after the prefixes `pre` under the sizes they select. -/
def AfterPrefixes (w a : Size) (pre : List Prefix) (i : Instr) : Prop :=
  i.prefixes = pre ∧ i.width = w ∧ rmOk a i.rm = true

theorem IsRow.afterPrefixes {i : Instr} {w a : Size} {pre : List Prefix} {m : RM} {bs : List Byte} (h : IsRow i w pre m bs)
    (hm : rmOk a m = true) : AfterPrefixes w a pre i :=
  ⟨h.prefixes, h.width, h.rm ▸ hm⟩

section
variable (w a : Size) (pre : List Prefix)

theorem decodeOpcode_62_reads (bs : List Byte) :
    Reads (AfterPrefixes w a pre) encode (pre.map Prefix.byte ++ 0x62 :: bs) .done (decodeOpcode w a pre 0x62 bs) := by
  rw [decodeOpcode_62]
  refine (afterModRM_reads a bs _).map (fun x : BitVec 3 × RM => boundRow w pre (Reg.ofBits x.1) x.2)
    (pre.map Prefix.byte ++ [0x62]) (by simp) fun x hx => ?_
  have hrow := boundRow_isRow w pre (Reg.ofBits x.1) x.2
  exact ⟨hrow.afterPrefixes hx, by simpa using hrow.encode⟩

theorem decodeOpcode_0F_reads {c : Byte} {mk : List Prefix → Reg → RM → Instr} (hBA : c ≠ 0xBA) (hc : regRow w c = some mk)
    (bs : List Byte) :
    Reads (AfterPrefixes w a pre) encode (pre.map Prefix.byte ++ 0x0F :: c :: bs) .done
      (decodeOpcode w a pre 0x0F (c :: bs)) := by
  rw [decodeOpcode_0F_some a pre bs hBA hc]
  refine (afterModRM_reads a bs _).map (fun x : BitVec 3 × RM => mk pre (Reg.ofBits x.1) x.2)
    (pre.map Prefix.byte ++ [0x0F, c]) (by simp) fun x hx => ?_
  have hrow := regRow_isRow hc pre (Reg.ofBits x.1) x.2
  exact ⟨hrow.afterPrefixes hx, by simpa using hrow.encode⟩

theorem decodeOpcode_BA_reads {m : Byte} {mk : List Prefix → RM → Byte → Instr} (hg : groupRow w (midField m) = some mk)
    (bs : List Byte) :
    Reads (AfterPrefixes w a pre) encode (pre.map Prefix.byte ++ 0x0F :: 0xBA :: m :: bs) .done
      (decodeOpcode w a pre 0x0F (0xBA :: m :: bs)) := by
  rw [decodeOpcode_BA_some a pre bs hg]
  refine ((decodeRM_reads a m bs _).andThen ⟨(0 : Byte), trivial⟩ fun rm rest => need8_reads rest _).map
    (fun x : RM × Byte => mk pre x.1 x.2) (pre.map Prefix.byte ++ [0x0F, 0xBA]) (by simp) fun x hx => ?_
  have hrow := groupRow_isRow hg pre x.1 x.2
  exact ⟨hrow.afterPrefixes hx.1, by simpa using hrow.encode⟩

/-- After the prefixes bytes are rejected whatever follows, or an instruction with those prefixes is read. -/
theorem decodeOpcode_reads (b : Byte) (bs : List Byte) :
    (∃ e, ∀ tl, decodeOpcode w a pre b (bs ++ tl) = .reject e) ∨
      Reads (AfterPrefixes w a pre) encode (pre.map Prefix.byte ++ b :: bs) .done (decodeOpcode w a pre b bs) := by
  by_cases h62 : b = 0x62
  · exact .inr (h62 ▸ decodeOpcode_62_reads w a pre bs)
  by_cases h0F : b = 0x0F
  · subst h0F
    match bs with
    | [] =>
      have hrow := regRow_isRow (w := w) (c := 0xBC) rfl pre .eax (.reg .eax)
      exact .inr (.inr ⟨rfl, _, 0xBC :: encodeRM 0 (.reg .eax), hrow.afterPrefixes rfl, by simp, by
        rw [hrow.encode, List.append_assoc]
        rfl⟩)
    | c :: bs =>
      by_cases hBA : c = 0xBA
      · subst hBA
        match bs with
        | [] =>
          have hrow := groupRow_isRow (w := w) (g := 4) rfl pre (.reg .eax) 0
          exact .inr (.inr ⟨rfl, _, encodeRM 4 (.reg .eax) ++ [0], hrow.afterPrefixes rfl, by simp, by
            rw [hrow.encode, List.append_assoc]
            rfl⟩)
        | m :: bs =>
          cases hg : groupRow w (midField m) with
          | none => exact .inl ⟨.notInSpec, fun tl => decodeOpcode_BA_none a pre (bs ++ tl) hg⟩
          | some mk => exact .inr (decodeOpcode_BA_reads w a pre hg bs)
      · cases hc : regRow w c with
        | none => exact .inl ⟨.notInSpec, fun tl => decodeOpcode_0F_none a pre (bs ++ tl) hBA hc⟩
        | some mk => exact .inr (decodeOpcode_0F_reads w a pre hBA hc bs)
  · exact .inl ⟨.notInSpec, fun tl => decodeOpcode_other a pre (bs ++ tl) w h62 h0F⟩

end

/-- Admitted prefixes stay so with one more of a class not read before (R91). -/
theorem prefixesOk_concat {pre : List Prefix} {p : Prefix} :
    prefixesOk (pre ++ [p]) = true ↔ prefixesOk pre = true ∧ pre.any p.sameClass = false := by
  simp only [prefixesOk_iff_nodup, List.map_append, List.map_cons, List.map_nil, List.nodup_append, List.nodup_singleton]
  simp [Prefix.sameClass_eq, eq_comm (a := p.classNumber)]

theorem decodeFrom_prefix (d : Defaults) (pre : List Prefix) {b : Byte} {p : Prefix} (hb : Prefix.ofByte b = some p)
    (bs : List Byte) :
    decodeFrom d pre (b :: bs) =
      if pre.any p.sameClass then .reject .prefixNotAdmitted else decodeFrom d (pre ++ [p]) bs := by
  rw [decodeFrom, hb]

theorem decodeFrom_inadmissible (d : Defaults) (pre : List Prefix) {b : Byte} (hb : b = 0xF0 ∨ b = 0xF2 ∨ b = 0xF3)
    (bs : List Byte) : decodeFrom d pre (b :: bs) = .reject .prefixNotAdmitted := by
  have hno : Prefix.ofByte b = none := by rcases hb with rfl | rfl | rfl <;> rfl
  simp only [decodeFrom, hno, if_pos hb]

theorem AfterPrefixes.wellFormed {d : Defaults} {pre : List Prefix} {i : Instr}
    (h : AfterPrefixes (opSizeOf d.opSize pre) (addrSizeOf d.addrSize pre) pre i) (hpre : prefixesOk pre = true) :
    wellFormed d i = true := by
  obtain ⟨rfl, hw, hm⟩ := h
  exact (wellFormed_iff d i).mpr ⟨hpre, hw.symm, hm⟩

/-- After admitted prefixes bytes are rejected whatever follows, or a well-formed instruction is read. -/
theorem decodeFrom_reads (d : Defaults) (pre : List Prefix) (hpre : prefixesOk pre = true) (bs : List Byte) :
    (∃ e, ∀ tl, decodeFrom d pre (bs ++ tl) = .reject e) ∨
      Reads (fun i => wellFormed d i = true) encode (pre.map Prefix.byte ++ bs) .done (decodeFrom d pre bs) := by
  induction bs generalizing pre with
  | nil =>
    have hrow := boundRow_isRow (opSizeOf d.opSize pre) pre .eax (.reg .eax)
    exact .inr (.inr ⟨rfl, _, 0x62 :: encodeRM 0 (.reg .eax), (hrow.afterPrefixes rfl).wellFormed hpre, by simp, by
      rw [hrow.encode, List.append_nil]
      rfl⟩)
  | cons b bs ih =>
    cases hb : Prefix.ofByte b with
    | some p =>
      cases hdup : pre.any p.sameClass with
      | true => exact .inl ⟨.prefixNotAdmitted, fun tl => by rw [List.cons_append, decodeFrom_prefix d pre hb, if_pos hdup]⟩
      | false =>
        have hread := ih (pre ++ [p]) (prefixesOk_concat.mpr ⟨hpre, hdup⟩)
        simp only [List.cons_append, decodeFrom_prefix d pre hb, hdup, Bool.false_eq_true, if_false]
        simpa [Prefix.byte_of_ofByte hb] using hread
    | none =>
      by_cases hrep : b = 0xF0 ∨ b = 0xF2 ∨ b = 0xF3
      · exact .inl ⟨.prefixNotAdmitted, fun tl => decodeFrom_inadmissible d pre hrep (bs ++ tl)⟩
      · simp only [List.cons_append, decodeFrom_opcode d pre b _ hb hrep]
        exact (decodeOpcode_reads ..).imp id fun hread => hread.map id [] rfl fun i hi => ⟨hi.wellFormed hpre, rfl⟩

theorem decode_reads (d : Defaults) (bs : List Byte) :
    (∃ e, ∀ tl, decode d (bs ++ tl) = .reject e) ∨ Reads (fun i => wellFormed d i = true) encode bs .done (decode d bs) :=
  decodeFrom_reads d [] rfl bs

/-- Settles O2: an answer that is neither a rejection nor a request for more is an instruction the decoder has read whole. -/
theorem decodedBytesAreTheEncoding : Obligations.DecodedBytesAreTheEncoding := by
  intro d bs i rest hdone
  rcases decode_reads d bs with ⟨e, hrej⟩ | ⟨j, rest', hwf, hbs, hj⟩ | ⟨hmore, -⟩
  · have := hrej []
    simp [hdone] at this
  · obtain ⟨rfl, rfl⟩ : i = j ∧ rest = rest' := by simpa [hdone] using hj
    exact ⟨hwf, hbs⟩
  · simp [hdone] at hmore

/-- A proper beginning of an encoding is neither rejected nor a whole instruction, since with the bytes after it is another. -/
theorem decode_take_encode {d : Defaults} {i : Instr} (hwf : wellFormed d i = true) {n : Nat} (hn : n < (encode i).length) :
    decode d ((encode i).take n) = .more := by
  have whole : decode d ((encode i).take n ++ (encode i).drop n) = .done i [] := by
    simpa using decodeOfEncodeIsTheInstruction d i [] hwf
  rcases decode_reads d ((encode i).take n) with ⟨e, hrej⟩ | ⟨j, rest, hj, htake, -⟩ | ⟨hmore, -⟩
  · rw [hrej] at whole
    cases whole
  · rw [htake, List.append_assoc, decodeOfEncodeIsTheInstruction d j _ hj] at whole
    have hdrop : (encode i).drop n = [] := by simp_all
    rw [List.drop_eq_nil_iff] at hdrop
    omega
  · exact hmore

/-- Settles O3: what is still to come of an encoding is at least one byte, and no encoding is longer than 12 bytes. -/
theorem decoderAsksOnlyForTheBytesItNeeds : Obligations.DecoderAsksOnlyForTheBytesItNeeds := by
  refine ⟨fun d i n hwf hn => decode_take_encode hwf (length_encode i ▸ hn), fun d bs hmore => ?_⟩
  rcases decode_reads d bs with ⟨e, hrej⟩ | ⟨j, rest, -, -, hj⟩ | ⟨-, i, needed, hwf, hne, he⟩
  · have := hrej []
    simp [hmore] at this
  · simp [hmore] at hj
  · have hlen := congrArg List.length he
    have hpos := List.length_pos_iff.mpr hne
    have hmax := (admittedInstructionHasTwoToTwelveBytes d i hwf).2
    rw [length_encode, List.length_append] at hlen
    exact ⟨by omega, i, needed, hwf, hne, he⟩

end Sys2Proof
end

section
/-! The opcode table, the bytes that are refused, and what the bytes say of the operands (spec/30_encoding.md R91 to R100, R105,
R109). -/

namespace Sys2Proof

/-! ## The opcode table (R109) -/

theorem encodeRM_take_one (r : BitVec 3) (m : RM) : ∃ b, (encodeRM r m).take 1 = [b] ∧ midField b = r := by
  rcases m with x | ⟨b, d⟩ | d | ⟨b, d⟩ | d | ⟨s, x, b, d⟩ | ⟨s, x, d⟩ <;> exact ⟨_, rfl, midField_fieldByte ..⟩

/-- No mask of the table looks at `mod` or `r/m`. -/
theorem setWidth_and_mask {m : BitVec 24} (hm : m ∈ ([0xFF00, 0xFFFF00, 0xFFFF38] : List (BitVec 24))) (b : Byte) :
    b.setWidth 24 &&& m = (fieldByte 0 (midField b) 0).setWidth 24 &&& m := by
  simp only [List.mem_cons, List.not_mem_nil, or_false] at hm
  rcases hm with rfl | rfl | rfl <;> (revert b; decide)

theorem mask_mem_of_mem_opcodeTable :
    ∀ r ∈ opcodeTable, r.mask ∈ ([0xFF00, 0xFFFF00, 0xFFFF38] : List (BitVec 24)) := by
  decide

theorem selects_concat {r : TableRow} (hr : r ∈ opcodeTable) (w : Size) (bs : List Byte) (b : Byte) :
    r.selects w (bs ++ [b]) = r.selects w (bs ++ [fieldByte 0 (midField b) 0]) := by
  have hmask (b : Byte) : windowNumber (bs ++ [b]) &&& r.mask =
      windowNumber bs <<< (8 : Nat) &&& r.mask ||| b.setWidth 24 &&& r.mask := by
    simp only [windowNumber, List.foldl_append, List.foldl_cons, List.foldl_nil]
    exact BitVec.eq_of_getLsbD_eq fun j _ => by simp [Bool.and_or_distrib_right]
  simp only [TableRow.selects, hmask, setWidth_and_mask (mask_mem_of_mem_opcodeTable r hr) b, List.length_append,
    List.length_singleton]

/-- The row of an instruction, looked up with zero in the fields the table leaves open. -/
theorem selects_opcode_iff (i : Instr) :
    ∀ r ∈ opcodeTable, (r.selects i.width (i.opcode ++ [fieldByte 0 i.regField 0]) = true ↔ r.spelling = i.spelling) := by
  cases i <;> simp only [Instr.width, Instr.opcode, Instr.regField, Instr.spelling]
  case bound16 p x m | bound32 p x m | bsf16 p x m | bsf32 p x m | bsr16 p x m | bsr32 p x m | btReg16 p m x | btReg32 p m x |
      btcReg16 p m x | btcReg32 p m x | btrReg16 p m x | btrReg32 p m x | btsReg16 p m x | btsReg32 p m x =>
    generalize x.toBits = f
    revert f
    decide
  all_goals decide

/-- Settles O5: of the ModRM byte a row looks at the `reg` field at most, so the window can be taken with zero elsewhere. -/
theorem opcodeTableSelectsExactlyTheRow : Obligations.OpcodeTableSelectsExactlyTheRow := by
  intro i r hr
  obtain ⟨b, hb, hmid⟩ := encodeRM_take_one i.regField i.rm
  rw [Instr.windowBytes, hb, selects_concat hr, hmid, selects_opcode_iff i r hr]

/-- Settles O6. -/
theorem specEncodingVectorsDecode : Obligations.SpecEncodingVectorsDecode := by
  unfold Obligations.SpecEncodingVectorsDecode
  decide

/-! ## Refused bytes (R91, R105) -/

/-- Settles O7: `decode` is `decodeFrom` with the prefixes read, which refuses the byte after them. -/
theorem inadmissiblePrefixesAreRefused : Obligations.InadmissiblePrefixesAreRefused := by
  intro d pre bs hpre
  refine ⟨fun b hb => ?_, fun p q hq hpq => ?_⟩
  · rw [decode_prefixes d pre _ hpre, decodeFrom_inadmissible d pre hb]
  · have hdup : pre.any p.sameClass = true := List.any_eq_true.mpr ⟨q, hq, hpq⟩
    rw [decode_prefixes d pre _ hpre, decodeFrom_prefix d pre p.ofByte_byte, if_pos hdup]

theorem regRow_eq_none {w : Size} {c : Byte} (hc : c ∉ ([0xBC, 0xBD, 0xA3, 0xAB, 0xB3, 0xBB] : List Byte)) :
    regRow w c = none := by
  simp only [List.mem_cons, List.not_mem_nil, or_false, not_or] at hc
  obtain ⟨h1, h2, h3, h4, h5, h6⟩ := hc
  rw [regRow, if_neg h1, if_neg h2, if_neg h3, if_neg h4, if_neg h5, if_neg h6]

theorem groupRow_eq_none {w : Size} {g : BitVec 3} (hg : g.toNat < 4) : groupRow w g = none := by
  have hne (v : BitVec 3) (hv : 4 ≤ v.toNat) : g ≠ v := fun h => by subst h; omega
  rw [groupRow, if_neg (hne 4 (by decide)), if_neg (hne 5 (by decide)), if_neg (hne 6 (by decide)), if_neg (hne 7 (by decide))]

theorem ofByte_eq_none {b : Byte} (hb : b ∉ ([0x66, 0x67, 0x26, 0x2E, 0x36, 0x3E, 0x64, 0x65] : List Byte)) :
    Prefix.ofByte b = none := by
  simp only [List.mem_cons, List.not_mem_nil, or_false, not_or] at hb
  obtain ⟨h1, h2, h3, h4, h5, h6, h7, h8⟩ := hb
  rw [Prefix.ofByte, if_neg h1, if_neg h2, if_neg h3, if_neg h4, if_neg h5, if_neg h6, if_neg h7, if_neg h8]

/-- Settles O8: each clause is the branch of `decodeOpcode` that finds no row. -/
theorem bytesOutsideTheTwentyTwoFormsAreRefused : Obligations.BytesOutsideTheTwentyTwoFormsAreRefused := by
  intro d pre bs hpre
  have after0F (bs : List Byte) : decode d (pre.map Prefix.byte ++ 0x0F :: bs) =
      decodeOpcode (opSizeOf d.opSize pre) (addrSizeOf d.addrSize pre) pre 0x0F bs := by
    rw [decode_prefixes d pre _ hpre, decodeFrom_opcode d pre _ _ rfl (by decide)]
  refine ⟨fun b hb => ?_, fun c hc => ?_, fun m hm => ?_⟩
  · have hsub : ([0x66, 0x67, 0x26, 0x2E, 0x36, 0x3E, 0x64, 0x65] : List Byte) ⊆
        [0x62, 0x0F, 0x66, 0x67, 0x26, 0x2E, 0x36, 0x3E, 0x64, 0x65, 0xF0, 0xF2, 0xF3] := by decide
    have h62 : b ≠ 0x62 := fun h => hb (by rw [h]; decide)
    have h0F : b ≠ 0x0F := fun h => hb (by rw [h]; decide)
    have hlock : ¬ (b = 0xF0 ∨ b = 0xF2 ∨ b = 0xF3) := fun h => hb (by rcases h with rfl | rfl | rfl <;> decide)
    rw [decode_prefixes d pre _ hpre, decodeFrom_opcode d pre b bs (ofByte_eq_none fun h => hb (hsub h)) hlock,
      decodeOpcode_other _ pre bs _ h62 h0F]
  · have hsub : ([0xBC, 0xBD, 0xA3, 0xAB, 0xB3, 0xBB] : List Byte) ⊆ [0xBC, 0xBD, 0xA3, 0xAB, 0xB3, 0xBB, 0xBA] := by decide
    have hBA : c ≠ 0xBA := fun h => hc (by rw [h]; decide)
    rw [after0F, decodeOpcode_0F_none _ pre bs hBA (regRow_eq_none fun h => hc (hsub h))]
  · rw [after0F, decodeOpcode_BA_none _ pre bs (groupRow_eq_none hm)]

/-! ## Sizes (R92, R93) -/

theorem Size.bits_other (w : Size) : w.other.bits = 48 - w.bits := by
  cases w <;> rfl

theorem memOpSize_of_memOpOk {a : Size} {m : MemOp} (h : memOpOk a m = true) : Machine.memOpSize m = a := by
  cases m with
  | base16 b d => exact (memOpOk_base16.mp h).1.symm
  | base32 b d => exact (memOpOk_base32.mp h).1.symm
  | sib sc x b d => exact (memOpOk_sib.mp h).1.symm
  | abs16 d | abs32 d | sibAbs sc x d => exact (eq_of_beq h).symm

/-- Settles O9: a decoded instruction is well-formed, so its row has the size its prefixes select. -/
theorem operandSizeSelectsTheRow : Obligations.OperandSizeSelectsTheRow := by
  intro d bs i rest hdone
  obtain ⟨-, hw, -⟩ := (wellFormed_iff d i).mp (decodedBytesAreTheEncoding d bs i rest hdone).1
  rw [← hw]
  exact ⟨fun h => by simp [opSizeOf, h], fun h => by simp [opSizeOf, h, Size.bits_other]⟩

/-- Settles O10: a decoded instruction is well-formed, so its operand is of the size its prefixes select. -/
theorem addressSizeSelectsTheTable : Obligations.AddressSizeSelectsTheTable := by
  intro d bs i rest m hdone hm
  obtain ⟨-, -, hrm⟩ := (wellFormed_iff d i).mp (decodedBytesAreTheEncoding d bs i rest hdone).1
  rw [hm] at hrm
  rw [memOpSize_of_memOpOk hrm]
  exact ⟨fun h => by simp [addrSizeOf, h], fun h => by simp [addrSizeOf, h, Size.bits_other]⟩

end Sys2Proof

namespace Sys2Proof.Machine

/-! ## The effective address (R97 to R99) -/

/-- A pattern as an unsigned integer, from its reading as a signed one. -/
theorem toNat_eq_toInt_emod {n : Nat} (v : BitVec n) : (v.toNat : Int) = v.toInt % 2 ^ n := by
  have hmod := Int.bmod_emod (x := (v.toNat : Int)) (m := 2 ^ n)
  push_cast at hmod
  rw [BitVec.toInt_eq_toNat_bmod, hmod, Int.emod_eq_of_lt (by omega) (by exact_mod_cast v.isLt)]

theorem toNat_disp16 (d : Disp16) : ((Disp16.value d).toNat : Int) = Disp16.asInt d % 2 ^ 16 := by
  cases d with
  | none => rfl
  | d8 d => rw [toNat_eq_toInt_emod, Disp16.value, BitVec.toInt_signExtend_of_le (by decide)]; rfl
  | d16 d => have := d.isLt; simp only [Disp16.value, Disp16.asInt]; omega

theorem toNat_disp32 (d : Disp32) : ((Disp32.value d).toNat : Int) = Disp32.asInt d % 2 ^ 32 := by
  cases d with
  | none => rfl
  | d8 d => rw [toNat_eq_toInt_emod, Disp32.value, BitVec.toInt_signExtend_of_le (by decide)]; rfl
  | d32 d => have := d.isLt; simp only [Disp32.value, Disp32.asInt]; omega

theorem toNat_base16 (b : Base16) (g : Regs) :
    (Base16.value b g).toNat = ((Base16.regs b).map fun r => (g.get r).toNat % 2 ^ 16).sum % 2 ^ 16 := by
  cases b <;> simp [Base16.value, Base16.regs]

theorem toNat_indexPart (sc : BitVec 2) (x : Reg) (g : Regs) :
    (indexPart sc x g).toNat = (if x = .esp then 0 else (g.get x).toNat * 2 ^ sc.toNat) % 2 ^ 32 := by
  unfold indexPart
  split <;> simp [Nat.shiftLeft_eq]

/-- Settles O11: each part of the sum is read as an integer, and a sum of patterns is their integer sum modulo the size. -/
theorem effectiveAddressIsTheTablesSum : Obligations.EffectiveAddressIsTheTablesSum := by
  intro g
  refine ⟨fun b d => ?_, fun d => rfl, fun b d => ?_, fun d => rfl, fun sc x b d => ?_, fun sc x d => ?_⟩
  · have hd := toNat_disp16 d
    have hb := toNat_base16 b g
    simp only [effAddr, BitVec.toNat_add]
    omega
  · have hd := toNat_disp32 d
    simp only [effAddr, BitVec.toNat_add]
    omega
  · have hd := toNat_disp32 d
    have hx := toNat_indexPart sc x g
    simp only [effAddr, BitVec.toNat_add]
    omega
  · simp only [effAddr, BitVec.toNat_add, toNat_indexPart, Nat.add_mod_mod]

/-! ## The segment (R100) -/

theorem segOverride_eq_some {pre : List Prefix} (hpre : prefixesOk pre = true) {g : Seg} (hg : Prefix.seg g ∈ pre) :
    segOverride pre = some g := by
  induction pre with
  | nil => cases hg
  | cons p ps ih =>
    obtain ⟨hp, hps⟩ := prefixesOk_cons.mp hpre
    rcases List.mem_cons.mp hg with rfl | htail
    · rfl
    · have hclass := hp _ htail
      cases p with
      | seg q => cases hclass
      | opSize | addrSize => exact ih hps htail

theorem segOverride_eq_none {pre : List Prefix} (h : ∀ g, Prefix.seg g ∉ pre) : segOverride pre = none := by
  induction pre with
  | nil => rfl
  | cons p ps ih =>
    cases p with
    | seg q => exact absurd (List.mem_cons_self ..) (h q)
    | opSize | addrSize => exact ih fun g hg => h g (List.mem_cons_of_mem _ hg)

/-- Settles O12: the override is found wherever it stands, and the default segments are the table's, base by base. -/
theorem segmentOfAMemoryOperand : Obligations.SegmentOfAMemoryOperand := by
  intro pre m hpre
  refine ⟨fun g hg => by rw [operandSeg, segOverride_eq_some hpre hg, Option.getD_some], fun hno => ?_⟩
  rw [operandSeg, segOverride_eq_none hno, Option.getD_none]
  cases m with
  | base16 b d => cases b <;> rfl
  | base32 b d | sib sc x b d => cases b <;> rfl
  | abs16 d | abs32 d | sibAbs sc x d => rfl

end Sys2Proof.Machine
end

section
/-! From the bytes at EIP to the step (spec/20_memory.md R69, 30_encoding.md R106). -/

namespace Sys2Proof.Machine

/-- The decoder has asked for every byte of bytes after which it asks for one more. -/
theorem decode_take_of_more {d : Defaults} {got : List Byte} (h : decode d got = .more) (n : Nat) :
    decode d (got.take n) = .more := by
  obtain ⟨-, i, needed, hwf, hne, he⟩ := decoderAsksOnlyForTheBytesItNeeds.2 d got h
  have hpos := List.length_pos_iff.mpr hne
  have hlen := congrArg List.length he
  rw [List.length_append] at hlen
  have htake : got.take n = (encode i).take (min n got.length) := by
    rw [he, List.take_append_of_le_length (Nat.min_le_right ..), ← List.take_take, List.take_length]
  rw [htake]
  exact decode_take_encode hwf (by omega)

/-- The fetch reads on while the decoder asks for more. -/
theorem fetchInstr_eq_fetchFrom {s : State} {got : List Byte} (hlen : got.length ≤ 12)
    (hmore : ∀ n < got.length, decode s.params.defaults (got.take n) = .more)
    (hbytes : ∀ (n : Nat) (h : n < got.length), fetchByte s n = .ok got[n]) :
    fetchInstr s = fetchFrom s (12 - got.length) got := by
  have key : ∀ n ≤ got.length, fetchInstr s = fetchFrom s (12 - n) (got.take n) := by
    intro n hn
    induction n with
    | zero => rfl
    | succ n ih =>
      have hn' : n < got.length := hn
      have hbyte : fetchByte s (got.take n).length = .ok got[n] := by
        rw [List.length_take_of_le hn'.le]
        exact hbytes n hn'
      rw [ih (by omega), show 12 - n = 12 - (n + 1) + 1 by omega, fetchFrom_more (hmore n hn) hbyte,
        List.take_append_getElem]
  simpa using key got.length (Nat.le_refl _)

/-- The bytes after which the decoder asks for more are fetched, with one more to fetch. -/
theorem fetchInstr_of_more {s : State} {got : List Byte} (hmore : decode s.params.defaults got = .more)
    (hbytes : ∀ (n : Nat) (h : n < got.length), fetchByte s n = .ok got[n]) :
    fetchInstr s = fetchFrom s (11 - got.length + 1) got := by
  have hlen := (decoderAsksOnlyForTheBytesItNeeds.2 _ got hmore).1
  rw [fetchInstr_eq_fetchFrom (by omega) (fun n _ => decode_take_of_more hmore n) hbytes]
  congr 1
  omega

/-- Settles O13: the decoder asks for every byte of the encoding and reads the instruction from the whole. -/
theorem stepRunsTheDecodedInstruction : Obligations.StepRunsTheDecodedInstruction := by
  intro s i hwf hbytes
  have hlen := (admittedInstructionHasTwoToTwelveBytes _ i hwf).2
  have hwhole : decode s.params.defaults (encode i) = .done i [] := by
    simpa using decodeOfEncodeIsTheInstruction _ i [] hwf
  refine step_of_fetchInstr ?_
  rw [fetchInstr_eq_fetchFrom (by rwa [length_encode]) (fun n hn => decode_take_encode hwf hn) hbytes, fetchFrom_done hwhole]

/-- Settles O14. -/
theorem stepStopsWhereTheFetchStops : Obligations.StepStopsWhereTheFetchStops := by
  intro s got e hmore hbytes hstop
  refine step_of_fetchInstr_error ?_
  rw [fetchInstr_of_more hmore hbytes, fetchFrom_stop hmore hstop]

/-- Settles O15. -/
theorem stepRefusesWhatTheDecoderRejects : Obligations.StepRefusesWhatTheDecoderRejects := by
  intro s got b e hmore hbytes hb hrej
  refine step_of_fetchInstr_error (e := .refuse (refusalOf e)) ?_
  rw [fetchInstr_of_more hmore hbytes, fetchFrom_more hmore hb, fetchFrom_reject hrej]

end Sys2Proof.Machine
end

section
/-! What `Translate` answers, and the access primitives (spec/20_memory.md R52 to R56, R62 to R69; 60_exceptions.md R207). -/

namespace Sys2Proof.Machine

/-! ## Protected Mode (R54, R56) -/

theorem SegReg.writeBarred_iff {g : SegReg} {kind : AccessKind} :
    g.writeBarred kind = true ↔ kind.stores = true ∧ g.writable = false := by
  cases kind <;> simp [SegReg.writeBarred, AccessKind.stores]

section
variable {s : State} {seg : Seg} {off k : Nat} {kind : AccessKind} (hm : s.params.mode = .protectedMode)
include hm

theorem segFault_protected :
    segFault s seg off k kind =
      if (s.segs.get seg).legal off k kind = false then some (illegalFault s seg off k kind)
      else if (s.segs.get seg).writeBarred kind then some .gp0 else none := by
  simp [segFault, hm]

theorem segFault_protected_none_iff :
    segFault s seg off k kind = none ↔
      (s.segs.get seg).legal off k kind = true ∧ (kind.stores = true → (s.segs.get seg).writable = true) := by
  have hbar := SegReg.writeBarred_iff (g := s.segs.get seg) (kind := kind)
  rw [segFault_protected hm]
  split_ifs with hl hb
  · simp [hl]
  · obtain ⟨hs, hw⟩ := hbar.mp hb
    simp [hs, hw]
  · rw [hbar] at hb
    simpa [hl] using hb

theorem translate_illegal (hl : (s.segs.get seg).legal off k kind = false) :
    translate s seg off k kind = .error (illegalFault s seg off k kind) := by
  rw [translate_eq, segFault_protected hm, if_pos hl]

theorem translate_barred (hl : (s.segs.get seg).legal off k kind = true) (hs : kind.stores = true)
    (hw : (s.segs.get seg).writable = false) : translate s seg off k kind = .error .gp0 := by
  rw [translate_eq, segFault_protected hm, if_neg (by simp [hl]), if_pos (SegReg.writeBarred_iff.mpr ⟨hs, hw⟩)]

theorem translate_admitted_error (hl : (s.segs.get seg).legal off k kind = true)
    (hok : kind.stores = true → (s.segs.get seg).writable = true) {e : Exc} (h : translate s seg off k kind = .error e) :
    ∃ c, e = .pf c := by
  have hbar : ¬ (s.segs.get seg).writeBarred kind = true := by
    rw [SegReg.writeBarred_iff]
    rintro ⟨hs, hw⟩
    simp [hok hs] at hw
  rw [translate_eq, segFault_protected hm, if_neg (by simp [hl]), if_neg hbar] at h
  cases hp : pageFault s seg off k kind with
  | none => simp [hp] at h
  | some c => exact ⟨c, by simpa [hp, eq_comm] using h⟩

/-- An illegal access raises `GP(0)`, or in SS `SS(0)`. -/
theorem translate_illegal_cases (hl : (s.segs.get seg).legal off k kind = false) :
    translate s seg off k kind = .error .gp0 ∨ translate s seg off k kind = .error .ss0 ∧ seg = .ss := by
  rw [translate_illegal hm hl]
  rcases illegalFault_cases s seg off k kind with h | ⟨h, hss⟩
  · exact .inl (by rw [h])
  · exact .inr ⟨by rw [h], hss⟩

/-- An illegal access that is no write to a nonwritable segment has the fault of an illegal address. -/
theorem translate_illegal_admitted (hl : (s.segs.get seg).legal off k kind = false)
    (hok : kind.stores = true → (s.segs.get seg).writable = true) :
    translate s seg off k kind = .error (if seg = .ss then .ss0 else .gp0) := by
  rw [translate_illegal hm hl]
  rcases illegalFault_eq s seg off k kind with h | ⟨-, hs, hw, -⟩
  · rw [h]
  · simp [hok hs] at hw

end

/-- Settles O41: whether the address is legal and whether the segment bars the write decide between the four kinds of answer. -/
theorem protectedModeOperandFaults : Obligations.ProtectedModeOperandFaults := by
  intro s seg off k kind hm hk
  refine ⟨fun e he => ?_, ?_, translate_illegal_admitted hm, fun hl hok e => translate_admitted_error hm hl hok,
    translate_barred hm, fun h => ?_, fun h => ?_, fun hs hw => ?_, fun htop => translate_illegal_cases hm ?_⟩
  · rcases translate_error he with ⟨-, hp⟩ | ⟨hgs, -⟩ | ⟨c, hc, -⟩
    · exact absurd hm hp
    · exact hgs.imp id .inl
    · exact .inr (.inr ⟨c, hc⟩)
  · rw [SegReg.legal_iff]
    cases kind <;> simp [Window.admits, and_assoc]
  · by_contra hl
    rw [Bool.not_eq_false] at hl
    by_cases hok : kind.stores = true → (s.segs.get .ss).writable = true
    · obtain ⟨c, hc⟩ := translate_admitted_error hm hl hok h
      cases hc
    · simp only [Classical.not_imp, Bool.not_eq_true] at hok
      simp [translate_barred hm hl hok.1 hok.2] at h
  · by_contra hbar
    have hok : kind.stores = true → (s.segs.get .ss).writable = true := by simpa using hbar
    cases hl : (s.segs.get .ss).legal off k kind with
    | true =>
      obtain ⟨c, hc⟩ := translate_admitted_error hm hl hok h
      cases hc
    | false => simp [translate_illegal_admitted hm hl hok] at h
  · cases hl : (s.segs.get seg).legal off k kind with
    | true => exact .inl (translate_barred hm hl hs hw)
    | false => exact translate_illegal_cases hm hl
  · rw [← Bool.not_eq_true]
    rw [SegReg.legal_iff]
    exact fun h => absurd h.1 (by omega)

/-! ## Parts and kinds (R64 point 5) -/

/-- A part of an access without a page fault has none. -/
theorem pageFault_part {s : State} {seg : Seg} {off k j n : Nat} {kind : AccessKind} (h : pageFault s seg off k kind = none)
    (hj : j + n ≤ k) : pageFault s seg (off + j) n kind = none := by
  rw [pageFault_eq_none_iff] at h ⊢
  intro i hi
  by_cases hm : s.params.mode = .realAddress
  · exact byteFault_real hm ..
  · obtain ⟨hstrikes, hsplit⟩ := (byteFault_eq_none_iff hm).mp (h (j + i) (by omega))
    refine (byteFault_eq_none_iff hm).mpr ⟨fun f hf => ?_, by rwa [Nat.add_assoc]⟩
    exact Bool.eq_false_iff.mpr fun hs => Bool.eq_false_iff.mp (hstrikes f hf) (PageFault.strikes_part hj hs)

/-- Settles O42. -/
theorem translationOfAPartOfAnAccess : Obligations.TranslationOfAPartOfAnAccess := by
  intro s seg off k kind ps j n h hn hj
  obtain ⟨hseg, hpage, rfl⟩ := (translate_ok_iff ..).mp h
  refine (translate_ok_iff ..).mpr ⟨segFault_part hseg hn hj, pageFault_part hpage hj, ?_⟩
  refine List.ext_getElem (by simp; omega) fun i _ _ => ?_
  simp [Nat.add_assoc]

/-- A read-modify-write reads where a read does. -/
theorem byteAddr_rmw (s : State) (seg : Seg) (off : Nat) : byteAddr s seg .rmw off = byteAddr s seg .read off := by
  unfold byteAddr
  cases s.params.mode <;> rfl

/-- A read-modify-write without a fault at a byte reads and writes it at one address. -/
theorem byteAddr_write_of_rmw {s : State} {seg : Seg} {off k j : Nat} (h : byteFault s seg off k .rmw j = none) :
    byteAddr s seg .write (off + j) = byteAddr s seg .rmw (off + j) := by
  rw [byteAddr_rmw]
  by_cases hm : s.params.mode = .realAddress
  · simp [byteAddr, hm]
  · exact (((byteFault_eq_none_iff hm).mp h).2 rfl).symm

theorem segFault_of_rmw {s : State} {seg : Seg} {off k : Nat} {kind : AccessKind} (hk : kind = .read ∨ kind = .write)
    (h : segFault s seg off k .rmw = none) : segFault s seg off k kind = none := by
  by_cases hm : s.params.mode = .protectedMode
  · rw [segFault_protected_none_iff hm, SegReg.legal_iff] at h ⊢
    obtain ⟨⟨htop, x, hx, hlo, hhi, hadmits⟩, hw⟩ := h
    refine ⟨⟨htop, x, hx, hlo, hhi, ?_⟩, fun _ => hw rfl⟩
    rcases hk with rfl | rfl <;> simp_all [Window.admits]
  · rwa [segFault_low hm] at h ⊢

theorem pageFault_of_rmw {s : State} {seg : Seg} {off k : Nat} {kind : AccessKind} (hk : kind = .read ∨ kind = .write)
    (h : pageFault s seg off k .rmw = none) : pageFault s seg off k kind = none := by
  rw [pageFault_eq_none_iff] at h ⊢
  intro j hj
  by_cases hm : s.params.mode = .realAddress
  · exact byteFault_real hm ..
  · obtain ⟨hstrikes, -⟩ := (byteFault_eq_none_iff hm).mp (h j hj)
    refine (byteFault_eq_none_iff hm).mpr ⟨fun f hf => ?_, ?_⟩
    · have hfetch : kind ≠ .fetch := by rcases hk with rfl | rfl <;> simp
      exact Bool.eq_false_iff.mpr fun hs => Bool.eq_false_iff.mp (hstrikes f hf) (PageFault.strikes_rmw hfetch hs)
    · rcases hk with rfl | rfl <;> simp

theorem translate_of_rmw {s : State} {seg : Seg} {off k : Nat} {ps : List Nat} {kind : AccessKind}
    (hk : kind = .read ∨ kind = .write) (h : translate s seg off k .rmw = .ok ps) : translate s seg off k kind = .ok ps := by
  obtain ⟨hseg, hpage, rfl⟩ := (translate_ok_iff ..).mp h
  refine (translate_ok_iff ..).mpr ⟨segFault_of_rmw hk hseg, pageFault_of_rmw hk hpage, ?_⟩
  refine List.map_congr_left fun j hj => ?_
  rcases hk with rfl | rfl
  · exact byteAddr_rmw ..
  · exact (byteAddr_write_of_rmw (pageFault_eq_none_iff.mp hpage j (List.mem_range.mp hj))).symm

/-- Settles O43. -/
theorem translationForReadModifyWrite : Obligations.TranslationForReadModifyWrite :=
  fun _ _ _ _ _ h => ⟨translate_of_rmw (.inl rfl) h, translate_of_rmw (.inr rfl) h⟩

/-! ## Priority (60_exceptions.md R207) -/

theorem segFault_ne_pf (s : State) (seg : Seg) (off k : Nat) (kind : AccessKind) (c : Nat) :
    segFault s seg off k kind ≠ some (.pf c) := by
  intro h
  rcases segFault_some h with ⟨h, -⟩ | ⟨h | ⟨h, -⟩, -⟩ <;> cases h

/-- Settles O44: no segment-level fault is a page fault, and a struck byte gives the access a page fault. -/
theorem segmentFaultsBeforePageFaults : Obligations.SegmentFaultsBeforePageFaults := by
  refine fun s seg off k kind => ⟨fun c h => ?_, fun f j hf hj hs hm hseg => ?_⟩
  · rcases (translate_pf_iff ..).mp h with h | ⟨hseg, hpage⟩
    · exact absurd h (segFault_ne_pf _ _ _ _ _ _)
    · exact ⟨hseg, pageFault_eq_some hpage⟩
  · cases hp : pageFault s seg off k kind with
    | none =>
      have hbyte := (byteFault_eq_none_iff hm).mp (pageFault_eq_none_iff.mp hp j hj)
      simp [hbyte.1 f hf] at hs
    | some c => exact ⟨c, (translate_pf_iff ..).mpr (.inr ⟨hseg, hp⟩)⟩

/-! ## Little-endian values (R52) -/

/-- Bit `j` of byte `i` of the value of bytes in memory. -/
theorem testBit_leValue_loadBytes (s : State) (ps : List Nat) {i j : Nat} (hi : i < ps.length) (hj : j < 8) :
    (leValue (loadBytes s ps)).testBit (8 * i + j) = (readByte s ps[i]).getLsbD j := by
  rw [testBit_leValue _ i j (by simpa using hi) hj]
  simp [loadBytes]

theorem readByte_setBytes_at (s : State) {ps : List Nat} (hn : ps.Nodup) {bs : List Byte} (hl : bs.length = ps.length) (i : Nat)
    (hi : i < ps.length) : readByte (s.setMem (Memory.setBytes s.mem ps bs)) ps[i] = bs[i] := by
  rw [readByte_setMem, Memory.get_setBytes_at s.mem hn hl i hi, Option.getD_some]

theorem loadBytes_setBytes (s : State) {ps : List Nat} (hn : ps.Nodup) {bs : List Byte} (hl : bs.length = ps.length) :
    loadBytes (s.setMem (Memory.setBytes s.mem ps bs)) ps = bs := by
  refine List.ext_getElem (by simp [hl]) fun i hi _ => ?_
  simp only [loadBytes, List.getElem_map]
  exact readByte_setBytes_at s hn hl i (by simpa using hi)

theorem two_pow_eight_mul (k : Nat) : 2 ^ (8 * k) = 256 ^ k := by
  rw [pow_mul]
  rfl

/-- Settles O45. -/
theorem memoryIsLittleEndian : Obligations.MemoryIsLittleEndian := by
  refine fun s seg off k v => ⟨fun h => ?_, fun t h => ?_⟩
  · obtain ⟨ps, hc, rfl⟩ := (memRead_ok_iff ..).mp h
    exact ⟨ps, ((memCheck_ok_iff ..).mp hc).1, two_pow_eight_mul k ▸ memRead_lt h,
      fun i hi j hj => testBit_leValue_loadBytes s ps hi hj⟩
  · obtain ⟨ps, hc, rfl⟩ := (memWrite_ok_iff ..).mp h
    have hl := memCheck_length hc
    refine ⟨ps, ((memCheck_ok_iff ..).mp hc).1, fun hn i hi j hj => ?_⟩
    rw [readByte_setBytes_at s hn (by simp [hl]) i hi, getLsbD_leBytes k v i j (hl ▸ hi) hj]

/-- A check for reading and writing is a check for either, with the same addresses. -/
theorem memCheck_of_rmw {s : State} {seg : Seg} {off k : Nat} {ps : List Nat} {kind : AccessKind}
    (hk : kind = .read ∨ kind = .write) (h : memCheck s seg off k .rmw = .ok ps) : memCheck s seg off k kind = .ok ps := by
  obtain ⟨ht, hram, hcode⟩ := (memCheck_ok_iff ..).mp h
  exact (memCheck_ok_iff ..).mpr ⟨translate_of_rmw hk ht, hram, fun _ => hcode rfl⟩

/-- Settles O46. -/
theorem readAfterWriteReturnsTheValue : Obligations.ReadAfterWriteReturnsTheValue := by
  intro s t seg off k v ps hc hn hv hw
  obtain ⟨qs, hq, rfl⟩ := (memWrite_ok_iff ..).mp hw
  obtain rfl : qs = ps := by simpa [memCheck_of_rmw (.inr rfl) hc, eq_comm] using hq
  refine (memRead_ok_iff ..).mpr ⟨qs, ?_, ?_⟩
  · exact (memCheck_congr (s := s) rfl rfl ..).trans (memCheck_of_rmw (.inl rfl) hc)
  · rw [loadBytes_setBytes s hn (by simp [memCheck_length hc]), leValue_leBytes k v (two_pow_eight_mul k ▸ hv)]

/-! ## Holes and program text (R62, R68, R69) -/

/-- Settles O47: each clause is one branch of `memCheck` or `fetchByte`, `RAM` being looked at before `CODE`. -/
theorem holesAndCodeAreRefused : Obligations.HolesAndCodeAreRefused := by
  refine fun s seg off k kind ps ht => ⟨fun ⟨p, hp, hram⟩ => ?_, fun hram hs ⟨p, hp, hcode⟩ => ?_, fun i p hf hcode => ?_⟩
  · have hall : ps.all (inRanges s.params.ram) = false := List.all_eq_false.mpr ⟨p, hp, by simp [hram]⟩
    simp [memCheck, ht, hall]
  · have hany : ps.any (inRanges s.params.code) = true := List.any_eq_true.mpr ⟨p, hp, hcode⟩
    simp [memCheck, ht, List.all_eq_true.mpr hram, hs, hany]
  · simp [fetchByte, hf, hcode]

end Sys2Proof.Machine
end

section
/-! BOUND, BSF and BSR where they complete (spec/40_bound.md, spec/41_bit_scan.md). -/

namespace Sys2Proof.Machine

/-! ## BOUND -/

/-- Settles O19. -/
theorem boundBlockIsCheckedFirst : Obligations.BoundBlockIsCheckedFirst := by
  intro w pre reg m s e h
  rw [exec_boundInstr]
  simp only [bound, h]

/-- Settles O20. -/
theorem boundChangesOnlyEip : Obligations.BoundChangesOnlyEip := by
  intro w pre reg rm s t h
  rw [exec_boundInstr] at h
  obtain ⟨m, ps, -, -, -, -, -, rfl⟩ := (bound_eq_next_iff ..).mp h
  rfl

/-! ## The flags that are left undefined (10_state.md R27) -/

/-- Flags no instruction of the seven touches. -/
theorem unlistedFlags_kept (c : Bool) (s : State) :
    (unlistedFlags c s).flags = { (unlistedFlags c s).flags with
      ZF := s.flags.ZF, TF := s.flags.TF, IF := s.flags.IF, DF := s.flags.DF, IOPL := s.flags.IOPL, NT := s.flags.NT,
      RF := s.flags.RF, VM := s.flags.VM } := by
  unfold unlistedFlags
  split <;> rfl

theorem unlistedFlags_drawn {s : State} (h : s.params.flagsUnlisted = .draw) (c : Bool) :
    FlagsDrawn c s (unlistedFlags c s) := by
  unfold unlistedFlags
  rw [h]
  exact ⟨s.draws, Nat.le_refl _, Nat.le_refl _, rfl, rfl, rfl, rfl, fun hc => if_pos hc⟩

theorem le_unlistedFlags_draws (c : Bool) (s : State) : s.draws ≤ (unlistedFlags c s).draws := by
  unfold unlistedFlags
  split
  · exact Nat.le_refl _
  · exact Nat.le_add_right ..

/-- Draws made after a later state are made after an earlier one. -/
theorem FlagsDrawn.of_le {c : Bool} {s s' t : State} (h : FlagsDrawn c s' t) (hle : s.draws ≤ s'.draws) : FlagsDrawn c s t := by
  obtain ⟨n, hn, hflags⟩ := h
  exact ⟨n, hle.trans hn, hflags⟩

/-! ## The indices of the lowest and the highest set bit -/

theorem lowestSet_spec {n : Nat} {v : BitVec n} (h : v ≠ 0) :
    v.getLsbD (lowestSet v) = true ∧ ∀ j < lowestSet v, v.getLsbD j = false := by
  have hex : ∃ k, v.getLsbD k = true := by
    by_contra hno
    exact h (BitVec.eq_of_getLsbD_eq fun j _ => by simpa using not_exists.mp hno j)
  have hmin : ∀ j < Nat.find hex, v.getLsbD j = false := fun j hj => by simpa using Nat.find_min hex hj
  rw [lowestSet_eq (Nat.find_spec hex) hmin]
  exact ⟨Nat.find_spec hex, hmin⟩

theorem toNat_ne_zero {n : Nat} {v : BitVec n} (h : v ≠ 0) : v.toNat ≠ 0 :=
  fun h0 => h (BitVec.eq_of_toNat_eq h0)

/-- The highest set bit is the integer part of the logarithm. -/
theorem highestSet_eq_log2 {n : Nat} {v : BitVec n} (h : v ≠ 0) : highestSet v = v.toNat.log2 := by
  refine highestSet_eq (Nat.testBit_log2 (toNat_ne_zero h)) fun j hj => ?_
  exact Nat.testBit_lt_two_pow ((Nat.log2_lt (toNat_ne_zero h)).mp hj)

theorem highestSet_spec {n : Nat} {v : BitVec n} (h : v ≠ 0) : v.getLsbD (highestSet v) = true := by
  rw [highestSet_eq_log2 h]
  exact Nat.testBit_log2 (toNat_ne_zero h)

/-- The lowest set bit is the greatest power of two that divides. -/
theorem two_pow_dvd_iff_le_lowestSet {n : Nat} {v : BitVec n} (h : v ≠ 0) (k : Nat) : 2 ^ k ∣ v.toNat ↔ k ≤ lowestSet v := by
  obtain ⟨hset, hclear⟩ := lowestSet_spec h
  constructor
  · rintro ⟨m, hm⟩
    by_contra hlt
    have hbit : v.toNat.testBit (lowestSet v) = true := hset
    rw [hm, Nat.testBit_two_pow_mul] at hbit
    simp at hbit
    omega
  · intro hle
    refine Nat.dvd_of_mod_eq_zero (Nat.eq_of_testBit_eq fun j => ?_)
    rw [Nat.testBit_mod_two_pow, Nat.zero_testBit]
    by_cases hj : j < k
    · rw [decide_eq_true hj, Bool.true_and]
      exact hclear j (by omega)
    · simp [hj]

theorem two_pow_le_iff_le_highestSet {n : Nat} {v : BitVec n} (h : v ≠ 0) (k : Nat) : 2 ^ k ≤ v.toNat ↔ k ≤ highestSet v := by
  rw [highestSet_eq_log2 h, Nat.le_log2 (toNat_ne_zero h)]

/-- An index below the width fits in a register of the width. -/
theorem toNat_ofNat_of_lt_bits {w : Size} {k : Nat} (h : k < w.bits) : (BitVec.ofNat w.bits k).toNat = k := by
  rw [BitVec.toNat_ofNat, Nat.mod_eq_of_lt (h.trans Nat.lt_two_pow_self)]

theorem eq_two_pow_of_dvd_of_lt {u k : Nat} (hdvd : 2 ^ k ∣ u) (h0 : u ≠ 0) (hlt : u < 2 ^ (k + 1)) : u = 2 ^ k := by
  obtain ⟨m, rfl⟩ := hdvd
  rw [pow_succ] at hlt
  have hm : m < 2 := Nat.lt_of_mul_lt_mul_left hlt
  obtain rfl : m = 1 := by
    have : m ≠ 0 := right_ne_zero_of_mul h0
    omega
  rw [Nat.mul_one]

/-! ## The state after a scan -/

theorem readReg_setEip (s : State) (w : Size) (r : Reg) (e : Dword) : readReg w r (s.setEip e) = readReg w r s := rfl

section
variable {w : Size} (scan : BitVec w.bits → Nat) (dst : Reg) (v : BitVec w.bits) (s : State)

theorem readReg_scanResult :
    readReg w dst (scanResult w scan dst v s) =
      if v = 0 then Config.undefDraw w.bits s.draws else BitVec.ofNat w.bits (scan v) := by
  rw [readReg_congr w dst (scanResult_regs w scan dst v s), readReg_setReg_same]

theorem scanResult_high_bits {j : Nat} (h : w.bits ≤ j) :
    ((scanResult w scan dst v s).regs.get dst).getLsbD j = (s.regs.get dst).getLsbD j := by
  rw [scanResult_regs, setReg_high_bits _ _ _ _ _ _ h]

theorem scanResult_other {q : Reg} (h : q ≠ dst) : (scanResult w scan dst v s).regs.get q = s.regs.get q := by
  rw [scanResult_regs, setReg_other _ _ _ h]

/-- The flags are those the flag rule leaves once the destination is written, a zero source having taken one draw. -/
theorem scanResult_eq_scanFlags :
    ∃ s', scanResult w scan dst v s = scanFlags (decide (v = 0)) s' ∧ s'.flags = s.flags ∧ s'.params = s.params ∧
      s'.draws = s.draws + if v = 0 then 1 else 0 := by
  unfold scanResult
  split
  · rename_i h
    exact ⟨(s.setReg w dst (Config.undefDraw w.bits s.draws)).addDraws 1, by rw [decide_eq_true h], rfl, rfl, rfl⟩
  · rename_i h
    exact ⟨s.setReg w dst (BitVec.ofNat w.bits (scan v)), by rw [decide_eq_false h], rfl, rfl, rfl⟩

theorem scanResult_ZF : (scanResult w scan dst v s).flags.ZF = decide (v = 0) := by
  obtain ⟨s', h, -⟩ := scanResult_eq_scanFlags scan dst v s
  rw [h, scanFlags_ZF]

theorem scanResult_draws_lt (h : v = 0) : s.draws < (scanResult w scan dst v s).draws := by
  obtain ⟨s', he, -, -, hdraws⟩ := scanResult_eq_scanFlags scan dst v s
  rw [if_pos h] at hdraws
  have hle := le_unlistedFlags_draws true (s'.setZF (decide (v = 0)))
  rw [State.setZF_draws] at hle
  rw [he, scanFlags]
  omega

end

/-- A scan of a readable source completes where EIP can advance. -/
theorem exec_scan_of_readRM {w : Size} {pre : List Prefix} {dst : Reg} {rm : RM} {s : State} {src : BitVec w.bits} {i : Instr}
    {scan : BitVec w.bits → Nat} (hexec : exec i s = bitScan w scan i.length pre dst rm s) (hsrc : readRM w pre rm s = .ok src)
    (hfits : EipFits s i.length) : exec i s = .next ((scanResult w scan dst src s).setEip (eipAfter s i.length)) :=
  hexec.trans ((bitScan_eq_next_iff ..).mpr ⟨src, hsrc, hfits, rfl⟩)

/-- A scan whose function finds `k` in a nonzero source. -/
theorem exec_scan_found {w : Size} {pre : List Prefix} {dst : Reg} {rm : RM} {s : State} {src : BitVec w.bits} {i : Instr}
    {scan : BitVec w.bits → Nat} {k : Nat} (hexec : exec i s = bitScan w scan i.length pre dst rm s)
    (hsrc : readRM w pre rm s = .ok src) (hk : src.getLsbD k = true) (hscan : scan src = k) (hfits : EipFits s i.length) :
    ∃ t, exec i s = .next t ∧ (readReg w dst t).toNat = k ∧ t.flags.ZF = false ∧ t.eip = eipAfter s i.length ∧
      (∀ j, w.bits ≤ j → (t.regs.get dst).getLsbD j = (s.regs.get dst).getLsbD j) ∧
      (∀ q, q ≠ dst → t.regs.get q = s.regs.get q) ∧ t.mem = s.mem := by
  have hne : src ≠ 0 := by
    rintro rfl
    simp at hk
  refine ⟨_, exec_scan_of_readRM hexec hsrc hfits, ?_, ?_, rfl, fun j => scanResult_high_bits scan dst src s,
    fun q => scanResult_other scan dst src s, scanResult_mem ..⟩
  · rw [readReg_setEip, readReg_scanResult, if_neg hne, hscan, toNat_ofNat_of_lt_bits (BitVec.lt_of_getLsbD hk)]
  · exact (scanResult_ZF ..).trans (decide_eq_false hne)

/-- Settles O21. -/
theorem bsfLoadsTheLowestSetBit : Obligations.BsfLoadsTheLowestSetBit :=
  fun _ _ _ _ _ _ _ hsrc hk hlow hfits => exec_scan_found (exec_bsfInstr ..) hsrc hk (lowestSet_eq hk hlow) hfits

/-- Settles O22. -/
theorem bsrLoadsTheHighestSetBit : Obligations.BsrLoadsTheHighestSetBit :=
  fun _ _ _ _ _ _ _ hsrc hk hhigh hfits => exec_scan_found (exec_bsrInstr ..) hsrc hk (highestSet_eq hk hhigh) hfits

/-- Settles O23. -/
theorem scanOfZeroDrawsTheDestination : Obligations.ScanOfZeroDrawsTheDestination := by
  intro w pre dst rm s i hi hsrc hfits
  obtain ⟨scan, hexec⟩ := exec_scan_eq_bitScan hi s
  refine ⟨_, exec_scan_of_readRM hexec hsrc hfits, (readReg_scanResult ..).trans (if_pos rfl),
    scanResult_draws_lt scan dst 0 s rfl, scanResult_ZF .., rfl, fun j => scanResult_high_bits scan dst 0 s,
    fun q => scanResult_other scan dst 0 s, scanResult_mem ..⟩

/-- Both scans find a set bit of a nonzero source. -/
theorem exec_scan_eq_bitScan_found {w : Size} {pre : List Prefix} {dst : Reg} {rm : RM} {i : Instr}
    (hi : i = bsfInstr w pre dst rm ∨ i = bsrInstr w pre dst rm) (s : State) :
    ∃ scan, exec i s = bitScan w scan i.length pre dst rm s ∧ ∀ v : BitVec w.bits, v ≠ 0 → v.getLsbD (scan v) = true := by
  rcases hi with rfl | rfl
  · exact ⟨lowestSet, exec_bsfInstr .., fun v hv => (lowestSet_spec hv).1⟩
  · exact ⟨highestSet, exec_bsrInstr .., fun v hv => highestSet_spec hv⟩

/-- Settles O24. -/
theorem zeroFlagTellsAZeroSource : Obligations.ZeroFlagTellsAZeroSource := by
  intro w pre dst rm s t src i hi hsrc ht
  obtain ⟨scan, hexec, hfound⟩ := exec_scan_eq_bitScan_found hi s
  obtain ⟨src', hsrc', -, rfl⟩ := (bitScan_eq_next_iff ..).mp (hexec.symm.trans ht)
  obtain rfl : src = src' := by simpa [hsrc] using hsrc'
  rw [State.setEip_flags, readReg_setEip, scanResult_ZF, readReg_scanResult]
  refine ⟨decide_eq_true_iff, fun hz => ?_, fun hz => if_pos hz⟩
  have hne : src ≠ 0 := of_decide_eq_false hz
  rw [if_neg hne, toNat_ofNat_of_lt_bits (BitVec.lt_of_getLsbD (hfound src hne))]
  exact hfound src hne

/-- Settles O26: the destination's write, the memory and the flags each have their law; EIP alone is written after them. -/
theorem scanFrame : Obligations.ScanFrame := by
  intro w pre dst rm s t i hi ht
  obtain ⟨scan, hexec⟩ := exec_scan_eq_bitScan hi s
  obtain ⟨src, -, -, rfl⟩ := (bitScan_eq_next_iff ..).mp (hexec.symm.trans ht)
  obtain ⟨s', he, hflags, hparams, hdraws⟩ := scanResult_eq_scanFlags scan dst src s
  refine ⟨fun q => scanResult_other scan dst src s, fun j => scanResult_high_bits scan dst src s, scanResult_segs ..,
    scanResult_params .., readByte_congr (scanResult_mem ..), ?_, fun hpol => ?_, fun hpol => ?_⟩
  · rw [State.setEip_flags, he, scanFlags, unlistedFlags_kept, ← hflags]
    rfl
  · rw [State.setEip_flags, he, scanFlags_of_preserve _ _ (hparams ▸ hpol), ← hflags]
    rfl
  · have hdrawn : FlagsDrawn true (s'.setZF (decide (src = 0))) _ := unlistedFlags_drawn (hparams ▸ hpol) true
    rw [he]
    exact hdrawn.of_le (s := s) (by rw [State.setZF_draws, hdraws]; omega)

/-- Settles O27: divisibility and size by powers of two are the two indices (`two_pow_dvd_iff_le_lowestSet`,
`two_pow_le_iff_le_highestSet`). -/
theorem scanIndexLaws : Obligations.ScanIndexLaws := by
  intro w pre dst dst' rm s t t' src f r hsrc hne ht ht' hf hr
  have index {scan : BitVec w.bits → Nat} {d : Reg} {i : Instr} {t : State}
      (hexec : exec i s = bitScan w scan i.length pre d rm s) (hfound : src.getLsbD (scan src) = true)
      (ht : exec i s = .next t) : (readReg w d t).toNat = scan src := by
    obtain ⟨src', hsrc', -, rfl⟩ := (bitScan_eq_next_iff ..).mp (hexec.symm.trans ht)
    obtain rfl : src = src' := by simpa [hsrc] using hsrc'
    rw [readReg_setEip, readReg_scanResult, if_neg hne, toNat_ofNat_of_lt_bits (BitVec.lt_of_getLsbD hfound)]
  obtain rfl : f = lowestSet src := hf.trans (index (exec_bsfInstr ..) (lowestSet_spec hne).1 ht)
  obtain rfl : r = highestSet src := hr.trans (index (exec_bsrInstr ..) (highestSet_spec hne) ht')
  have hdvd := two_pow_dvd_iff_le_lowestSet hne
  have hle := two_pow_le_iff_le_highestSet hne
  have hfu : 2 ^ lowestSet src ∣ src.toNat := (hdvd _).mpr (Nat.le_refl _)
  have hru : 2 ^ highestSet src ≤ src.toNat := (hle _).mpr (Nat.le_refl _)
  have hfr : lowestSet src ≤ highestSet src :=
    (hle _).mp (Nat.le_of_dvd (Nat.pos_of_ne_zero (toNat_ne_zero hne)) hfu)
  have hpow (heq : lowestSet src = highestSet src) : src.toNat = 2 ^ lowestSet src := by
    refine eq_two_pow_of_dvd_of_lt hfu (toNat_ne_zero hne) (Nat.lt_of_not_le fun h => ?_)
    have := (hle _).mp h
    omega
  refine ⟨hfu, fun k => (hdvd k).mp, hru, fun k => (hle k).mp, hfr, ⟨fun heq => ⟨_, hpow heq⟩, ?_⟩, hpow⟩
  rintro ⟨k, hk⟩
  have hkf : k ≤ lowestSet src := (hdvd k).mp (hk ▸ dvd_refl _)
  have hrk : highestSet src ≤ k := (Nat.pow_le_pow_iff_right (by decide)).mp (hk ▸ hru)
  omega

end Sys2Proof.Machine
end

section
/-! BT, BTC, BTR and BTS on a register (spec/42_bit_test.md R170 to R183). -/

namespace Sys2Proof.Machine

/-! ## What an instruction does to the bit -/

/-- The selected bit after the instruction, from the old one: BT alone keeps it. -/
def bitAfter : Option BitUpdate → Bool → Bool
  | none, old => old
  | some u, old => u.new old

theorem BitInstr.newBit_getD (k : BitInstr) (old : Bool) : (k.newBit old).getD old = bitAfter k.update old := by
  cases k <;> rfl

theorem BitInstr.writes_eq (k : BitInstr) : k.writes = k.update.isSome := by
  cases k <;> rfl

theorem bits_le (w : Size) : w.bits ≤ 32 := by
  cases w <;> decide

theorem bits_pos (w : Size) : 0 < w.bits := by
  cases w <;> decide

theorem regBitIndex_lt (w : Size) (o : BitOffset) (s : State) : regBitIndex w o s < w.bits := by
  cases o <;> exact Nat.mod_lt _ (bits_pos w)

/-- One bit of a register is replaced and the others are kept. -/
theorem getLsbD_setReg_replaceBit (s : State) {w : Size} (r : Reg) {b : Nat} (hb : b < w.bits) (c : Bool) (j : Nat) :
    ((s.setReg w r (replaceBit (readReg w r s) b c)).regs.get r).getLsbD j =
      if j = b then c else (s.regs.get r).getLsbD j := by
  by_cases hj : j < w.bits
  · rw [State.setReg_regs, Regs.get_set_same, getLsbD_mergeLow _ _ _ _ (hj.trans_le (bits_le w)), if_pos hj,
      getLsbD_replaceBit _ _ _ _ hb, getLsbD_readReg w r s hj]
  · rw [setReg_high_bits _ _ _ _ _ _ (Nat.not_lt.mp hj), if_neg (by omega)]

/-! ## The flags after a bit instruction -/

section
variable (old : Bool) (s : State)

theorem bitFlags_kept :
    (bitFlags old s).flags = { (bitFlags old s).flags with
      ZF := s.flags.ZF, TF := s.flags.TF, IF := s.flags.IF, DF := s.flags.DF, IOPL := s.flags.IOPL, NT := s.flags.NT,
      RF := s.flags.RF, VM := s.flags.VM } :=
  unlistedFlags_kept false (s.setCF old)

theorem bitFlags_drawn {s : State} (h : s.params.flagsUnlisted = .draw) : FlagsDrawn false s (bitFlags old s) :=
  unlistedFlags_drawn (s := s.setCF old) h false

end

/-- The flags part of the frame of a bit instruction: `t` has the flags the rule leaves in a state with those of `s`. -/
theorem bit_flags_frame {s s' t : State} {old : Bool} (ht : t.flags = (bitFlags old s').flags)
    (hdt : t.draws = (bitFlags old s').draws) (hflags : s'.flags = s.flags) (hparams : s'.params = s.params)
    (hdraws : s'.draws = s.draws) :
    t.flags = { t.flags with
        ZF := s.flags.ZF, TF := s.flags.TF, IF := s.flags.IF, DF := s.flags.DF, IOPL := s.flags.IOPL, NT := s.flags.NT,
        RF := s.flags.RF, VM := s.flags.VM } ∧
      (s.params.flagsUnlisted = .preserve → t.flags = { s.flags with CF := t.flags.CF }) ∧
      (s.params.flagsUnlisted = .draw → FlagsDrawn false s t) := by
  refine ⟨?_, fun hpol => ?_, fun hpol => ?_⟩
  · rw [ht, ← hflags]
    exact bitFlags_kept old s'
  · rw [ht, ← hflags, bitFlags_of_preserve old s' (hparams ▸ hpol)]
    rfl
  · obtain ⟨n, hn, hdrawn⟩ := bitFlags_drawn old (s := s') (hparams ▸ hpol)
    exact ⟨n, hdraws ▸ hn, by rwa [ht, hdt]⟩

/-! ## The register form -/

section
variable (w : Size) (u : Option BitUpdate) (r : Reg) (o : BitOffset) (s : State)

/-- The flags are those the flag rule leaves once the base is written. -/
theorem bitOnReg_eq_bitFlags :
    ∃ s', bitOnReg w u r o s = bitFlags ((s.regs.get r).getLsbD (regBitIndex w o s)) s' ∧ s'.flags = s.flags ∧
      s'.params = s.params ∧ s'.draws = s.draws := by
  rw [← getLsbD_readReg w r s (regBitIndex_lt w o s)]
  cases u with
  | none => exact ⟨s, rfl, rfl, rfl, rfl⟩
  | some u => exact ⟨_, rfl, rfl, rfl, rfl⟩

theorem bitOnReg_CF : (bitOnReg w u r o s).flags.CF = (s.regs.get r).getLsbD (regBitIndex w o s) := by
  obtain ⟨s', h, -⟩ := bitOnReg_eq_bitFlags w u r o s
  rw [h, bitFlags_CF]

theorem bitOnReg_ZF : (bitOnReg w u r o s).flags.ZF = s.flags.ZF := by
  obtain ⟨s', h, hflags, -⟩ := bitOnReg_eq_bitFlags w u r o s
  rw [h, bitFlags_ZF, hflags]

/-- The bits of the base: the selected one alone is kept, complemented, cleared or set. -/
theorem bitOnReg_getLsbD (j : Nat) :
    ((bitOnReg w u r o s).regs.get r).getLsbD j =
      if j = regBitIndex w o s then bitAfter u ((s.regs.get r).getLsbD (regBitIndex w o s)) else (s.regs.get r).getLsbD j := by
  cases u with
  | none =>
    rw [bitOnReg, bitFlags_regs]
    split
    · next h => rw [h]; rfl
    · rfl
  | some u =>
    rw [bitOnReg, bitFlags_regs, getLsbD_setReg_replaceBit _ _ (regBitIndex_lt w o s),
      getLsbD_readReg _ _ _ (regBitIndex_lt w o s)]
    rfl

theorem bitOnReg_other {q : Reg} (h : q ≠ r) : (bitOnReg w u r o s).regs.get q = s.regs.get q := by
  cases u with
  | none => rw [bitOnReg, bitFlags_regs]
  | some u => rw [bitOnReg, bitFlags_regs, setReg_other _ _ _ h]

theorem bitOnReg_none_regs : (bitOnReg w none r o s).regs = s.regs := by
  rw [bitOnReg, bitFlags_regs]

end

/-- A bit instruction on a register completes where EIP can advance. -/
theorem exec_bit_reg {k : BitInstr} {w : Size} {pre : List Prefix} {r : Reg} {o : BitOffset} {s : State}
    (hfits : EipFits s (k.withOffset w pre (.reg r) o).length) :
    exec (k.withOffset w pre (.reg r) o) s =
      .next ((bitOnReg w k.update r o s).setEip (eipAfter s (k.withOffset w pre (.reg r) o).length)) := by
  rw [exec_withOffset]
  exact complete_of_fits hfits _

theorem exec_bit_reg_eq_next {k : BitInstr} {w : Size} {pre : List Prefix} {r : Reg} {o : BitOffset} {s t : State}
    (h : exec (k.withOffset w pre (.reg r) o) s = .next t) : ∃ e, t = (bitOnReg w k.update r o s).setEip e := by
  rw [exec_withOffset] at h
  exact ⟨_, ((complete_eq_next_iff ..).mp h).2⟩

/-- The effect of a bit instruction on a register, for either kind of offset. -/
theorem exec_bit_reg_effect {k : BitInstr} {w : Size} {pre : List Prefix} {r : Reg} {o : BitOffset} {s : State} {b : Nat}
    {old : Bool} (hb : b = regBitIndex w o s) (hold : old = (s.regs.get r).getLsbD b)
    (hfits : EipFits s (k.withOffset w pre (.reg r) o).length) :
    ∃ t, exec (k.withOffset w pre (.reg r) o) s = .next t ∧ t.flags.CF = old ∧ t.flags.ZF = s.flags.ZF ∧
      (∀ j, (t.regs.get r).getLsbD j = if j = b then (k.newBit old).getD old else (s.regs.get r).getLsbD j) ∧
      (∀ x, x ≠ r → t.regs.get x = s.regs.get x) ∧ t.mem = s.mem ∧
      t.eip = eipAfter s (k.withOffset w pre (.reg r) o).length := by
  subst hb hold
  exact ⟨_, exec_bit_reg hfits, bitOnReg_CF .., bitOnReg_ZF ..,
    fun j => by rw [k.newBit_getD]; exact bitOnReg_getLsbD w k.update r o s j,
    fun x hx => bitOnReg_other w k.update r o s hx, bitOnReg_mem .., rfl⟩

/-- Settles O28. -/
theorem bitOfRegisterByRegisterOffset : Obligations.BitOfRegisterByRegisterOffset :=
  fun _ _ _ _ q _ _ _ hb hold hfits => exec_bit_reg_effect (o := .reg q) hb hold hfits

/-- Settles O29. -/
theorem bitOfRegisterByImmediateOffset : Obligations.BitOfRegisterByImmediateOffset :=
  fun _ _ _ _ imm _ _ _ hb hold hfits => exec_bit_reg_effect (o := .imm imm) hb hold hfits

/-- Settles O34. -/
theorem bitOfRegisterFrame : Obligations.BitOfRegisterFrame := by
  intro k w pre r o s t ht
  obtain ⟨e, rfl⟩ := exec_bit_reg_eq_next ht
  obtain ⟨s', he, hflags, hparams, hdraws⟩ := bitOnReg_eq_bitFlags w k.update r o s
  refine ⟨fun q => bitOnReg_other w k.update r o s, fun hk => ?_, fun j hj => ?_, bitOnReg_segs .., bitOnReg_params ..,
    readByte_congr (bitOnReg_mem ..),
    bit_flags_frame (by rw [State.setEip_flags, he]) (by rw [State.setEip_draws, he]) hflags hparams hdraws⟩
  · have hu : k.update = none := by simpa [k.writes_eq] using hk
    rw [State.setEip_regs, hu, bitOnReg_none_regs]
  · have hb := regBitIndex_lt w o s
    rw [State.setEip_regs, bitOnReg_getLsbD, if_neg (by omega)]

/-! ## BTC twice (R176) -/

/-- The bit index depends on the offset operand only. -/
theorem regBitIndex_bitOnReg (w : Size) (u : Option BitUpdate) {r : Reg} {o : BitOffset} (ho : o ≠ .reg r) (s : State)
    (e : Dword) :
    regBitIndex w o ((bitOnReg w u r o s).setEip e) = regBitIndex w o s := by
  cases o with
  | imm b => rfl
  | reg q =>
    have hq : q ≠ r := fun h => ho (h ▸ rfl)
    simp only [regBitIndex, readReg, State.setEip_regs, bitOnReg_other w u r _ s hq]

theorem btc_reg_twice {w : Size} {pre pre' : List Prefix} {o : BitOffset} {s t v : State} {r : Reg} (ho : o ≠ .reg r)
    (ht : exec (BitInstr.btc.withOffset w pre (.reg r) o) s = .next t)
    (hv : exec (BitInstr.btc.withOffset w pre' (.reg r) o) t = .next v) : v.regs = s.regs ∧ v.flags.CF = !t.flags.CF := by
  obtain ⟨e, rfl⟩ := exec_bit_reg_eq_next ht
  obtain ⟨e', rfl⟩ := exec_bit_reg_eq_next hv
  have hidx := regBitIndex_bitOnReg w BitInstr.btc.update ho s e
  refine ⟨Regs.ext_get fun q => ?_, ?_⟩
  · by_cases hq : q = r
    · subst hq
      refine BitVec.eq_of_getLsbD_eq fun j _ => ?_
      rw [State.setEip_regs, bitOnReg_getLsbD, hidx, State.setEip_regs, bitOnReg_getLsbD, bitOnReg_getLsbD, if_pos rfl]
      split
      · next h => simp [BitInstr.update, bitAfter, BitUpdate.new, h]
      · rfl
    · rw [State.setEip_regs, bitOnReg_other _ _ _ _ _ hq, State.setEip_regs, bitOnReg_other _ _ _ _ _ hq]
  · rw [State.setEip_flags, bitOnReg_CF, hidx, State.setEip_regs, bitOnReg_getLsbD, if_pos rfl, State.setEip_flags, bitOnReg_CF]
    rfl

/-! ## A large bit offset split by an assembler (30_encoding.md R108) -/

/-- Settles O38: for each of the few `k` both sides are quotients and remainders of the offset by powers of two. -/
theorem splitBitOffsetNamesTheSameBit : Obligations.SplitBitOffsetNamesTheSameBit := by
  intro w ea N k h3 hk
  cases w with
  | w16 =>
    have h4 : k ≤ 4 := (Nat.pow_le_pow_iff_right (by decide : 1 < 2)).mp hk
    interval_cases k <;> simp only [bitAddr, fmod, fdiv, Size.bits, Size.bytes] <;> omega
  | w32 =>
    have h5 : k ≤ 5 := (Nat.pow_le_pow_iff_right (by decide : 1 < 2)).mp hk
    interval_cases k <;> simp only [bitAddr, fmod, fdiv, Size.bits, Size.bytes] <;> omega

end Sys2Proof.Machine
end

section
/-! BT, BTC, BTR and BTS on memory (spec/42_bit_test.md R171 to R186). -/

namespace Sys2Proof.Machine

/-! ## The address and the bit (R171, R186) -/

theorem fmod_lt (a : Int) {b : Nat} (hb : 0 < b) : fmod a b < b := by
  have h0 := Int.emod_nonneg a (b := b) (by omega)
  have h1 := Int.emod_lt_of_pos a (b := b) (by omega)
  unfold fmod
  omega

theorem bitAddrIn_eq_some_iff {w : Size} {m : MemOp} {o : BitOffset} {s : State} {a : Nat} :
    bitAddrIn w m o s = some a ↔
      (a : Int) = bitAddr w (effAddr m s.regs) (memBitOffset w o s) ∧ a < 2 ^ (memOpSize m).bits := by
  have hcast : ((2 ^ (memOpSize m).bits : Nat) : Int) = 2 ^ (memOpSize m).bits := by push_cast; rfl
  simp only [bitAddrIn]
  split_ifs with h
  · simp only [false_iff]
    omega
  · simp only [Option.some.injEq]
    omega

theorem bitAddrIn_eq_none {w : Size} {m : MemOp} {o : BitOffset} {s : State}
    (h : bitAddr w (effAddr m s.regs) (memBitOffset w o s) < 0 ∨
      bitAddr w (effAddr m s.regs) (memBitOffset w o s) > 2 ^ (memOpSize m).bits - 1) : bitAddrIn w m o s = none :=
  if_pos h

/-- The offset and the address are read from the registers alone. -/
theorem memBitOffset_congr {s t : State} (h : t.regs = s.regs) (w : Size) (o : BitOffset) :
    memBitOffset w o t = memBitOffset w o s := by
  cases o with
  | imm b => rfl
  | reg q => simp [memBitOffset, readReg_congr w q h]

theorem bitAddrIn_congr {s t : State} (h : t.regs = s.regs) (w : Size) (m : MemOp) (o : BitOffset) :
    bitAddrIn w m o t = bitAddrIn w m o s := by
  simp [bitAddrIn, memBitOffset_congr h, h]

/-- The byte displacement of a register offset (R186). -/
theorem bitAddr_displacement (w : Size) (q : Reg) (s : State) :
    -2 ^ (w.bits - 4) ≤ w.bytes * fdiv (memBitOffset w (.reg q) s) w.bits ∧
      w.bytes * fdiv (memBitOffset w (.reg q) s) w.bits ≤ 2 ^ (w.bits - 4) - w.bytes := by
  have hlo := BitVec.le_two_mul_toInt (x := readReg w q s)
  have hhi := BitVec.two_mul_toInt_lt (x := readReg w q s)
  cases w <;> simp only [memBitOffset, fdiv, Size.bits, Size.bytes] at * <;> omega

/-- With an immediate offset the address is the effective address itself (R172). -/
theorem bitAddrIn_imm (w : Size) (m : MemOp) (b : Byte) (s : State) : bitAddrIn w m (.imm b) s = some (effAddr m s.regs) := by
  have hdiv : fdiv (memBitOffset w (.imm b) s) w.bits = 0 :=
    Int.ediv_eq_zero_of_lt (Int.natCast_nonneg _) (Int.ofNat_lt.mpr (Nat.mod_lt _ (bits_pos w)))
  exact bitAddrIn_eq_some_iff.mpr ⟨by simp [bitAddr, hdiv], effAddr_lt m s.regs⟩

/-! ## The value of the bytes -/

/-- The little-endian value of the bytes a memory form touches, which `bitOnMem` reads. -/
def memValue (w : Size) (ps : List Nat) (s : State) : BitVec w.bits := BitVec.ofNat w.bits (leValue (loadBytes s ps))

/-- The bit of that value the instruction selects. -/
def memBitIndex (w : Size) (o : BitOffset) (s : State) : Nat := fmod (memBitOffset w o s) w.bits

theorem memBitIndex_lt (w : Size) (o : BitOffset) (s : State) : memBitIndex w o s < w.bits :=
  fmod_lt _ (bits_pos w)

theorem memBitIndex_congr {s t : State} (h : t.regs = s.regs) (w : Size) (o : BitOffset) :
    memBitIndex w o t = memBitIndex w o s := by
  simp [memBitIndex, memBitOffset_congr h]

theorem memValue_congr {s t : State} (h : t.mem = s.mem) (w : Size) (ps : List Nat) : memValue w ps t = memValue w ps s := by
  have hload : loadBytes t ps = loadBytes s ps := List.map_congr_left fun a _ => readByte_congr h a
  simp [memValue, hload]

section
variable {w : Size} {ps : List Nat} (hl : ps.length = w.bytes)
include hl

theorem toNat_memValue (s : State) : (memValue w ps s).toNat = leValue (loadBytes s ps) := by
  have hlt := leValue_lt (loadBytes s ps)
  rw [loadBytes_length, hl, ← two_pow_bits_eq] at hlt
  rw [memValue, BitVec.toNat_ofNat, Nat.mod_eq_of_lt hlt]

theorem getLsbD_memValue (s : State) (b : Nat) : (memValue w ps s).getLsbD b = (leValue (loadBytes s ps)).testBit b := by
  rw [BitVec.getLsbD, toNat_memValue hl]

/-- Bit `i` of byte `j` is bit `8j + i` of the value. -/
theorem getLsbD_readByte (s : State) {j i : Nat} (hj : j < ps.length) (hi : i < 8) :
    (readByte s ps[j]).getLsbD i = (memValue w ps s).getLsbD (8 * j + i) := by
  rw [getLsbD_memValue hl, testBit_leValue_loadBytes s ps hj hi]

/-- Equal values are equal bytes. -/
theorem readByte_eq_of_memValue_eq {s t : State} (h : memValue w ps t = memValue w ps s) {x : Nat} (hx : x ∈ ps) :
    readByte t x = readByte s x := by
  obtain ⟨j, hj, rfl⟩ := List.getElem_of_mem hx
  exact BitVec.eq_of_getLsbD_eq fun i hi => by rw [getLsbD_readByte hl t hj hi, getLsbD_readByte hl s hj hi, h]

end

/-! ## The memory form -/

section
variable (w : Size) (u : Option BitUpdate) (ps : List Nat) (o : BitOffset) (s : State)

/-- The flags are those the flag rule leaves once the bytes are written. -/
theorem bitOnMem_eq_bitFlags :
    ∃ s', bitOnMem w u ps o s = bitFlags ((memValue w ps s).getLsbD (memBitIndex w o s)) s' ∧ s'.flags = s.flags ∧
      s'.params = s.params ∧ s'.draws = s.draws := by
  cases u with
  | none => exact ⟨s, rfl, rfl, rfl, rfl⟩
  | some u => exact ⟨_, rfl, rfl, rfl, rfl⟩

theorem bitOnMem_CF : (bitOnMem w u ps o s).flags.CF = (memValue w ps s).getLsbD (memBitIndex w o s) := by
  obtain ⟨s', h, -⟩ := bitOnMem_eq_bitFlags w u ps o s
  rw [h, bitFlags_CF]

theorem bitOnMem_ZF : (bitOnMem w u ps o s).flags.ZF = s.flags.ZF := by
  obtain ⟨s', h, hflags, -⟩ := bitOnMem_eq_bitFlags w u ps o s
  rw [h, bitFlags_ZF, hflags]

theorem bitOnMem_none_mem : (bitOnMem w none ps o s).mem = s.mem := by
  rw [bitOnMem, bitFlags_mem]

/-- BTC, BTR and BTS store the value with the selected bit replaced. -/
theorem bitOnMem_some_mem (u : BitUpdate) :
    (bitOnMem w (some u) ps o s).mem = Memory.setBytes s.mem ps (leBytes w.bytes
      (replaceBit (memValue w ps s) (memBitIndex w o s) (u.new ((memValue w ps s).getLsbD (memBitIndex w o s)))).toNat) := by
  rw [bitOnMem, bitFlags_mem]
  rfl

theorem readByte_bitOnMem_other {x : Nat} (hx : x ∉ ps) : readByte (bitOnMem w u ps o s) x = readByte s x := by
  cases u with
  | none => exact readByte_congr (bitOnMem_none_mem ..) x
  | some u => exact (readByte_congr (t := s.setMem _) (bitOnMem_some_mem ..) x).trans (readByte_setBytes_other s _ hx)

/-- The value after: the selected bit alone is kept, complemented, cleared or set. -/
theorem getLsbD_memValue_bitOnMem {ps : List Nat} (hl : ps.length = w.bytes) (hn : ps.Nodup) (j : Nat) :
    (memValue w ps (bitOnMem w u ps o s)).getLsbD j =
      if j = memBitIndex w o s then bitAfter u ((memValue w ps s).getLsbD (memBitIndex w o s)) else (memValue w ps s).getLsbD j := by
  cases u with
  | none =>
    rw [memValue_congr (bitOnMem_none_mem w ps o s)]
    split
    · next h => rw [h]; rfl
    · rfl
  | some u =>
    have hset : memValue w ps (bitOnMem w (some u) ps o s) =
        replaceBit (memValue w ps s) (memBitIndex w o s) (u.new ((memValue w ps s).getLsbD (memBitIndex w o s))) := by
      refine BitVec.eq_of_toNat_eq ?_
      rw [memValue_congr (t := bitOnMem w (some u) ps o s) (s := s.setMem _) (bitOnMem_some_mem ..), toNat_memValue hl,
        loadBytes_setBytes s hn (by simp [hl]), leValue_leBytes _ _ (two_pow_bits_eq w ▸ BitVec.isLt _)]
    rw [hset, getLsbD_replaceBit _ _ _ _ (memBitIndex_lt w o s)]
    rfl

end

end Sys2Proof.Machine
end

section
/-! What BT, BTC, BTR and BTS on memory do where they complete, and what stops them (spec/42_bit_test.md R171 to R186). -/

namespace Sys2Proof.Machine

/-! ## The three ways a bit instruction on memory goes -/

section
variable {k : BitInstr} {w : Size} {pre : List Prefix} {m : MemOp} {o : BitOffset} {s : State}

theorem exec_bit_mem_of_no_addr (h : bitAddrIn w m o s = none) :
    exec (k.withOffset w pre (.mem m) o) s = .refused .addressArithmeticOverflow := by
  rw [exec_withOffset]
  simp only [bitOp, h]

theorem exec_bit_mem_of_stop {a : Nat} {e : Stop} (ha : bitAddrIn w m o s = some a)
    (hc : bitCheck w k.update pre m a s = .error e) : exec (k.withOffset w pre (.mem m) o) s = stop e s := by
  rw [exec_withOffset]
  simp only [bitOp, ha, hc]

theorem exec_bit_mem_of_check {a : Nat} {ps : List Nat} (ha : bitAddrIn w m o s = some a)
    (hc : bitCheck w k.update pre m a s = .ok ps) :
    exec (k.withOffset w pre (.mem m) o) s =
      complete (k.withOffset w pre (.mem m) o).length s (bitOnMem w k.update ps o s) := by
  rw [exec_withOffset]
  simp only [bitOp, ha, hc]

theorem exec_bit_mem_eq_next {t : State} (h : exec (k.withOffset w pre (.mem m) o) s = .next t) :
    ∃ a ps e, bitAddrIn w m o s = some a ∧ memCheck s (operandSeg pre m) a w.bytes (bitKind k.update) = .ok ps ∧
      t = (bitOnMem w k.update ps o s).setEip e := by
  rw [exec_withOffset] at h
  obtain ⟨-, ⟨r, hr, -⟩ | ⟨m', a, ps, hm, ha, hc, rfl⟩⟩ := (bitOp_eq_next_iff ..).mp h
  · cases hr
  · cases hm
    exact ⟨a, ps, _, ha, ((bitCheck_ok_iff ..).mp hc).2, rfl⟩

/-! ## Where it completes -/

/-- The effect of a bit instruction on memory, for either kind of offset. -/
theorem exec_bit_mem_effect {a b : Nat} {old : Bool} {ps : List Nat} (ha : bitAddrIn w m o s = some a)
    (htop : a + w.bytes ≤ 2 ^ (memOpSize m).bits) (hb : b = memBitIndex w o s)
    (hc : memCheck s (operandSeg pre m) a w.bytes (if k.writes then .rmw else .read) = .ok ps)
    (hold : old = (leValue (loadBytes s ps)).testBit b) (hfits : EipFits s (k.withOffset w pre (.mem m) o).length) :
    ∃ t, exec (k.withOffset w pre (.mem m) o) s = .next t ∧ t.flags.CF = old ∧ t.flags.ZF = s.flags.ZF ∧ t.regs = s.regs ∧
      (k.writes = false → t.mem = s.mem) ∧ (∀ x, x ∉ ps → readByte t x = readByte s x) ∧
      (ps.Nodup → ∀ (j : Nat) (h : j < ps.length) (i : Nat), i < 8 →
        (readByte t ps[j]).getLsbD i = if 8 * j + i = b then (k.newBit old).getD old else (readByte s ps[j]).getLsbD i) ∧
      t.eip = eipAfter s (k.withOffset w pre (.mem m) o).length := by
  have hl := memCheck_length hc
  rw [← getLsbD_memValue hl] at hold
  subst hb hold
  have hcheck : bitCheck w k.update pre m a s = .ok ps := (bitCheck_ok_iff ..).mpr ⟨fun _ => htop, k.bitKind_update ▸ hc⟩
  refine ⟨_, (exec_bit_mem_of_check ha hcheck).trans (complete_of_fits hfits _), bitOnMem_CF .., bitOnMem_ZF .., bitOnMem_regs ..,
    fun hk => ?_, fun x hx => readByte_bitOnMem_other w k.update ps o s hx, fun hn j hj i hi => ?_, rfl⟩
  · have hu : k.update = none := by simpa [k.writes_eq] using hk
    rw [State.setEip_mem, hu, bitOnMem_none_mem]
  · rw [getLsbD_readByte hl _ hj hi, getLsbD_readByte hl _ hj hi, k.newBit_getD]
    exact getLsbD_memValue_bitOnMem w k.update o s hl hn (8 * j + i)

end

/-- Settles O30: the address and the bit of the statement are those the meaning computes from the signed offset. -/
theorem bitOfMemoryByRegisterOffset : Obligations.BitOfMemoryByRegisterOffset := by
  intro k w pre m q s offset a b old ps hoff ha htop hb hc hold hfits
  have hbytes : 0 < w.bytes := by cases w <;> decide
  obtain rfl : offset = memBitOffset w (.reg q) s := hoff.trans (sint_eq_toInt w _)
  have hidx : b = memBitIndex w (.reg q) s := by
    unfold memBitIndex fmod
    omega
  exact exec_bit_mem_effect (o := .reg q) (bitAddrIn_eq_some_iff.mpr ⟨ha, by omega⟩) htop hidx hc hold hfits

/-- Settles O31. -/
theorem bitOfMemoryByImmediateOffset : Obligations.BitOfMemoryByImmediateOffset := by
  intro k w pre m imm s b old ps hb htop hc hold hfits
  have hidx : b = memBitIndex w (.imm imm) s := by
    rw [hb, ← Nat.mod_mod, ← Int.toNat_natCast (_ % _), Int.natCast_mod]
    rfl
  exact exec_bit_mem_effect (o := .imm imm) (bitAddrIn_imm w m imm s) htop hidx hc hold hfits

/-- Settles O35. -/
theorem bitOfMemoryFrame : Obligations.BitOfMemoryFrame := by
  intro k w pre m o s t ht
  obtain ⟨a, ps, e, ha, hc, rfl⟩ := exec_bit_mem_eq_next ht
  obtain ⟨s', he, hflags, hparams, hdraws⟩ := bitOnMem_eq_bitFlags w k.update ps o s
  refine ⟨bitOnMem_regs .., bitOnMem_segs .., bitOnMem_params .., fun a' ps' ha' hps' x hx => ?_, fun hk x => ?_,
    bit_flags_frame (by rw [State.setEip_flags, he]) (by rw [State.setEip_draws, he]) hflags hparams hdraws⟩
  · obtain rfl : a = a' := by simpa [ha] using ha'
    rw [← k.bitKind_update, ((memCheck_ok_iff ..).mp hc).1] at hps'
    obtain rfl : ps = ps' := by simpa using hps'
    exact readByte_bitOnMem_other w k.update ps o s hx
  · have hu : k.update = none := by simpa [k.writes_eq] using hk
    rw [hu]
    exact readByte_congr (bitOnMem_none_mem w ps o s) x

/-! ## Two bit instructions in a row on the same bytes (R176, R184) -/

/-- A second bit instruction on the same operands touches the bytes the first, which wrote, has touched. -/
theorem exec_bit_mem_again {k k' : BitInstr} {w : Size} {pre pre' : List Prefix} {m : MemOp} {o : BitOffset} {s t v : State}
    (hw : k.writes = true) (hseg : operandSeg pre' m = operandSeg pre m)
    (hn : ∀ a ps, translate s (operandSeg pre m) a w.bytes .rmw = .ok ps → ps.Nodup)
    (ht : exec (k.withOffset w pre (.mem m) o) s = .next t) (hv : exec (k'.withOffset w pre' (.mem m) o) t = .next v) :
    ∃ ps e e', ps.length = w.bytes ∧ ps.Nodup ∧ t = (bitOnMem w k.update ps o s).setEip e ∧
      v = (bitOnMem w k'.update ps o t).setEip e' := by
  obtain ⟨a, ps, e, ha, hc, rfl⟩ := exec_bit_mem_eq_next ht
  obtain ⟨a', ps', e', ha', hc', rfl⟩ := exec_bit_mem_eq_next hv
  rw [k.bitKind_update, if_pos hw] at hc
  obtain rfl : a = a' := by
    rw [bitAddrIn_congr (t := (bitOnMem w k.update ps o s).setEip e) (bitOnMem_regs w k.update ps o s), ha] at ha'
    exact Option.some.inj ha'
  have hboth : memCheck s (operandSeg pre m) a w.bytes (bitKind k'.update) = .ok ps := by
    cases hu : k'.update with
    | none => exact memCheck_of_rmw (.inl rfl) hc
    | some u => exact hc
  obtain rfl : ps = ps' := by
    rw [hseg, memCheck_congr (t := (bitOnMem w k.update ps o s).setEip e) (s := s) (bitOnMem_params w k.update ps o s)
      (bitOnMem_segs w k.update ps o s), hboth] at hc'
    exact Except.ok.inj hc'
  exact ⟨ps, e, e', memCheck_length hc, hn a ps ((memCheck_ok_iff ..).mp hc).1, rfl, rfl⟩

theorem btc_mem_twice {w : Size} {pre pre' : List Prefix} {o : BitOffset} {s t v : State} {m : MemOp}
    (hseg : operandSeg pre' m = operandSeg pre m)
    (hn : ∀ a ps, translate s (operandSeg pre m) a w.bytes .rmw = .ok ps → ps.Nodup)
    (ht : exec (BitInstr.btc.withOffset w pre (.mem m) o) s = .next t)
    (hv : exec (BitInstr.btc.withOffset w pre' (.mem m) o) t = .next v) :
    v.regs = s.regs ∧ (∀ x, readByte v x = readByte s x) ∧ v.flags.CF = !t.flags.CF := by
  obtain ⟨ps, e, e', hl, hnodup, rfl, rfl⟩ := exec_bit_mem_again rfl hseg hn ht hv
  have hidx : memBitIndex w o ((bitOnMem w BitInstr.btc.update ps o s).setEip e) = memBitIndex w o s :=
    memBitIndex_congr (bitOnMem_regs ..) w o
  have hfirst : ∀ j, (memValue w ps ((bitOnMem w BitInstr.btc.update ps o s).setEip e)).getLsbD j = _ :=
    getLsbD_memValue_bitOnMem w BitInstr.btc.update o s hl hnodup
  refine ⟨?_, fun x => ?_, ?_⟩
  · rw [State.setEip_regs, bitOnMem_regs, State.setEip_regs, bitOnMem_regs]
  · by_cases hx : x ∈ ps
    · refine readByte_eq_of_memValue_eq hl (BitVec.eq_of_getLsbD_eq fun j _ => ?_) hx
      refine (getLsbD_memValue_bitOnMem w BitInstr.btc.update o _ hl hnodup j).trans ?_
      rw [hidx, hfirst, hfirst, if_pos rfl]
      split
      · next h => simp [BitInstr.update, bitAfter, BitUpdate.new, h]
      · rfl
    · exact (readByte_bitOnMem_other w _ ps o _ hx).trans (readByte_bitOnMem_other w _ ps o s hx)
  · rw [State.setEip_flags, bitOnMem_CF, hidx, hfirst, if_pos rfl, State.setEip_flags, bitOnMem_CF]
    rfl

/-- Settles O36: complementing a bit twice restores it, and the second instruction finds the complement the first left. -/
theorem btcTwiceRestoresTheDestination : Obligations.BtcTwiceRestoresTheDestination :=
  fun _ _ _ _ _ _ _ => ⟨fun _ ho ht hv => btc_reg_twice ho ht hv, fun _ hseg hn ht hv => btc_mem_twice hseg hn ht hv⟩

/-- Settles O37: BT copies to CF the bit the first instruction left. -/
theorem btAfterBtsOrBtrSeesTheBit : Obligations.BtAfterBtsOrBtrSeesTheBit := by
  intro k w pre m o s t v c hk hn ht hv
  have hw : k.writes = true := by rcases hk with ⟨rfl, -⟩ | ⟨rfl, -⟩ <;> rfl
  obtain ⟨ps, e, e', hl, hnodup, rfl, rfl⟩ := exec_bit_mem_again hw rfl hn ht hv
  have hidx : memBitIndex w o ((bitOnMem w k.update ps o s).setEip e) = memBitIndex w o s :=
    memBitIndex_congr (bitOnMem_regs ..) w o
  rw [State.setEip_flags, bitOnMem_CF, hidx]
  refine (getLsbD_memValue_bitOnMem w k.update o s hl hnodup _).trans ?_
  rw [if_pos rfl]
  rcases hk with ⟨rfl, rfl⟩ | ⟨rfl, rfl⟩ <;> rfl

end Sys2Proof.Machine
end

section
/-! What stops BT, BTC, BTR and BTS (spec/42_bit_test.md R182, R186). -/

namespace Sys2Proof.Machine

theorem BitInstr.stores_bitKind (k : BitInstr) : (bitKind k.update).stores = k.writes := by
  cases k <;> rfl

theorem sixteen_le_bits (w : Size) : 16 ≤ w.bits := by
  cases w <;> decide

section
variable {k : BitInstr} {w : Size} {pre : List Prefix} {m : MemOp} {o : BitOffset} {s : State} {a : Nat}
  (ha : bitAddrIn w m o s = some a)
include ha

/-- In Protected Mode bytes past 2^A - 1 raise the fault of an illegal address. -/
theorem exec_bit_mem_past_protected (hm : s.params.mode = .protectedMode) (hpast : a + w.bytes > 2 ^ (memOpSize m).bits) :
    exec (k.withOffset w pre (.mem m) o) s =
      takeException (illegalFault s (operandSeg pre m) a w.bytes (bitKind k.update)) s :=
  exec_bit_mem_of_stop ha (bitCheck_past hm hpast)

theorem exec_bit_mem_endsPastTheTop (hpast : a + w.bytes > 2 ^ (memOpSize m).bits) :
    EndsPastTheTop s (operandSeg pre m) k.writes (exec (k.withOffset w pre (.mem m) o) s) := by
  refine ⟨fun hm => (exec_withOffset_interrupt13_iff hm ha).mpr ?_, fun hm => ?_⟩
  · have hA : 2 ^ 16 ≤ 2 ^ (memOpSize m).bits := Nat.pow_le_pow_right (by decide) (sixteen_le_bits _)
    omega
  · rw [exec_bit_mem_past_protected ha hm hpast, ← k.stores_bitKind]
    rcases illegalFault_eq s (operandSeg pre m) a w.bytes (bitKind k.update) with h | ⟨hss, hs, hw, h⟩
    · exact .inl (by rw [h])
    · exact .inr ⟨hss, hs, hw, by rw [h]⟩

/-- Every trap of a bit instruction on memory is what the check of its bytes raises. -/
theorem exec_bit_mem_eq_fault {f : Fault} (h : exec (k.withOffset w pre (.mem m) o) s = .fault f) :
    ∃ e, bitCheck w k.update pre m a s = .error (.raise e) ∧ takeException e s = .fault f := by
  cases hc : bitCheck w k.update pre m a s with
  | error x =>
    rw [exec_bit_mem_of_stop ha hc] at h
    obtain ⟨e, rfl, he⟩ := stop_eq_fault h
    exact ⟨e, rfl, he⟩
  | ok ps =>
    rw [exec_bit_mem_of_check ha hc] at h
    exact absurd h (complete_ne_fault _ _ _ _)

/-- BTC, BTR and BTS on a nonwritable segment of Protected Mode. -/
theorem exec_bit_mem_nonwritable (hm : s.params.mode = .protectedMode) (hk : k.writes = true)
    (hw : (s.segs.get (operandSeg pre m)).writable = false) :
    exec (k.withOffset w pre (.mem m) o) s = takeException .gp0 s ∨
      operandSeg pre m = .ss ∧ ((s.segs.get .ss).legal a w.bytes .rmw = false ∨ a + w.bytes > 2 ^ (memOpSize m).bits) ∧
        exec (k.withOffset w pre (.mem m) o) s = takeException .ss0 s := by
  by_cases hpast : a + w.bytes > 2 ^ (memOpSize m).bits
  · rw [exec_bit_mem_past_protected ha hm hpast]
    rcases illegalFault_cases s (operandSeg pre m) a w.bytes (bitKind k.update) with h | ⟨h, hss⟩
    · exact .inl (by rw [h])
    · exact .inr ⟨hss, .inr hpast, by rw [h]⟩
  · have raises {e : Exc} (h : translate s (operandSeg pre m) a w.bytes .rmw = .error e) :
        exec (k.withOffset w pre (.mem m) o) s = takeException e s := by
      have hc : memCheck s (operandSeg pre m) a w.bytes (bitKind k.update) = .error (.raise e) := by
        rw [k.bitKind_update, if_pos hk, memCheck_raise_iff.mpr h]
      exact exec_bit_mem_of_stop ha ((bitCheck_within fun _ => Nat.not_lt.mp hpast).trans hc)
    cases hl : (s.segs.get (operandSeg pre m)).legal a w.bytes .rmw with
    | true => exact .inl (raises (translate_barred hm hl rfl hw))
    | false =>
      rcases translate_illegal_cases hm hl with h | ⟨h, hss⟩
      · exact .inl (raises h)
      · exact .inr ⟨hss, .inl (hss ▸ hl), raises h⟩

end

/-- Settles O33. -/
theorem exceptionsOfTheBitInstructions : Obligations.ExceptionsOfTheBitInstructions := by
  intro k w pre o s
  refine ⟨fun x f h => ?_, fun m a kind ha hkind => ?_⟩
  · rw [exec_withOffset] at h
    exact complete_ne_fault _ _ _ _ h
  · rw [← k.bitKind_update] at hkind
    subst hkind
    refine ⟨fun e hin hc => exec_bit_mem_of_stop ha ((bitCheck_within hin).trans hc), exec_bit_mem_endsPastTheTop ha,
      fun f hf => ?_, fun hm => (exec_withOffset_interrupt13_iff hm ha).mpr, fun hm hk hw => ?_⟩
    · obtain ⟨e, hc, he⟩ := exec_bit_mem_eq_fault ha hf
      refine ⟨by rw [takeException_eq_fault he, trapRecord], e, hf.trans he.symm, bitCheck_raise hc, ?_⟩
      by_cases hpast : a + w.bytes > 2 ^ (memOpSize m).bits
      · exact .inr hpast
      · rw [bitCheck_within fun _ => Nat.not_lt.mp hpast] at hc
        exact .inl (memCheck_raise_iff.mp hc)
    · rw [k.bitKind_update, if_pos hk]
      exact exec_bit_mem_nonwritable ha hm hk hw

theorem bitCheck_ne_overflow {w : Size} {u : Option BitUpdate} {pre : List Prefix} {m : MemOp} {a : Nat} {s : State} :
    bitCheck w u pre m a s ≠ .error (.refuse .addressArithmeticOverflow) := by
  unfold bitCheck
  split
  · simp
  · intro h
    rcases memCheck_error h with ⟨x, -, he⟩ | he | ⟨-, he⟩ <;> cases he

/-- A bit instruction on memory whose address is in the space and whose EIP can advance is not refused for arithmetic. -/
theorem exec_bit_mem_ne_overflow {k : BitInstr} {w : Size} {pre : List Prefix} {m : MemOp} {o : BitOffset} {s : State} {a : Nat}
    (ha : bitAddrIn w m o s = some a) (hfits : EipFits s (k.withOffset w pre (.mem m) o).length) :
    exec (k.withOffset w pre (.mem m) o) s ≠ .refused .addressArithmeticOverflow := by
  cases hc : bitCheck w k.update pre m a s with
  | ok ps =>
    rw [exec_bit_mem_of_check ha hc, complete_of_fits hfits]
    simp
  | error e =>
    rw [exec_bit_mem_of_stop ha hc]
    intro h
    cases e with
    | raise x => cases x <;> cases h
    | refuse r =>
      cases h
      exact bitCheck_ne_overflow hc

/-- Settles O32. -/
theorem bitAddressOverflowIsRefused : Obligations.BitAddressOverflowIsRefused := by
  intro k w pre m s
  refine ⟨fun q step hstep => ?_, fun imm =>
    ⟨exec_bit_mem_ne_overflow (o := .imm imm) (bitAddrIn_imm w m imm s), fun hpast => ?_⟩⟩
  · obtain rfl : step = w.bytes * fdiv (memBitOffset w (.reg q) s) w.bits := by
      rw [hstep, sint_eq_toInt]
      rfl
    obtain ⟨hlo, hhi⟩ := bitAddr_displacement w q s
    refine ⟨hlo, hhi, fun hout => exec_bit_mem_of_no_addr (o := .reg q) (bitAddrIn_eq_none hout), fun h0 htop hpast => ?_⟩
    obtain ⟨a, ha⟩ := Int.eq_ofNat_of_zero_le h0
    rw [ha] at htop hpast
    refine exec_bit_mem_endsPastTheTop (o := .reg q) (bitAddrIn_eq_some_iff.mpr ⟨ha.symm, ?_⟩) ?_ <;> zify <;> omega
  · refine exec_bit_mem_endsPastTheTop (o := .imm imm) (bitAddrIn_imm w m imm s) ?_
    zify
    omega

end Sys2Proof.Machine
end

section
/-! What an instruction reads of EIP and the flags, and what it writes (spec/10_state.md R25 to R27): an instruction stops as it would
with another EIP and other flags, or completes from an effect that does not depend on them. -/

namespace Sys2Proof.Machine

/-! ## The three operations -/

/-- Every instruction is, at its own size, BOUND, a scan or the template of the bit instructions, and writes the flags of that
family. -/
theorem exec_shape (i : Instr) :
    (∃ pre r rm, (∀ s, exec i s = bound i.width i.length pre r rm s) ∧
      ∀ policy kept written, flagsAfter i policy kept written = kept) ∨
    (∃ scan pre r rm, (∀ s, exec i s = bitScan i.width scan i.length pre r rm s) ∧
      ∀ policy kept written, flagsAfter i policy kept written = flagsAfterScan policy kept written) ∨
    ∃ u pre rm o, (∀ s, exec i s = bitOp i.width u i.length pre rm o s) ∧
      ∀ policy kept written, flagsAfter i policy kept written = flagsAfterBit policy kept written := by
  rcases instr_shape i with ⟨w, pre, r, rm, rfl⟩ | ⟨w, pre, r, rm, rfl⟩ | ⟨w, pre, r, rm, rfl⟩ | ⟨k, w, pre, rm, o, rfl⟩
  · exact .inl ⟨pre, r, rm, by cases w <;> exact exec_boundInstr _ pre r rm, by simp⟩
  · exact .inr (.inl ⟨lowestSet, pre, r, rm, by cases w <;> exact exec_bsfInstr _ pre r rm, by simp⟩)
  · exact .inr (.inl ⟨highestSet, pre, r, rm, by cases w <;> exact exec_bsrInstr _ pre r rm, by simp⟩)
  · have hw : (k.withOffset w pre rm o).width = w := by cases k <;> cases w <;> cases o <;> rfl
    exact .inr (.inr ⟨k.update, pre, rm, o, by rw [hw]; exact exec_withOffset k w pre rm o, by simp⟩)

/-! ## The flag rules, whatever the flags were before -/

section
variable (b : Bool) (s : State) (f : Flags) (e : Dword)

theorem scanFlags_flags : (scanFlags b s).flags = flagsAfterScan s.params.flagsUnlisted s.flags (scanFlags b s).flags := by
  simp only [scanFlags, unlistedFlags, State.setZF_params]
  cases s.params.flagsUnlisted <;> rfl

theorem scanFlags_with :
    scanFlags b { s with flags := f, eip := e } =
      { scanFlags b s with flags := flagsAfterScan s.params.flagsUnlisted f (scanFlags b s).flags, eip := e } := by
  simp only [scanFlags, unlistedFlags, State.setZF_params]
  cases s.params.flagsUnlisted <;> rfl

theorem bitFlags_flags : (bitFlags b s).flags = flagsAfterBit s.params.flagsUnlisted s.flags (bitFlags b s).flags := by
  simp only [bitFlags, unlistedFlags, State.setCF_params]
  cases s.params.flagsUnlisted <;> rfl

theorem bitFlags_with :
    bitFlags b { s with flags := f, eip := e } =
      { bitFlags b s with flags := flagsAfterBit s.params.flagsUnlisted f (bitFlags b s).flags, eip := e } := by
  simp only [bitFlags, unlistedFlags, State.setCF_params]
  cases s.params.flagsUnlisted <;> rfl

end

/-! ## Each instruction -/

/-- `i` stops in `s` as it does with the flags `f` and the EIP `e` in place of those of `s`, or completes in both from one effect,
but for the flags it does not write (`flagsAfter`). -/
def IgnoresFlagsAndEip (i : Instr) (s : State) (f : Flags) (e : Dword) : Prop :=
  (∃ x, exec i s = stop x s ∧ exec i { s with flags := f, eip := e } = stop x { s with flags := f, eip := e }) ∨
    ∃ t : State, exec i s = complete i.length s t ∧ t.flags = flagsAfter i s.params.flagsUnlisted s.flags t.flags ∧
      exec i { s with flags := f, eip := e } = complete i.length { s with flags := f, eip := e }
        { t with flags := flagsAfter i s.params.flagsUnlisted f t.flags, eip := e }

section
variable (w : Size) (pre : List Prefix) (r : Reg) (rm : RM) (s : State) (f : Flags) (e : Dword)

theorem memCheck_with (seg : Seg) (off k : Nat) (kind : AccessKind) :
    memCheck { s with flags := f, eip := e } seg off k kind = memCheck s seg off k kind :=
  memCheck_congr rfl rfl ..

theorem readRM_with : readRM w pre rm { s with flags := f, eip := e } = readRM w pre rm s := by
  cases rm with
  | reg x => rfl
  | mem m => simp only [readRM, memRead, memCheck_with]; rfl

theorem scanResult_with (scan : BitVec w.bits → Nat) (v : BitVec w.bits) :
    scanResult w scan r v { s with flags := f, eip := e } =
      { scanResult w scan r v s with
        flags := flagsAfterScan s.params.flagsUnlisted f (scanResult w scan r v s).flags, eip := e } := by
  unfold scanResult
  split
  · exact scanFlags_with true ((s.setReg w r (Config.undefDraw w.bits s.draws)).addDraws 1) f e
  · exact scanFlags_with false (s.setReg w r (BitVec.ofNat w.bits (scan v))) f e

theorem scanResult_flags (scan : BitVec w.bits → Nat) (v : BitVec w.bits) :
    (scanResult w scan r v s).flags = flagsAfterScan s.params.flagsUnlisted s.flags (scanResult w scan r v s).flags := by
  obtain ⟨s', he, hflags, hparams, -⟩ := scanResult_eq_scanFlags scan r v s
  rw [he, ← hflags, ← hparams]
  exact scanFlags_flags _ s'

theorem bitOnReg_with (u : Option BitUpdate) (o : BitOffset) :
    bitOnReg w u r o { s with flags := f, eip := e } =
      { bitOnReg w u r o s with flags := flagsAfterBit s.params.flagsUnlisted f (bitOnReg w u r o s).flags, eip := e } := by
  cases u with
  | none => exact bitFlags_with _ s f e
  | some u => exact bitFlags_with _ (s.setReg w r _) f e

theorem bitOnMem_with (u : Option BitUpdate) (ps : List Nat) (o : BitOffset) :
    bitOnMem w u ps o { s with flags := f, eip := e } =
      { bitOnMem w u ps o s with flags := flagsAfterBit s.params.flagsUnlisted f (bitOnMem w u ps o s).flags, eip := e } := by
  cases u with
  | none => exact bitFlags_with _ s f e
  | some u => exact bitFlags_with _ (s.setMem _) f e

theorem bitOnReg_flags (u : Option BitUpdate) (o : BitOffset) :
    (bitOnReg w u r o s).flags = flagsAfterBit s.params.flagsUnlisted s.flags (bitOnReg w u r o s).flags := by
  obtain ⟨s', he, hflags, hparams, -⟩ := bitOnReg_eq_bitFlags w u r o s
  rw [he, ← hflags, ← hparams]
  exact bitFlags_flags _ s'

theorem bitOnMem_flags (u : Option BitUpdate) (ps : List Nat) (o : BitOffset) :
    (bitOnMem w u ps o s).flags = flagsAfterBit s.params.flagsUnlisted s.flags (bitOnMem w u ps o s).flags := by
  obtain ⟨s', he, hflags, hparams, -⟩ := bitOnMem_eq_bitFlags w u ps o s
  rw [he, ← hflags, ← hparams]
  exact bitFlags_flags _ s'

end

section
variable {i : Instr} {s : State} {f : Flags} {e : Dword}

theorem ignores_of_bound {pre : List Prefix} {r : Reg} {rm : RM} (hexec : ∀ s, exec i s = bound i.width i.length pre r rm s)
    (hafter : ∀ policy kept written, flagsAfter i policy kept written = kept) : IgnoresFlagsAndEip i s f e := by
  simp only [IgnoresFlagsAndEip, hexec, hafter]
  cases rm with
  | reg x => exact .inl ⟨.raise .ud, rfl, rfl⟩
  | mem m =>
    simp only [bound, memCheck_with]
    cases memCheck s (operandSeg pre m) (effAddr m s.regs) (2 * i.width.bytes) .read with
    | error x => exact .inl ⟨x, rfl, rfl⟩
    | ok ps =>
      by_cases hout : (readReg i.width r s).toInt <
            (BitVec.ofNat i.width.bits (leValue (loadBytes s (ps.take i.width.bytes)))).toInt ∨
          (readReg i.width r s).toInt > (BitVec.ofNat i.width.bits (leValue (loadBytes s (ps.drop i.width.bytes)))).toInt
      · exact .inl ⟨.raise .interrupt5, if_pos hout, if_pos hout⟩
      · exact .inr ⟨s, if_neg hout, rfl, if_neg hout⟩

theorem ignores_of_bitScan {scan : BitVec i.width.bits → Nat} {pre : List Prefix} {r : Reg} {rm : RM}
    (hexec : ∀ s, exec i s = bitScan i.width scan i.length pre r rm s)
    (hafter : ∀ policy kept written, flagsAfter i policy kept written = flagsAfterScan policy kept written) :
    IgnoresFlagsAndEip i s f e := by
  simp only [IgnoresFlagsAndEip, hexec, hafter, bitScan, readRM_with]
  cases readRM i.width pre rm s with
  | error x => exact .inl ⟨x, rfl, rfl⟩
  | ok src => exact .inr ⟨scanResult i.width scan r src s, rfl, scanResult_flags .., by simp only [scanResult_with]⟩

theorem ignores_of_bitOp {u : Option BitUpdate} {pre : List Prefix} {rm : RM} {o : BitOffset}
    (hexec : ∀ s, exec i s = bitOp i.width u i.length pre rm o s)
    (hafter : ∀ policy kept written, flagsAfter i policy kept written = flagsAfterBit policy kept written) :
    IgnoresFlagsAndEip i s f e := by
  simp only [IgnoresFlagsAndEip, hexec, hafter]
  cases rm with
  | reg x => exact .inr ⟨bitOnReg i.width u x o s, rfl, bitOnReg_flags .., by simp only [bitOp, bitOnReg_with]⟩
  | mem m =>
    simp only [bitOp, bitAddrIn_congr (s := s) (t := { s with flags := f, eip := e }) rfl,
      bitCheck_congr (s := s) (t := { s with flags := f, eip := e }) rfl rfl]
    cases bitAddrIn i.width m o s with
    | none => exact .inl ⟨.refuse .addressArithmeticOverflow, rfl, rfl⟩
    | some a =>
      cases hc : bitCheck i.width u pre m a s with
      | error x => exact .inl ⟨x, by simp only [hc], by simp only [hc]⟩
      | ok ps =>
        exact .inr ⟨bitOnMem i.width u ps o s, by simp only [hc], bitOnMem_flags .., by simp only [hc, bitOnMem_with]⟩

end

theorem exec_ignores (i : Instr) (s : State) (f : Flags) (e : Dword) : IgnoresFlagsAndEip i s f e := by
  rcases exec_shape i with ⟨pre, r, rm, hexec, hafter⟩ | ⟨scan, pre, r, rm, hexec, hafter⟩ | ⟨u, pre, rm, o, hexec, hafter⟩
  · exact ignores_of_bound hexec hafter
  · exact ignores_of_bitScan hexec hafter
  · exact ignores_of_bitOp hexec hafter

end Sys2Proof.Machine
end

section
/-! The whole machine: what every step keeps, where EIP goes, how runs and traps end (spec/10_state.md, 60_exceptions.md,
70_reset_and_hazards.md). -/

namespace Sys2Proof.Machine

/-! ## What an instruction that completes leaves -/

/-- EIP is advanced in its space, the parameters and segment registers stay, and memory is changed by a store outside `CODE`. -/
structure Completes (i : Instr) (s t : State) : Prop where
  fits : EipFits s i.length
  eip : t.eip = eipAfter s i.length
  params : t.params = s.params
  segs : t.segs = s.segs
  mem : ∃ ps bs, t.mem = Memory.setBytes s.mem ps bs ∧ ∀ p ∈ ps, inRanges s.params.code p = false

theorem setBytes_nil (m : Memory) (bs : List Byte) : Memory.setBytes m [] bs = m := by
  cases bs <;> rfl

/-- Memory that is unchanged is changed by a store of nothing. -/
theorem mem_unchanged {s t : State} (h : t.mem = s.mem) :
    ∃ ps bs, t.mem = Memory.setBytes s.mem ps bs ∧ ∀ p ∈ ps, inRanges s.params.code p = false :=
  ⟨[], [], by rw [setBytes_nil, h], by simp⟩

theorem exec_completes {i : Instr} {s t : State} (h : exec i s = .next t) : Completes i s t := by
  rcases exec_shape i with ⟨pre, r, rm, hexec, -⟩ | ⟨scan, pre, r, rm, hexec, -⟩ | ⟨u, pre, rm, o, hexec, -⟩ <;> rw [hexec] at h
  · obtain ⟨m, ps, -, -, -, -, hfits, rfl⟩ := (bound_eq_next_iff ..).mp h
    exact ⟨hfits, rfl, rfl, rfl, mem_unchanged rfl⟩
  · obtain ⟨src, -, hfits, rfl⟩ := (bitScan_eq_next_iff ..).mp h
    exact ⟨hfits, rfl, scanResult_params .., scanResult_segs .., mem_unchanged (scanResult_mem ..)⟩
  · obtain ⟨hfits, ⟨x, rfl, rfl⟩ | ⟨m, a, ps, rfl, ha, hc, rfl⟩⟩ := (bitOp_eq_next_iff ..).mp h
    · exact ⟨hfits, rfl, bitOnReg_params .., bitOnReg_segs .., mem_unchanged (bitOnReg_mem ..)⟩
    · refine ⟨hfits, rfl, bitOnMem_params .., bitOnMem_segs .., ?_⟩
      obtain ⟨-, hcheck⟩ := (bitCheck_ok_iff ..).mp hc
      obtain ⟨-, -, hcode⟩ := (memCheck_ok_iff ..).mp hcheck
      cases u with
      | none => exact mem_unchanged (bitOnMem_none_mem i.width ps o s)
      | some u => exact ⟨ps, _, bitOnMem_some_mem i.width ps o s u, hcode rfl⟩

theorem lastEip_lt (m : Mode) : lastEip m < 2 ^ 32 := by
  cases m <;> decide

/-- The next EIP does not wrap. -/
theorem Completes.toNat_eip {i : Instr} {s t : State} (h : Completes i s t) : t.eip.toNat = s.eip.toNat + i.length := by
  have hlast := lastEip_lt s.params.mode
  have hfits := h.fits
  rw [h.eip, eipAfter, BitVec.toNat_add, BitVec.toNat_ofNat]
  unfold EipFits at hfits
  omega

theorem Completes.eipInSpace {i : Instr} {s t : State} (h : Completes i s t) : EipInSpace t := by
  rw [EipInSpace, h.toNat_eip, h.params]
  exact h.fits

theorem step_completes {s t : State} (h : step s = .next t) : ∃ i, fetchInstr s = .ok i ∧ Completes i s t := by
  obtain ⟨i, hf, hi⟩ := step_eq_next h
  exact ⟨i, hf, exec_completes hi⟩

/-! ## What every step keeps -/

/-- Settles O48. -/
theorem stepKeepsMachineInv : Obligations.StepKeepsMachineInv := by
  rintro s t ⟨hwf, -, hcode⟩ h
  obtain ⟨i, -, hc⟩ := step_completes h
  obtain ⟨ps, bs, hmem, -⟩ := hc.mem
  refine ⟨hmem ▸ Memory.wf_setBytes hwf ps bs, hc.eipInSpace, ?_⟩
  rw [CodeInRam, hc.params]
  exact hcode

/-- Settles O49. -/
theorem resetHasMachineInv : Obligations.ResetHasMachineInv :=
  ⟨Memory.wf_reset, by unfold EipInSpace; decide, fun a h => by simp [inRanges, State.reset] at h⟩

/-- Settles O50. -/
theorem stepNeverChangesCode : Obligations.StepNeverChangesCode := by
  intro s t h a ha
  obtain ⟨i, -, hc⟩ := step_completes h
  obtain ⟨ps, bs, hmem, hcode⟩ := hc.mem
  have hout : a ∉ ps := fun hp => by simp [hcode a hp] at ha
  rw [readByte_congr (t := s.setMem (Memory.setBytes s.mem ps bs)) hmem, readByte_setBytes_other s bs hout]

/-- Settles O51. -/
theorem stepKeepsParametersAndSegments : Obligations.StepKeepsParametersAndSegments := by
  intro s t h
  obtain ⟨i, -, hc⟩ := step_completes h
  exact ⟨hc.params, hc.segs⟩

/-! ## EIP and runs -/

theorem fetchInstr_length {s : State} {i : Instr} (h : fetchInstr s = .ok i) : 2 ≤ i.length ∧ i.length ≤ 12 := by
  obtain ⟨bs, rest, hdone⟩ := fetchFrom_ok h
  exact admittedInstructionHasTwoToTwelveBytes _ i (decodedBytesAreTheEncoding _ bs i rest hdone).1

/-- An instruction that would complete at another EIP is refused where EIP cannot advance. -/
theorem exec_of_not_fits {i : Instr} {s t : State} {e : Dword} (h : exec i { s with eip := e } = .next t)
    (hfits : ¬ EipFits s i.length) : exec i s = .refused .addressArithmeticOverflow := by
  rcases exec_ignores i s s.flags e with ⟨x, -, hx⟩ | ⟨t', ht', -⟩
  · exact absurd (hx.symm.trans h) (stop_ne_next _ _ _)
  · rw [ht', complete_of_not_fits hfits]

/-- Settles O52. -/
theorem stepAdvancesEipByTheLength : Obligations.StepAdvancesEipByTheLength := by
  refine ⟨fun s t h => ?_, fun i s t e => exec_of_not_fits, fun i s t e hf h hfits => ?_⟩
  · obtain ⟨i, hf, hc⟩ := step_completes h
    obtain ⟨hmin, hmax⟩ := fetchInstr_length hf
    exact ⟨i, hf, hmin, hmax, hc.toNat_eip, hc.eipInSpace⟩
  · rw [step_of_fetchInstr hf, exec_of_not_fits h hfits]

theorem run_succ_of_next {n : Nat} {s s' : State} (h : step s = .next s') : core.run (n + 1) s = core.run n s' := by
  have hstep : core.step s = .next s' := h
  simp only [Host.Core.run, hstep]

theorem run_succ_eq_next {n : Nat} {s t : State} (h : core.run (n + 1) s = .next t) :
    ∃ s', step s = .next s' ∧ core.run n s' = .next t := by
  simp only [Host.Core.run] at h
  split at h
  · exact ⟨_, ‹_›, h⟩
  · cases h
  · cases h

/-- Each step takes at least two bytes of the room above EIP, so there are no more steps than bytes. -/
theorem run_ne_next_of_room_lt {n : Nat} {s : State} (h : lastEip s.params.mode - s.eip.toNat < n) (t : State) :
    core.run n s ≠ .next t := by
  induction n generalizing s with
  | zero => omega
  | succ n ih =>
    intro hrun
    obtain ⟨s', hs, hrest⟩ := run_succ_eq_next hrun
    obtain ⟨i, hf, hc⟩ := step_completes hs
    have hmin := (fetchInstr_length hf).1
    have heip := hc.toNat_eip
    have hspace := hc.eipInSpace
    rw [EipInSpace, hc.params] at hspace
    refine ih ?_ hrest
    rw [hc.params]
    omega

/-- Settles O53. -/
theorem everyRunIsFinite : Obligations.EveryRunIsFinite :=
  fun _ => ⟨_, run_ne_next_of_room_lt (Nat.lt_succ_self _)⟩

/-- Settles O59. -/
theorem goodRunEndsAtEndEip : Obligations.GoodRunEndsAtEndEip := by
  intro endEip n
  induction n with
  | zero =>
    intro s t h
    unfold runTo at h
    split at h
    · cases h
      exact ⟨‹_›, 0, Nat.le_refl _, rfl⟩
    · cases h
  | succ n ih =>
    intro s t h
    unfold runTo at h
    split at h
    · cases h
      exact ⟨‹_›, 0, Nat.zero_le _, rfl⟩
    · simp only at h
      split at h
      · obtain ⟨heip, k, hk, hrun⟩ := ih _ t h
        exact ⟨heip, k + 1, Nat.succ_le_succ hk, (run_succ_of_next ‹_›).trans hrun⟩
      · cases h
      · cases h

/-! ## Traps -/

/-- A step that traps takes one exception: BOUND's own, or a fault of an operand or of the fetch. -/
theorem step_takes_exception {s : State} {f : Fault} (h : step s = .fault f) :
    ∃ e, takeException e s = .fault f ∧ (e = .ud ∨ e = .interrupt5 ∨ ∃ seg off k kind, OperandFault s seg off k kind e) := by
  rcases step_eq_fault h with ⟨e, hfetch, he⟩ | ⟨i, -, hi⟩
  · obtain ⟨_, ht⟩ := fetchFrom_raise hfetch
    exact ⟨e, he, .inr (.inr ⟨_, _, _, _, operandFault_of_translate ht⟩)⟩
  · obtain ⟨e, he, hcause⟩ := exec_eq_fault hi
    exact ⟨e, he, hcause.imp And.left (Or.imp And.left id)⟩

/-- Settles O54. -/
theorem trapCarriesTheStateBefore : Obligations.TrapCarriesTheStateBefore := by
  intro s f h
  obtain ⟨e, he, -⟩ := step_takes_exception h
  rw [takeException_eq_fault he]
  refine ⟨rfl, rfl, ?_⟩
  cases e <;> cases he <;> exact ⟨rfl, rfl⟩

/-- Settles O55: the conditions on the mode are those of the operand faults (`OperandFault`). -/
theorem exceptionsByMode : Obligations.ExceptionsByMode := by
  intro s f h
  obtain ⟨e, he, rfl | rfl | ⟨seg, off, k, kind, hop⟩⟩ := step_takes_exception h
  · cases he
    trivial
  · cases he
    trivial
  · cases e with
    | gp0 | ss0 | interrupt13 =>
      cases he
      exact hop.1
    | pf c =>
      cases he
      exact hop.imp id And.left
    | ud | interrupt5 => exact hop.elim

/-! ## The flags are not read -/

theorem fetchFrom_with_flags (s : State) (f : Flags) (fuel : Nat) (got : List Byte) :
    fetchFrom { s with flags := f } fuel got = fetchFrom s fuel got := by
  have hbyte : fetchByte { s with flags := f } = fetchByte s := by
    funext i
    simp only [fetchByte, translate_congr (s := s) (t := { s with flags := f }) rfl rfl]
    rfl
  induction fuel generalizing got with
  | zero => rw [fetchFrom, fetchFrom]
  | succ n ih =>
    rw [fetchFrom, fetchFrom]
    simp only [hbyte, ih]

/-- With other flags a step stops for the same cause, or completes from the same effect. -/
theorem step_ignores_flags (s : State) (f : Flags) :
    (∃ x, step s = stop x s ∧ step { s with flags := f } = stop x { s with flags := f }) ∨
      ∃ i, ∃ t : State, fetchInstr s = .ok i ∧ step s = complete i.length s t ∧
        t.flags = flagsAfter i s.params.flagsUnlisted s.flags t.flags ∧
        step { s with flags := f } = complete i.length { s with flags := f }
          { t with flags := flagsAfter i s.params.flagsUnlisted f t.flags, eip := s.eip } := by
  have hfetch : fetchInstr { s with flags := f } = fetchInstr s := fetchFrom_with_flags s f _ _
  cases hf : fetchInstr s with
  | error x => exact .inl ⟨x, step_of_fetchInstr_error hf, step_of_fetchInstr_error (hfetch.trans hf)⟩
  | ok i =>
    rw [step_of_fetchInstr hf, step_of_fetchInstr (hfetch.trans hf)]
    rcases exec_ignores i s f s.eip with hstop | ⟨t, ht, hflags, ht'⟩
    · exact .inl hstop
    · exact .inr ⟨i, t, rfl, ht, hflags, ht'⟩

theorem takeException_is_fault (e : Exc) (s : State) : ∃ y, takeException e s = .fault y ∧ y.record = trapRecord e s := by
  cases e <;> exact ⟨_, rfl, rfl⟩

theorem stop_eq_refused {x : Stop} {s : State} {r : Refusal} (h : stop x s = .refused r) : x = .refuse r := by
  cases x with
  | raise e => cases e <;> cases h
  | refuse q =>
    cases h
    rfl

/-- Settles O56. -/
theorem noInstructionReadsAFlag : Obligations.NoInstructionReadsAFlag := by
  intro s f
  rcases step_ignores_flags s f with ⟨x, hs, hs'⟩ | ⟨i, t, hf, hs, hflags, hs'⟩
  · rw [hs, hs']
    refine ⟨fun t h => absurd h (stop_ne_next _ _ _), fun r h => ?_, fun y h => ?_⟩
    · rw [stop_eq_refused h]
      rfl
    · obtain ⟨e, rfl, he⟩ := stop_eq_fault h
      obtain ⟨z, hz, hrec⟩ := takeException_is_fault e { s with flags := f }
      rw [takeException_eq_fault he]
      exact ⟨z, hz, by rw [hrec]; exact ⟨rfl, rfl, rfl⟩⟩
  · rw [hs, hs']
    refine ⟨fun t' h => ?_, fun r h => ?_, fun y h => absurd h (complete_ne_fault _ _ _ _)⟩
    · obtain ⟨hfits, rfl⟩ := (complete_eq_next_iff ..).mp h
      exact ⟨i, hf, hflags, complete_of_fits hfits _⟩
    · by_cases hfits : EipFits s i.length
      · rw [complete_of_fits hfits] at h
        cases h
      · rw [complete_of_not_fits hfits] at h
        cases h
        exact complete_of_not_fits hfits _

/-! ## Sixteen-bit instructions and the flags word -/

/-- An instruction keeps the bits of every register above its operand size. -/
theorem exec_high_bits {i : Instr} {s t : State} (h : exec i s = .next t) (q : Reg) {j : Nat} (hj : i.width.bits ≤ j) :
    (t.regs.get q).getLsbD j = (s.regs.get q).getLsbD j := by
  rcases exec_shape i with ⟨pre, r, rm, hexec, -⟩ | ⟨scan, pre, r, rm, hexec, -⟩ | ⟨u, pre, rm, o, hexec, -⟩ <;> rw [hexec] at h
  · obtain ⟨m, ps, -, -, -, -, -, rfl⟩ := (bound_eq_next_iff ..).mp h
    rfl
  · obtain ⟨src, -, -, rfl⟩ := (bitScan_eq_next_iff ..).mp h
    rw [State.setEip_regs, scanResult_regs, setReg_high_bits _ _ _ _ _ _ hj]
  · obtain ⟨-, ⟨x, rfl, rfl⟩ | ⟨m, a, ps, rfl, -, -, rfl⟩⟩ := (bitOp_eq_next_iff ..).mp h
    · rw [State.setEip_regs]
      by_cases hq : q = x
      · have hidx := regBitIndex_lt i.width o s
        rw [hq, bitOnReg_getLsbD, if_neg (by omega)]
      · rw [bitOnReg_other _ _ _ _ _ hq]
    · rw [State.setEip_regs, bitOnMem_regs]

/-- Settles O57. -/
theorem sixteenBitInstructionsKeepUpperHalves : Obligations.SixteenBitInstructionsKeepUpperHalves :=
  fun _ _ _ hw h r _ hj => exec_high_bits h r (hw ▸ hj)

theorem getLsbD_flag (b : Bool) (n : Nat) {j : Nat} (hj : j < 32) :
    (((BitVec.ofBool b).setWidth 32 : Dword) <<< n).getLsbD j = (decide (j = n) && b) := by
  simp only [BitVec.getLsbD_shiftLeft, BitVec.getLsbD_setWidth, BitVec.getLsbD_ofBool, hj, decide_true, Bool.true_and]
  by_cases h : j = n
  · simp [h]
  · have : j < n ∨ j - n ≠ 0 := by omega
    rcases this with h' | h' <;> simp [h, h']

/-- Settles O58. -/
theorem flagsWordLayout : Obligations.FlagsWordLayout := by
  intro f j
  by_cases hj : j < 32
  · simp only [Flags.word, BitVec.getLsbD_or, getLsbD_flag _ _ hj]
    interval_cases j <;> simp
  · rw [BitVec.getLsbD_of_ge _ _ (Nat.not_lt.mp hj)]
    obtain ⟨n, rfl⟩ := Nat.exists_eq_add_of_le' (Nat.not_lt.mp hj)
    rfl

/-! ## Reset -/

/-- Settles O60: the fetch at reset finds its byte outside `CODE`, which is empty. -/
theorem resetStateAsLogged : Obligations.ResetStateAsLogged := by
  refine ⟨rfl, by decide, rfl, rfl, rfl, fun r hr => ?_, rfl, rfl, rfl, rfl, rfl⟩
  cases r
  case edx => exact absurd rfl hr
  all_goals rfl

end Sys2Proof.Machine
end
